-- ==== Sys2Proof/Word.lean ====
section
/-! DEFINITION. The value widths of R9: a byte is 8 bits, unsigned, and a logic level is one bit (0 low, 1 high). Times,
durations, indices and counters are unbounded naturals (R9), so they are plain `Nat`. -/

namespace Sys2Proof

/-- A byte (R9, R83): 8 bits, unsigned. -/
abbrev Byte := BitVec 8

/-- A logic level (R9, R83): one bit, `true` is 1 (high). -/
abbrev Level := Bool

end Sys2Proof
end

