-- ==== Sys2Proof/Config.lean ====
section
/-! DEFINITION. The model's parameters (R7, R47) and its free values. A parameter R7 marks OPEN is a constant with no body, so that
nothing proved of the model rests on a value of it; a parameter R7 gives a value has that value. -/

namespace Sys2Proof

/-- DATA_OVERFLOW (R7, R265, conflict C1): what an ordinary tag does with a data byte past DATA_CAP. -/
inductive DataOverflow where
  | abort
  | truncate
  deriving DecidableEq, Repr

/-- The parameter table of R7. The operations take it as an argument, so that a claim can be made for every value of it. The
capacities TXQ_CAP, RXQ_CAP and SPQ_CAP are used once, at reset, to make the rings: a ring's `N` is the length of its storage. -/
structure Params where
  /-- TIME_HZ, ticks per second of `now`. -/
  timeHz : Nat
  /-- TXQ_CAP. -/
  txqCap : Nat
  /-- RXQ_CAP. -/
  rxqCap : Nat
  /-- SPQ_CAP. -/
  spqCap : Nat
  /-- SPAN_WIN, the K of 43_uart_rx.md. -/
  spanWin : Nat
  /-- BITWIN_CAP, the W of 43_uart_rx.md. -/
  bitwinCap : Nat
  /-- CRC8_STEP (R120). -/
  crc8Step : Byte → Byte → Byte
  /-- DATA_CAP, longest DATA of an ordinary tag, in bytes. -/
  dataCap : Nat
  /-- DD_CAP, longest DD payload, in bytes. -/
  ddCap : Nat
  /-- DATA_OVERFLOW. -/
  dataOverflow : DataOverflow

/-- CRC8_STEP is OPEN (R7, R120): a total function of the register and one byte, and nothing else is known of it. -/
opaque Config.crc8Step : Byte → Byte → Byte

/-- TXQ_CAP less one: the capacity is OPEN and at least 1 (R7). -/
opaque Config.txqExtra : Nat

/-- RXQ_CAP less one: the capacity is OPEN and at least 1 (R7). -/
opaque Config.rxqExtra : Nat

/-- SPQ_CAP less one: the capacity is OPEN and at least 1 (R7). -/
opaque Config.spqExtra : Nat

/-- The level of the rx pin at reset: a draw of the environment, any level (R26). Free value, log 7. -/
opaque Config.rxPinAtReset : Level

/-- The level of the tx pin before TX_START first writes it: a model must not assume one (R25). Free value, log 7. -/
opaque Config.txPinAtReset : Level

/-- The parameters of this machine: R7's values where R7 takes one, the open constants above where it does not. -/
def Config.params : Params where
  timeHz := 1000000000
  txqCap := Config.txqExtra + 1
  rxqCap := Config.rxqExtra + 1
  spqCap := Config.spqExtra + 1
  spanWin := 4
  bitwinCap := 64
  crc8Step := Config.crc8Step
  dataCap := 31
  ddCap := 65535
  dataOverflow := .abort

end Sys2Proof
end

