-- ==== Sys2Proof/Syntax.lean ====
section
/-! DEFINITION. The agents (R10), the typed operands of a command (R83) and the operations: one constructor of `Instr` for each row
of spec/opcode_table.json (R84). -/

namespace Sys2Proof

/-- The five agents of R10. -/
inductive Agent where
  /-- Software outside the block. -/
  | host
  /-- The transmit task. -/
  | txa
  /-- Edge capture. -/
  | rxc
  /-- Deferred span processing. -/
  | rxp
  /-- The environment: time and the remote sender. -/
  | env
  deriving DecidableEq, Repr

/-- A typed operand of a command (R83): it is passed as a value, not as bits of the operation code. -/
inductive Operand where
  | byte (b : Byte)
  | bytes (bs : List Byte)
  | nat (n : Nat)
  | level (v : Level)
  | bool (v : Bool)
  /-- A natural that must be a member of STD_BAUDS; CFG_SET refuses any other (R301). -/
  | baud (n : Nat)
  /-- A TagParseState handle, a natural naming a decoder. -/
  | inst (t : Nat)
  deriving DecidableEq, Repr

/-- The operand types of R83. -/
inductive OperandType where
  | byte
  | bytes
  | nat
  | level
  | bool
  | baud
  | inst
  deriving DecidableEq, Repr

/-- The operation map of R84, one constructor per row, with the row's operands. -/
inductive Instr where
  /-- 0x00 RB_INIT txq (R142). -/
  | rbInitTxq
  /-- 0x01 RB_PUSH txq (R143). -/
  | rbPushTxq (b : Byte)
  /-- 0x02 RB_PUSH_BULK txq (R144). -/
  | rbPushBulkTxq (bs : List Byte)
  /-- 0x05 RB_AVAILABLE txq (R148). -/
  | rbAvailableTxq
  /-- 0x08 RB_INIT rxq (R142). -/
  | rbInitRxq
  /-- 0x0B RB_POP rxq (R145). -/
  | rbPopRxq
  /-- 0x0C RB_POP_BULK rxq (R146). -/
  | rbPopBulkRxq (max : Nat)
  /-- 0x0D RB_AVAILABLE rxq (R148). -/
  | rbAvailableRxq
  /-- 0x10 CRC8_STEP (R122). -/
  | crc8Step (c b : Byte)
  /-- 0x11 CRC8 (R123). -/
  | crc8 (bs : List Byte) (seed : Byte)
  /-- 0x20 BT_SYNC (R171). -/
  | btSync
  /-- 0x21 BT_ADVANCE (R172). -/
  | btAdvance (d : Nat)
  /-- 0x22 BT_WAIT (R173). -/
  | btWait
  /-- 0x30 TX_START (R178). -/
  | txStart
  /-- 0x31 TX_STEP (R180). -/
  | txStep
  /-- 0x32 TX_STOP (R179). -/
  | txStop
  /-- 0x40 RX_START (R230). -/
  | rxStart
  /-- 0x41 RX_EDGE (R201). -/
  | rxEdge
  /-- 0x42 RX_PROCESS (R204). -/
  | rxProcess
  /-- 0x43 RX_FLUSH (R231). -/
  | rxFlush
  /-- 0x44 RX_STOP (R232). -/
  | rxStop
  /-- 0x50 AKP_INIT (R260). -/
  | akpInit (t : Nat)
  /-- 0x51 AKP_FEED (R261). -/
  | akpFeed (t : Nat) (c : Byte)
  /-- 0x60 CFG_SET (R301). -/
  | cfgSet (baud : Nat) (parity stop2 invert : Bool)
  /-- 0x70 ENV_TICK (R303). -/
  | envTick (n : Nat)
  /-- 0x71 ENV_RXPIN (R304). -/
  | envRxpin (v : Level)
  deriving DecidableEq, Repr

end Sys2Proof
end

