-- ==== Sys2Proof/Decode.lean ====
section
/-! DEFINITION. The command decoder and encoder (R80 to R85). A command is one operation-code byte, split into unit and func (format U)
or unit, q and f (format RB), followed by a tuple of typed operands whose shape the code alone fixes. Every code with no row in R84,
every role the host has not, and every operand tuple of another shape is refused by name (R85). -/

namespace Sys2Proof

/-- Why a command has no instruction (R85). -/
inductive DecodeRefusal where
  /-- The operation code is in no row of R84 (units 0x8 to 0xF, RB f values 110 and 111, unlisted func values). Safe. -/
  | unlistedCode (code : Byte)
  /-- RB_POP txq, RB_POP_BULK txq, RB_PUSH rxq or RB_PUSH_BULK rxq: a second consumer or producer (R69, R85). Safe. -/
  | roleRefused (code : Byte)
  /-- The operands do not match the row's operand list (R83, R85). Safe. -/
  | badOperands (code : Byte)
  deriving DecidableEq, Repr

/-- STD_BAUDS (R6), the values a `baud` operand may have (R83). -/
def stdBauds : List Nat := [300, 600, 1200, 2400, 4800, 9600, 19200, 38400, 57600, 115200]

/-- The unit field, bits 7:4 (R80, R81). -/
def unitField (code : Byte) : Nat := code.toNat / 16

/-- The func field of format U, bits 3:0 (R80). -/
def funcField (code : Byte) : Nat := code.toNat % 16

/-- The q field of format RB, bit 3: false selects TXQ, true RXQ (R80, R82). -/
def qField (code : Byte) : Bool := decide (code.toNat / 8 % 2 = 1)

/-- The f field of format RB, bits 2:0 (R80). -/
def fField (code : Byte) : Nat := code.toNat % 8

/-- The operand tuples of unit 0 with q = 0, by f (R82, R84). -/
def txqOperandTypes : Nat → Option (List OperandType)
  | 0 => some []
  | 1 => some [.byte]
  | 2 => some [.bytes]
  | 5 => some []
  | _ => none

/-- The operand tuples of unit 0 with q = 1, by f (R82, R84). -/
def rxqOperandTypes : Nat → Option (List OperandType)
  | 0 => some []
  | 3 => some []
  | 4 => some [.nat]
  | 5 => some []
  | _ => none

/-- The operand tuples of unit 0x1, by func (R84). -/
def crcOperandTypes : Nat → Option (List OperandType)
  | 0 => some [.byte, .byte]
  | 1 => some [.bytes, .byte]
  | _ => none

/-- The operand tuples of unit 0x2, by func (R84). -/
def btOperandTypes : Nat → Option (List OperandType)
  | 0 => some []
  | 1 => some [.nat]
  | 2 => some []
  | _ => none

/-- The operand tuples of unit 0x3, by func (R84). -/
def txOperandTypes (func : Nat) : Option (List OperandType) := if func ≤ 2 then some [] else none

/-- The operand tuples of unit 0x4, by func (R84). -/
def rxOperandTypes (func : Nat) : Option (List OperandType) := if func ≤ 4 then some [] else none

/-- The operand tuples of unit 0x5, by func (R84). -/
def akpOperandTypes : Nat → Option (List OperandType)
  | 0 => some [.inst]
  | 1 => some [.inst, .byte]
  | _ => none

/-- The operand tuple of unit 0x6, by func (R84). -/
def cfgOperandTypes : Nat → Option (List OperandType)
  | 0 => some [.baud, .bool, .bool, .bool]
  | _ => none

/-- The operand tuples of unit 0x7, by func (R84). -/
def envOperandTypes : Nat → Option (List OperandType)
  | 0 => some [.nat]
  | 1 => some [.level]
  | _ => none

/-- The operand tuple a code takes (R80: the code alone fixes it); `none` for a code that R85 refuses. -/
def operandTypes (code : Byte) : Option (List OperandType) :=
  match unitField code with
  | 0 => if qField code then rxqOperandTypes (fField code) else txqOperandTypes (fField code)
  | 1 => crcOperandTypes (funcField code)
  | 2 => btOperandTypes (funcField code)
  | 3 => txOperandTypes (funcField code)
  | 4 => rxOperandTypes (funcField code)
  | 5 => akpOperandTypes (funcField code)
  | 6 => cfgOperandTypes (funcField code)
  | 7 => envOperandTypes (funcField code)
  | _ => none

/-- The type of an operand. -/
def operandType : Operand → OperandType
  | .byte _ => .byte
  | .bytes _ => .bytes
  | .nat _ => .nat
  | .level _ => .level
  | .bool _ => .bool
  | .baud _ => .baud
  | .inst _ => .inst

/-- The RB codes that would give the host a role it does not have (R85, second bullet). -/
def roleRefusedCodes : List Byte := [0x09#8, 0x0A#8, 0x03#8, 0x04#8]

/-- The name under which R85 refuses a command that is no row of R84. -/
def refusalOf (code : Byte) : DecodeRefusal :=
  if code ∈ roleRefusedCodes then .roleRefused code
  else if (operandTypes code).isSome then .badOperands code
  else .unlistedCode code

/-- The rows of unit 0 with q = 0 (R82, R84). -/
def decodeTxq (code : Byte) (func : Nat) (ops : List Operand) : Except DecodeRefusal Instr :=
  match func, ops with
  | 0, [] => .ok .rbInitTxq
  | 1, [.byte b] => .ok (.rbPushTxq b)
  | 2, [.bytes bs] => .ok (.rbPushBulkTxq bs)
  | 5, [] => .ok .rbAvailableTxq
  | _, _ => .error (refusalOf code)

/-- The rows of unit 0 with q = 1 (R82, R84). -/
def decodeRxq (code : Byte) (func : Nat) (ops : List Operand) : Except DecodeRefusal Instr :=
  match func, ops with
  | 0, [] => .ok .rbInitRxq
  | 3, [] => .ok .rbPopRxq
  | 4, [.nat m] => .ok (.rbPopBulkRxq m)
  | 5, [] => .ok .rbAvailableRxq
  | _, _ => .error (refusalOf code)

/-- The rows of unit 0x1, the crc8 primitive (R81, R84). -/
def decodeCrc (code : Byte) (func : Nat) (ops : List Operand) : Except DecodeRefusal Instr :=
  match func, ops with
  | 0, [.byte c, .byte b] => .ok (.crc8Step c b)
  | 1, [.bytes bs, .byte seed] => .ok (.crc8 bs seed)
  | _, _ => .error (refusalOf code)

/-- The rows of unit 0x2, the bit timer (R81, R84). -/
def decodeBt (code : Byte) (func : Nat) (ops : List Operand) : Except DecodeRefusal Instr :=
  match func, ops with
  | 0, [] => .ok .btSync
  | 1, [.nat d] => .ok (.btAdvance d)
  | 2, [] => .ok .btWait
  | _, _ => .error (refusalOf code)

/-- The rows of unit 0x3, the transmitter (R81, R84). -/
def decodeTx (code : Byte) (func : Nat) (ops : List Operand) : Except DecodeRefusal Instr :=
  match func, ops with
  | 0, [] => .ok .txStart
  | 1, [] => .ok .txStep
  | 2, [] => .ok .txStop
  | _, _ => .error (refusalOf code)

/-- The rows of unit 0x4, the receiver (R81, R84). -/
def decodeRx (code : Byte) (func : Nat) (ops : List Operand) : Except DecodeRefusal Instr :=
  match func, ops with
  | 0, [] => .ok .rxStart
  | 1, [] => .ok .rxEdge
  | 2, [] => .ok .rxProcess
  | 3, [] => .ok .rxFlush
  | 4, [] => .ok .rxStop
  | _, _ => .error (refusalOf code)

/-- The rows of unit 0x5, the AKP decoder (R81, R84). -/
def decodeAkp (code : Byte) (func : Nat) (ops : List Operand) : Except DecodeRefusal Instr :=
  match func, ops with
  | 0, [.inst t] => .ok (.akpInit t)
  | 1, [.inst t, .byte c] => .ok (.akpFeed t c)
  | _, _ => .error (refusalOf code)

/-- The row of unit 0x6, channel configuration (R81, R84). -/
def decodeCfg (code : Byte) (func : Nat) (ops : List Operand) : Except DecodeRefusal Instr :=
  match func, ops with
  | 0, [.baud n, .bool p, .bool s, .bool v] => .ok (.cfgSet n p s v)
  | _, _ => .error (refusalOf code)

/-- The rows of unit 0x7, the environment (R81, R84). -/
def decodeEnv (code : Byte) (func : Nat) (ops : List Operand) : Except DecodeRefusal Instr :=
  match func, ops with
  | 0, [.nat n] => .ok (.envTick n)
  | 1, [.level v] => .ok (.envRxpin v)
  | _, _ => .error (refusalOf code)

/-- The decoder: total on every code and every operand tuple (R80, R81, R84, R85). -/
def decode (code : Byte) (ops : List Operand) : Except DecodeRefusal Instr :=
  match unitField code with
  | 0 => if qField code then decodeRxq code (fField code) ops else decodeTxq code (fField code) ops
  | 1 => decodeCrc code (funcField code) ops
  | 2 => decodeBt code (funcField code) ops
  | 3 => decodeTx code (funcField code) ops
  | 4 => decodeRx code (funcField code) ops
  | 5 => decodeAkp code (funcField code) ops
  | 6 => decodeCfg code (funcField code) ops
  | 7 => decodeEnv code (funcField code) ops
  | _ => .error (refusalOf code)

/-- The encoder: the operation code and the operand tuple of an instruction (R84). -/
def encode : Instr → Byte × List Operand
  | .rbInitTxq => (0x00#8, [])
  | .rbPushTxq b => (0x01#8, [.byte b])
  | .rbPushBulkTxq bs => (0x02#8, [.bytes bs])
  | .rbAvailableTxq => (0x05#8, [])
  | .rbInitRxq => (0x08#8, [])
  | .rbPopRxq => (0x0B#8, [])
  | .rbPopBulkRxq m => (0x0C#8, [.nat m])
  | .rbAvailableRxq => (0x0D#8, [])
  | .crc8Step c b => (0x10#8, [.byte c, .byte b])
  | .crc8 bs seed => (0x11#8, [.bytes bs, .byte seed])
  | .btSync => (0x20#8, [])
  | .btAdvance d => (0x21#8, [.nat d])
  | .btWait => (0x22#8, [])
  | .txStart => (0x30#8, [])
  | .txStep => (0x31#8, [])
  | .txStop => (0x32#8, [])
  | .rxStart => (0x40#8, [])
  | .rxEdge => (0x41#8, [])
  | .rxProcess => (0x42#8, [])
  | .rxFlush => (0x43#8, [])
  | .rxStop => (0x44#8, [])
  | .akpInit t => (0x50#8, [.inst t])
  | .akpFeed t c => (0x51#8, [.inst t, .byte c])
  | .cfgSet n p s v => (0x60#8, [.baud n, .bool p, .bool s, .bool v])
  | .envTick n => (0x70#8, [.nat n])
  | .envRxpin v => (0x71#8, [.level v])

/-- The agent column of R84; where a row admits more than one agent (CRC8: any; BT: TXA or HOST while TX.run = 0) the one that can
issue it from reset. -/
def rowAgent : Instr → Agent
  | .txStep => .txa
  | .rxEdge => .rxc
  | .rxProcess => .rxp
  | .envTick _ => .env
  | .envRxpin _ => .env
  | .rbInitTxq => .host
  | .rbPushTxq _ => .host
  | .rbPushBulkTxq _ => .host
  | .rbAvailableTxq => .host
  | .rbInitRxq => .host
  | .rbPopRxq => .host
  | .rbPopBulkRxq _ => .host
  | .rbAvailableRxq => .host
  | .crc8Step _ _ => .host
  | .crc8 _ _ => .host
  | .btSync => .host
  | .btAdvance _ => .host
  | .btWait => .host
  | .txStart => .host
  | .txStop => .host
  | .rxStart => .host
  | .rxFlush => .host
  | .rxStop => .host
  | .akpInit _ => .host
  | .akpFeed _ _ => .host
  | .cfgSet _ _ _ _ => .host

/-- The operand of a type whose bits are all zero (log 15). -/
def zeroOperand : OperandType → Operand
  | .byte => .byte 0#8
  | .bytes => .bytes []
  | .nat => .nat 0
  | .level => .level false
  | .bool => .bool false
  | .baud => .baud 0
  | .inst => .inst 0

/-- The operand tuple of zeros that a code takes. -/
def zeroOperands (code : Byte) : List Operand := ((operandTypes code).getD []).map zeroOperand

/-- What the decoder reads from a table word: the operation code is the word's one byte, and the operands, which the table gives no
bits, are zeros (log 15). A word with a bit above the code byte is no command. -/
def decodeTableWord (nbits w : Nat) : Option Instr :=
  if nbits = 8 ∧ w < 256 then
    match decode (BitVec.ofNat 8 w) (zeroOperands (BitVec.ofNat 8 w)) with
    | .ok i => some i
    | .error _ => none
  else none

end Sys2Proof
end

