-- ==== Sys2Proof/Machine/State.lean ====
section
/-! DEFINITION. The state of the block, field by field as 10_state.md gives it (R20 to R49), with the model's own sequencing fields
(the turns, the commands issued and not yet taken, the agents inside an await, the step's issuer and its pin draw) and the observation's lists
(the trace and the results). The block has no address space (R64), so there is no memory of bytes at addresses. -/

namespace Sys2Proof.Machine

/-- CFG, the channel configuration register (R22). -/
structure Cfg where
  valid : Bool
  baud : Nat
  parity : Bool
  stop2 : Bool
  invert : Bool
  deriving DecidableEq, Repr

/-- The two pins, as pin levels (R25, R26). -/
structure Pins where
  tx : Level
  rx : Level
  deriving DecidableEq, Repr

/-- A span: the line held logical level `lvl` for `dur` ticks (R90). -/
structure Span where
  dur : Nat
  lvl : Level
  deriving DecidableEq, Repr

/-- A ring buffer (R28). Its capacity N is the length of its storage. -/
structure RingBuf (α : Type) where
  buf : List α
  start : Nat
  tail : Nat
  full : Bool
  deriving DecidableEq, Repr

/-- `TX.phase` (R33). -/
inductive TxPhase where
  | stopped
  | idle
  | busy
  | done
  deriving DecidableEq, Repr

/-- The transmitter and its bit timer (R30 to R33). -/
structure Tx where
  run : Bool
  /-- `TX.D`, the absolute deadline of the next level change. -/
  d : Nat
  frame : List Level
  phase : TxPhase
  idx : Nat
  deriving DecidableEq, Repr

/-- An entry of the span window: normalised duration as first recorded, and logical level (R38). -/
structure SpanEntry where
  orig : Nat
  lvl : Level
  deriving DecidableEq, Repr

/-- An entry of the BitWindow (R39, R91): score -1 consumed, 0 unscored, positive chained count. -/
structure BitEntry where
  lvl : Level
  score : Int
  deriving DecidableEq, Repr

/-- The receiver (R34 to R39). -/
structure Rx where
  run : Bool
  /-- `RX.E`, the time of the last recorded transition. -/
  e : Nat
  lv : Level
  pmod : Nat
  sw : List SpanEntry
  bw : List BitEntry
  deriving DecidableEq, Repr

/-- `T.mode`, the parse position of a decoder (R43). -/
inductive ParseMode where
  | between
  | data
  | cs1
  | cs2
  | ddlen
  | ddpay
  deriving DecidableEq, Repr

/-- A TagParseState instance (R43). -/
structure TagParse where
  lb1 : Byte
  lb0 : Byte
  mode : ParseMode
  tag : Byte × Byte
  data : List Byte
  hi : BitVec 4
  colon : Bool
  k : Nat
  len1 : BitVec 16
  len2 : BitVec 16
  cnt : Nat
  deriving DecidableEq, Repr

/-- DecodedTag, the result of an AKP_FEED that completes a record (R46, R96). -/
structure DecodedTag where
  tag : Byte × Byte
  data : List Byte
  len : Nat
  deriving DecidableEq, Repr

/-- The eight named conditions of R320. Only the first three leave a trace entry. -/
inductive Condition where
  | pinReadFail
  | pinWriteFail
  | ringOverflow
  | crcMismatch
  | badSyntax
  | ddLenMismatch
  | frameInvalid
  | dataTruncated
  deriving DecidableEq, Repr

/-- An entry of the non-architectural trace (R12, R320): from LogError or from Note. -/
inductive TraceEntry where
  | logError (c : Condition)
  | note (c : Condition)
  deriving DecidableEq, Repr

/-- What a step emits to the agent that issued it (R12, R84, result column). -/
inductive Result where
  | count (n : Nat)
  | byte (b : Byte)
  | byteOpt (o : Option Byte)
  | bytes (bs : List Byte)
  | tag (o : Option DecodedTag)
  deriving DecidableEq, Repr

/-- A command issued to the block (R80, R97): the agent, the operation code, the typed operands, and the environment's draw for the
pin access the step may make (R305, R306: a free input of the step; true is success). -/
structure Issue where
  agent : Agent
  code : Byte
  operands : List Operand
  draw : Bool
  deriving DecidableEq, Repr

/-- An agent inside an await (R12, R328): the instruction it waits in and the draw that came with it. -/
structure Waiter where
  agent : Agent
  instr : Instr
  draw : Bool
  deriving DecidableEq, Repr

/-- The machine's state. -/
structure State where
  cfg : Cfg
  now : Nat
  pin : Pins
  pinErr : Nat
  txq : RingBuf Byte
  rxq : RingBuf Byte
  spq : RingBuf Span
  tx : Tx
  rx : Rx
  /-- The TagParseState instances by handle, handles strictly rising (R42). -/
  akp : List (Nat × TagParse)
  trace : List TraceEntry
  /-- What was emitted, with the agent it was returned to, oldest first (R355). -/
  results : List (Agent × Result)
  /-- The agents whose turns come, next first: the interleaving (R10, R327). The model's own field, log 2. -/
  turns : List Agent
  /-- The commands issued and not yet taken, each agent's in the order it issued them. The model's own field, log 1. -/
  pending : List Issue
  /-- The agents inside an await, longest first. The model's own field, log 3. -/
  waiting : List Waiter
  /-- The agent whose step is being taken. The model's own field, log 5. -/
  issuer : Agent
  /-- The draw of this step's pin access. The model's own field, log 6. -/
  draw : Bool
  deriving DecidableEq, Repr

/-- Why a step has no move. The block itself has no faults (R320, R323). -/
inductive Fault where
  /-- RB_INIT on TXQ while TX.phase is not STOPPED, or on RXQ while RX.run = 1: the spec gives this action no move (R363, I8).
  Raised by execRbInitTxq and execRbInitRxq. Safe: the model stops. -/
  | liveRingInit
  deriving DecidableEq, Repr

/-- Why a command is refused (R85, R322). -/
inductive Refusal where
  /-- `exec`'s arm for an instruction that has no meaning yet; no arm raises it now. Safe. -/
  | notModelled (mnemonic : String)
  /-- The command is no row of R84. Raised by `step`. Safe. -/
  | noCommand (r : DecodeRefusal)
  /-- The row does not admit the issuing agent (R84, R85). Raised by every meaning but CRC8_STEP and CRC8. Safe. -/
  | wrongAgent (a : Agent)
  /-- CFG_SET of a rate outside STD_BAUDS (R301). Safe. -/
  | nonStandardBaud (n : Nat)
  /-- CFG_SET while TX.run = 1, TX.phase is not STOPPED, or RX.run = 1 (R301). Safe. -/
  | channelRunning
  /-- TX_START or RX_START while CFG.valid = 0 (R178, R230). Safe. -/
  | notConfigured
  /-- TX_START while TX.run = 1, or RX_START while RX.run = 1 (R178, R230). Safe. -/
  | alreadyRunning
  /-- TX_START while TX.phase is not STOPPED (R178). Safe. -/
  | frameInFlight
  /-- RX_FLUSH while RX.run = 0 (R231). Safe. -/
  | receiverStopped
  /-- ENV_TICK 0 (R303). Safe. -/
  | zeroTick
  /-- AKP_FEED of a handle that AKP_INIT has not created (R261). Safe. -/
  | noSuchInstance (t : Nat)
  deriving DecidableEq, Repr

/-- An empty ring of capacity `n` (R28): its storage is unspecified, and holds `v` here (log 9). -/
def RingBuf.ofCapacity {α : Type} (n : Nat) (v : α) : RingBuf α :=
  { buf := List.replicate n v, start := 0, tail := 0, full := false }

/-- Block reset (R49, R350). -/
def State.reset : State where
  cfg := { valid := false, baud := 0, parity := false, stop2 := false, invert := false }
  now := 0
  pin := { tx := Config.txPinAtReset, rx := Config.rxPinAtReset }
  pinErr := 0
  txq := RingBuf.ofCapacity Config.params.txqCap 0#8
  rxq := RingBuf.ofCapacity Config.params.rxqCap 0#8
  spq := RingBuf.ofCapacity Config.params.spqCap { dur := 0, lvl := false }
  tx := { run := false, d := 0, frame := [], phase := .stopped, idx := 0 }
  rx := { run := false, e := 0, lv := true, pmod := 1, sw := [], bw := [] }
  akp := []
  trace := []
  results := []
  turns := []
  pending := []
  waiting := []
  issuer := .host
  draw := true

end Sys2Proof.Machine
end

