-- ==== Sys2Proof/Machine/Operands.lean ====
section
/-! DEFINITION. The values the operations compute on: the nominal bit period (R7), the framing constants (R16), bits, parity and levels
(R13, R176), and the AKP byte classes (R92). -/

namespace Sys2Proof.Machine

/-- P_NOM, the nominal bit period in ticks, rounded to the nearest tick (R7). -/
def pNom (p : Params) (c : Cfg) : Nat := (p.timeHz + c.baud / 2) / c.baud

/-- `p` of R16: 1 if PARITY is on. -/
def parityBits (c : Cfg) : Nat := if c.parity then 1 else 0

/-- `s` of R16: the number of stop bits. -/
def stopBits (c : Cfg) : Nat := if c.stop2 then 2 else 1

/-- `B` of R16, the base frame's length in bits. -/
def frameBits (c : Cfg) : Nat := 9 + parityBits c + stopBits c

/-- `L` of R16, the scored frame's length in bits. -/
def scoredBits (c : Cfg) : Nat := frameBits c + stopBits c

/-- The exclusive or of a list of levels (R176, R215). -/
def xorAll : List Level → Level
  | [] => false
  | v :: r => v ^^ xorAll r

/-- The data bits of a byte, least significant first (R60). -/
def dataBits (b : Byte) : List Level := (List.range 8).map (fun i => b.getLsbD i)

/-- Even parity: the exclusive or of the eight data bits (R176). -/
def parityOf (b : Byte) : Level := xorAll (dataBits b)

/-- The pin level of a logical level, and the logical level of a pin level (R13, R87). -/
def invertLevel (c : Cfg) (v : Level) : Level := v ^^ c.invert

/-- FrameLevels (R175, R86): start bit, data bits, parity if on, stop bits. -/
def frameLevels (c : Cfg) (b : Byte) : List Level :=
  [false] ++ dataBits b ++ (if c.parity then [parityOf b] else []) ++ (if c.stop2 then [true, true] else [true])

/-- UPPER (R92): 'A' to 'Z'. -/
def isUpper (b : Byte) : Bool := decide (0x41 ≤ b.toNat) && decide (b.toNat ≤ 0x5A)

/-- LHEX with its value (R92): '0' to '9' and 'a' to 'f'; uppercase hex digits are not LHEX. -/
def hexVal? (b : Byte) : Option (BitVec 4) :=
  if 0x30 ≤ b.toNat ∧ b.toNat ≤ 0x39 then some (BitVec.ofNat 4 (b.toNat - 0x30))
  else if 0x61 ≤ b.toNat ∧ b.toNat ≤ 0x66 then some (BitVec.ofNat 4 (b.toNat - 0x57))
  else none

/-- The tag "DD" (R95): 0x44 0x44. -/
def ddTag : Byte × Byte := (0x44#8, 0x44#8)

/-- CARET (R92). -/
def caret : Byte := 0x5E#8

/-- COLON (R92). -/
def colon : Byte := 0x3A#8

end Sys2Proof.Machine
end

