-- ==== Sys2Proof/Machine/Flags.lean ====
section
/-! DEFINITION. The conditions the block computes from its state: the rings' empty and available counts (R141), the pending pin
transition (R324), the bit timer's deadline (R173), the liveness of a ring's other agent (R363), the bit-timer rights (R84), and the
enabling condition of every command (R12, R328). -/

namespace Sys2Proof.Machine

/-- N, the capacity of a ring (R28). -/
def ringCap {α : Type} (q : RingBuf α) : Nat := q.buf.length

/-- `empty(Q)` (R141). -/
def ringEmpty {α : Type} (q : RingBuf α) : Bool := decide (q.start = q.tail) && !q.full

/-- `avail(Q)` (R141): N on a full ring, else `(tail - start) mod N`, written for `start` in its range 0..N-1 (R28). -/
def ringAvail {α : Type} (q : RingBuf α) : Nat :=
  if q.full then ringCap q else (q.tail + ringCap q - q.start) % ringCap q

/-- The deadline has come: `now >= TX.D` (R173). -/
def deadlineMet (s : State) : Bool := decide (s.tx.d ≤ s.now)

/-- A transition of the rx line is pending while the receiver runs (R201, R324). -/
def transitionPending (s : State) : Bool := s.rx.run && ((invertLevel s.cfg s.pin.rx) != s.rx.lv)

/-- CFG may not be written: a channel runs, or a frame of the last run is being finished (R22, R301). -/
def channelBusy (s : State) : Bool := s.tx.run || decide (s.tx.phase ≠ .stopped) || s.rx.run

/-- The agent column of the bit timer's rows: TXA, or HOST while TX.run = 0 (R84). -/
def bitTimerAllowed (s : State) : Bool := decide (s.issuer = .txa) || (decide (s.issuer = .host) && !s.tx.run)

/-- TX_STEP's enabling condition, by phase (R180 to R183). -/
def txStepReady (s : State) : Bool :=
  match s.tx.phase with
  | .stopped => false
  | .idle => true
  | .busy => deadlineMet s
  | .done => deadlineMet s

/-- The enabling condition of each command: the `await` of its rule, or true where the rule has none (R12). -/
def ready : Instr → State → Bool
  | .btWait, s => deadlineMet s
  | .txStep, s => txStepReady s
  | .rxEdge, s => transitionPending s
  | .rxProcess, s => s.rx.run && !ringEmpty s.spq
  | .rxFlush, s => ringEmpty s.spq
  | .rbInitTxq, _ => true
  | .rbPushTxq _, _ => true
  | .rbPushBulkTxq _, _ => true
  | .rbAvailableTxq, _ => true
  | .rbInitRxq, _ => true
  | .rbPopRxq, _ => true
  | .rbPopBulkRxq _, _ => true
  | .rbAvailableRxq, _ => true
  | .crc8Step _ _, _ => true
  | .crc8 _ _, _ => true
  | .btSync, _ => true
  | .btAdvance _, _ => true
  | .txStart, _ => true
  | .txStop, _ => true
  | .rxStart, _ => true
  | .rxStop, _ => true
  | .akpInit _, _ => true
  | .akpFeed _ _, _ => true
  | .cfgSet _ _ _ _, _ => true
  | .envTick _, _ => true
  | .envRxpin _, _ => true

end Sys2Proof.Machine
end

