-- ==== Sys2Proof/Machine/Ops.lean ====
section
/-! DEFINITION. The named operations every meaning is written over: logging and emitting (R12), the pin accesses (R305, R306), the
ring operations (R142 to R146), the decoder table, waiting, the agents' rights, and the choice of the command a step takes.

The block has no exceptions, no trap entry and no return (R320, R329, R330): what the spec describes in their place is LogError, which
counts in pinErr and leaves a trace entry, and Note, which leaves a trace entry only (R12, R321). They are `logError` and `note`. -/

namespace Sys2Proof.Machine

/-- The outcome type of a step. -/
abbrev Out := Host.Outcome State Fault Refusal

/-- The next state of an outcome, if it has one. -/
def nextOf : Out → Option State
  | .next s => some s
  | .fault _ => none
  | .refused _ => none

/-- LogError(code) (R12, R321). -/
def logError (c : Condition) (s : State) : State :=
  { s with pinErr := s.pinErr + 1, trace := s.trace ++ [.logError c] }

/-- Note(code) (R12). -/
def note (c : Condition) (s : State) : State := { s with trace := s.trace ++ [.note c] }

/-- `emit v` (R12): the result goes to the agent that issued the command. -/
def emit (r : Result) (s : State) : State := { s with results := s.results ++ [(s.issuer, r)] }

/-- The issuing agent's `await` does not hold: the agent waits in this command, and nothing else changes (R12, R328). -/
def await (i : Instr) (s : State) : State :=
  { s with waiting := s.waiting ++ [{ agent := s.issuer, instr := i, draw := s.draw }] }

/-- A row that R84 gives to one agent: another agent is refused (R85). -/
def byAgent (a : Agent) (s : State) (k : Out) : Out := if s.issuer = a then k else .refused (.wrongAgent s.issuer)

/-- The bit timer's rows: TXA, or HOST while TX.run = 0; else refused (R84, R85, R171). -/
def byTimerAgent (s : State) (k : Out) : Out := if bitTimerAllowed s then k else .refused (.wrongAgent s.issuer)

/-- PinWrite(v) (R12, R306), with the caller's LogError on failure (R185). -/
def pinWrite (v : Level) (s : State) : State :=
  if s.draw then { s with pin := { s.pin with tx := v } } else logError .pinWriteFail s

/-- PinRead() (R12, R305): the pin's level, or none when the draw is a failure. -/
def pinRead (s : State) : Option Level := if s.draw then some s.pin.rx else none

/-- RB_INIT on a ring (R142): the indices and the flag; the storage keeps no readable value and is left as it is. -/
def ringInit {α : Type} (q : RingBuf α) : RingBuf α := { q with start := 0, tail := 0, full := false }

/-- The index after `i` in a ring (R143, R145). -/
def ringNext {α : Type} (q : RingBuf α) (i : Nat) : Nat := (i + 1) % ringCap q

/-- RB_PUSH on a ring (R143). The flag says whether the oldest element was overwritten. -/
def ringPush {α : Type} (q : RingBuf α) (v : α) : RingBuf α × Bool :=
  if q.full then
    ({ buf := q.buf.set q.tail v, start := ringNext q q.tail, tail := ringNext q q.tail, full := true }, true)
  else
    ({ buf := q.buf.set q.tail v, start := q.start, tail := ringNext q q.tail,
       full := decide (ringNext q q.tail = q.start) }, false)

/-- RB_POP on a ring (R145). -/
def ringPop {α : Type} (q : RingBuf α) : Option α × RingBuf α :=
  if ringEmpty q then (none, q)
  else (q.buf[q.start]?, { q with start := ringNext q q.start, full := false })

/-- `n` RB_POPs in turn, with the values they returned (R146). -/
def ringPopMany {α : Type} : Nat → RingBuf α → List α × RingBuf α
  | 0, q => ([], q)
  | n + 1, q => ((ringPop q).1.toList ++ (ringPopMany n (ringPop q).2).1, (ringPopMany n (ringPop q).2).2)

/-- The abstract content of a ring, oldest first: `C[i] = RingRead(Q, (start + i) mod N)` for `i < avail(Q)` (R152). -/
def ringContents {α : Type} (q : RingBuf α) : List α :=
  (List.range (ringAvail q)).filterMap (fun i => q.buf[(q.start + i) % ringCap q]?)

/-- The trace after a push: Note(RING_OVERFLOW) when the oldest element was overwritten (R143). -/
def overflowTrace (t : List TraceEntry) (overflow : Bool) : List TraceEntry :=
  if overflow then t ++ [.note .ringOverflow] else t

/-- RB_PUSH on TXQ. -/
def pushTxq (b : Byte) (s : State) : State :=
  { s with txq := (ringPush s.txq b).1, trace := overflowTrace s.trace (ringPush s.txq b).2 }

/-- RB_PUSH on SPQ (R201, R203). -/
def pushSpq (v : Span) (s : State) : State :=
  { s with spq := (ringPush s.spq v).1, trace := overflowTrace s.trace (ringPush s.spq v).2 }

/-- The instance a handle names, if AKP_INIT has created it (R42, R261). -/
def akpGet? : List (Nat × TagParse) → Nat → Option TagParse
  | [], _ => none
  | (k, x) :: r, t => if k = t then some x else akpGet? r t

/-- Create or replace the instance of a handle, keeping the handles strictly rising. -/
def akpPut : List (Nat × TagParse) → Nat → TagParse → List (Nat × TagParse)
  | [], t, v => [(t, v)]
  | (k, x) :: r, t, v =>
    if t < k then (t, v) :: (k, x) :: r
    else if t = k then (t, v) :: r
    else (k, x) :: akpPut r t v

/-- The first element that meets `p`, and the others in their order. -/
def takeFirst {α : Type} (p : α → Bool) : List α → Option (α × List α)
  | [] => none
  | x :: r => if p x then some (x, r) else (takeFirst p r).map (fun y => (y.1, x :: y.2))

/-- What the next step takes. -/
inductive Selection where
  /-- No turn is left, or its agent has no step: the state without the turn. -/
  | idle (s : State)
  /-- An agent leaves its await: the waiter, and the state without it. -/
  | resume (w : Waiter) (s : State)
  /-- A command is taken: the command, and the state without it. -/
  | fetch (c : Issue) (s : State)
  deriving DecidableEq, Repr

/-- What the agent whose turn is next has (R10, R12; log 2, log 4): inside an await, the instruction it waits in if its await has come
to hold, and else no step; outside, the first command it has issued. The issuer and the draw of the step are those of the command. -/
def select (s : State) : Selection :=
  match s.turns with
  | [] => .idle s
  | a :: ts =>
    match takeFirst (fun w => decide (w.agent = a)) s.waiting with
    | some (w, ws) =>
      if ready w.instr s then .resume w { s with turns := ts, waiting := ws, issuer := w.agent, draw := w.draw }
      else .idle { s with turns := ts }
    | none =>
      match takeFirst (fun c => decide (c.agent = a)) s.pending with
      | some (c, cs) => .fetch c { s with turns := ts, pending := cs, issuer := c.agent, draw := c.draw }
      | none => .idle { s with turns := ts }

/-- A command issued by an agent with a draw (R80). -/
def issueOf (a : Agent) (i : Instr) (draw : Bool) : Issue :=
  { agent := a, code := (encode i).1, operands := (encode i).2, draw := draw }

/-- The issue that carries a table word: zero operands, the agent R84 names for the row, the state's own draw (log 15). -/
def tableIssue (nbits w : Nat) (draw : Bool) : Issue :=
  { agent := ((decodeTableWord nbits w).map rowAgent).getD .host
    code := BitVec.ofNat 8 w
    operands := zeroOperands (BitVec.ofNat 8 w)
    draw := draw }

/-- `s` with a command issued before every other, the next turn its agent's, and that agent inside no await. -/
def issueNext (c : Issue) (s : State) : State :=
  { s with
    turns := c.agent :: s.turns
    pending := c :: s.pending
    waiting := s.waiting.filter (fun w => decide (w.agent ≠ c.agent)) }

/-- `s` with these commands issued after all others, and these turns after all others. -/
def place (cs : List Issue) (ts : List Agent) (s : State) : State :=
  { s with turns := s.turns ++ ts, pending := s.pending ++ cs }

end Sys2Proof.Machine
end

