-- ==== Sys2Proof/Machine/Crc.lean ====
section
/-! DEFINITION. The crc8 primitive (40_crc8.md, R120 to R127): unit 0x1. It has no state. -/

namespace Sys2Proof.Machine

/-- crc8 over a byte list from a seed, for an instance of CRC8_STEP (R121). -/
def crc8With (step : Byte → Byte → Byte) : List Byte → Byte → Byte
  | [], s => s
  | b :: r, s => crc8With step r (step s b)

/-- One of the eight shifts of the reference instance (R124). -/
def crcRefShift (r : Byte) : Byte := if r.getLsbD 7 then (r <<< 1) ^^^ 0x07#8 else r <<< 1

/-- The reference instance of CRC8_STEP that the test vectors use (R124). The machine does not use it. -/
def crc8StepRef (c b : Byte) : Byte :=
  crcRefShift (crcRefShift (crcRefShift (crcRefShift (crcRefShift (crcRefShift (crcRefShift (crcRefShift (c ^^^ b))))))))

/-- The checksum of an AKP record: over the tag from seed 0, then over the data (R125). -/
def recordCrc (step : Byte → Byte → Byte) (tag : Byte × Byte) (data : List Byte) : Byte :=
  crc8With step data (crc8With step [tag.1, tag.2] 0#8)

/-- CRC8_STEP, code 0x10 (R122). Any agent may issue it (R84). -/
def execCrc8Step (c b : Byte) (s : State) : Out := .next (emit (.byte (Config.params.crc8Step c b)) s)

/-- CRC8, code 0x11 (R123). Any agent may issue it (R84). -/
def execCrc8 (bs : List Byte) (seed : Byte) (s : State) : Out :=
  .next (emit (.byte (crc8With Config.params.crc8Step bs seed)) s)

end Sys2Proof.Machine
end

