-- ==== Sys2Proof/Machine/Akp.lean ====
section
/-! DEFINITION. The AKP tag decoder with the DD binary sub-frame (44_akp_decoder.md, R260 to R280): unit 0x5. -/

namespace Sys2Proof.Machine

/-- A TagParseState as AKP_INIT makes it (R43, R260). The tag letters are unspecified there and are zero here (log 10). -/
def akpFresh : TagParse where
  lb1 := 0#8
  lb0 := 0#8
  mode := .between
  tag := (0#8, 0#8)
  data := []
  hi := 0#4
  colon := false
  k := 0
  len1 := 0#16
  len2 := 0#16
  cnt := 0

/-- Clear(T) (R44): every field but the lookback. -/
def akpClear (t : TagParse) : TagParse := { akpFresh with lb1 := t.lb1, lb0 := t.lb0 }

/-- The byte starts a tag (R262, R263): '^' after two UPPER bytes, in every mode but DDPAY. -/
def tagStarts (t : TagParse) (c : Byte) : Bool :=
  decide (t.mode ≠ .ddpay) && decide (c = caret) && isUpper t.lb1 && isUpper t.lb0

/-- The new tag's state (R261, R263): DD begins the sub-frame in place of an ordinary record. -/
def beginTag (t : TagParse) : TagParse :=
  { akpClear t with
    tag := (t.lb1, t.lb0)
    mode := if (t.lb1, t.lb0) = ddTag then .ddlen else .data }

/-- DataOverflow (R265). -/
def dataOverflow (p : Params) (t : TagParse) : TagParse :=
  match p.dataOverflow with
  | .abort => akpClear t
  | .truncate => t

/-- DATA (R264 to R266). -/
def feedData (p : Params) (t : TagParse) (c : Byte) : TagParse :=
  if c = colon then { t with colon := true, mode := .cs1 }
  else if t.data.length < p.dataCap then { t with data := t.data ++ [c] }
  else dataOverflow p t

/-- CS1 (R266). -/
def feedCs1 (t : TagParse) (c : Byte) : TagParse :=
  match hexVal? c with
  | some v => { t with hi := v, mode := .cs2 }
  | none => akpClear t

/-- CS2 (R267): the record completes when the two digits are its checksum. -/
def feedCs2 (p : Params) (t : TagParse) (c : Byte) : TagParse × Option DecodedTag :=
  match hexVal? c with
  | some v =>
    if 16 * t.hi.toNat + v.toNat = (recordCrc p.crc8Step t.tag t.data).toNat then
      (akpClear t, some { tag := t.tag, data := t.data, len := t.data.length })
    else (akpClear t, none)
  | none => (akpClear t, none)

/-- DdCheck (R269, R270). -/
def ddCheck (p : Params) (t : TagParse) : TagParse × Option DecodedTag :=
  if t.len1 ≠ t.len2 ∨ p.ddCap < t.len1.toNat then (akpClear t, none)
  else if t.len1.toNat = 0 then (akpClear t, some { tag := ddTag, data := [], len := 0 })
  else ({ t with mode := .ddpay, cnt := 0 }, none)

/-- One more length digit (R268). -/
def takeDigit (t : TagParse) (v : BitVec 4) : TagParse :=
  if t.k < 4 then { t with len1 := t.len1 * 16#16 + v.setWidth 16, k := t.k + 1 }
  else { t with len2 := t.len2 * 16#16 + v.setWidth 16, k := t.k + 1 }

/-- DdDigit (R268). -/
def ddDigit (p : Params) (t : TagParse) (c : Byte) : TagParse × Option DecodedTag :=
  match hexVal? c with
  | none => (akpClear t, none)
  | some v => if t.k + 1 = 8 then ddCheck p (takeDigit t v) else (takeDigit t v, none)

/-- DDPAY (R271): every byte, verbatim. -/
def feedPayload (t : TagParse) (c : Byte) : TagParse × Option DecodedTag :=
  let u := { t with data := t.data ++ [c], cnt := t.cnt + 1 }
  if t.cnt + 1 = t.len1.toNat then (akpClear t, some { tag := ddTag, data := u.data, len := u.cnt })
  else (u, none)

/-- The mode's own handling of a byte that starts no tag (R261). -/
def feedByMode (p : Params) (t : TagParse) (c : Byte) : TagParse × Option DecodedTag :=
  match t.mode with
  | .between => (t, none)
  | .data => (feedData p t c, none)
  | .cs1 => (feedCs1 t c, none)
  | .cs2 => feedCs2 p t c
  | .ddlen => ddDigit p t c
  | .ddpay => feedPayload t c

/-- What AKP_FEED does before the lookback moves (R261). -/
def feedCore (p : Params) (t : TagParse) (c : Byte) : TagParse × Option DecodedTag :=
  if tagStarts t c then (beginTag t, none) else feedByMode p t c

/-- AKP_FEED on an instance (R261): a total function of the instance and the byte (R278). The lookback moves on every byte (R272). -/
def akpFeed (p : Params) (t : TagParse) (c : Byte) : TagParse × Option DecodedTag :=
  ({ (feedCore p t c).1 with lb1 := t.lb0, lb0 := c }, (feedCore p t c).2)

/-- A byte sequence fed in order: the instance after it and the output of each byte (R278). -/
def akpFeedAll (p : Params) : TagParse → List Byte → TagParse × List (Option DecodedTag)
  | t, [] => (t, [])
  | t, c :: r => ((akpFeedAll p (akpFeed p t c).1 r).1, (akpFeed p t c).2 :: (akpFeedAll p (akpFeed p t c).1 r).2)

/-- AKP_INIT, code 0x50 (R260). -/
def execAkpInit (t : Nat) (s : State) : Out := byAgent .host s (.next { s with akp := akpPut s.akp t akpFresh })

/-- AKP_FEED, code 0x51 (R261). -/
def execAkpFeed (t : Nat) (c : Byte) (s : State) : Out :=
  byAgent .host s
    (match akpGet? s.akp t with
     | none => .refused (.noSuchInstance t)
     | some T =>
       .next (emit (.tag (akpFeed Config.params T c).2) { s with akp := akpPut s.akp t (akpFeed Config.params T c).1 }))

end Sys2Proof.Machine
end

