-- ==== Sys2Proof/Machine/Channel.lean ====
section
/-! DEFINITION. Channel configuration (R300 to R302, unit 0x6) and the environment's two steps (R303, R304, unit 0x7). -/

namespace Sys2Proof.Machine

/-- CFG_SET, code 0x60 (R301). -/
def execCfgSet (baud : Nat) (parity stop2 invert : Bool) (s : State) : Out :=
  byAgent .host s
    (if baud ∉ stdBauds then .refused (.nonStandardBaud baud)
     else if channelBusy s then .refused .channelRunning
     else .next { s with cfg := { valid := true, baud := baud, parity := parity, stop2 := stop2, invert := invert } })

/-- ENV_TICK, code 0x70 (R303). -/
def execEnvTick (n : Nat) (s : State) : Out :=
  byAgent .env s (if n = 0 then .refused .zeroTick else .next { s with now := s.now + n })

/-- ENV_RXPIN, code 0x71 (R304). -/
def execEnvRxpin (v : Level) (s : State) : Out := byAgent .env s (.next { s with pin := { s.pin with rx := v } })

end Sys2Proof.Machine
end

