-- ==== Sys2Proof/Machine/Receiver.lean ====
section
/-! DEFINITION. The software UART receiver (43_uart_rx.md, R200 to R234): unit 0x4. Edge capture, baud tracking, span relaxation,
conversion to bits, frame scoring and byte extraction, in the spec's order. -/

namespace Sys2Proof.Machine

/-- BLEND (R205): a span of about one bit, 75% to 125% of the running period inclusive, is blended in with weight 1/64. -/
def blend (pmod d : Nat) : Nat :=
  if 3 * pmod ≤ 4 * d ∧ 4 * d ≤ 5 * pmod then (63 * pmod + d) / 64 else pmod

/-- NORMALIZE (R206), with the period after BLEND. -/
def normalize (P d pmod : Nat) : Nat := d * P / pmod

/-- Shortfall (R210): what a duration lacks of a whole multiple of the bit period. -/
def shortfall (P x : Nat) : Nat := if x < P then P - x else (P - x % P) % P

/-- CORRECT (R210): one span in one pass takes what it lacks from the next-older span, as far as that has it. -/
def correct (P level i : Nat) (w : List Nat) : List Nat :=
  let x := w.getD i 0
  let donor := w.getD (i - 1) 0
  let sh := shortfall P x
  if 0 < sh ∧ (x < P ∨ 100 * sh ≤ (100 - level) * P) then
    (w.set (i - 1) (donor - min sh donor)).set i (x + min sh donor)
  else w

/-- The confidence levels of relaxation (R8, R209). -/
def relaxLevels : List Nat := [100, 95, 90, 85, 80, 75, 70, 65, 60, 55, 50]

/-- CORRECT at positions `i`, `i-1`, ..., 1: newest to oldest; entry 0 has no donor (R209, R210). -/
def relaxPass (P level : Nat) : Nat → List Nat → List Nat
  | 0, w => w
  | i + 1, w => relaxPass P level i (correct P level (i + 1) w)

/-- The passes of RELAX at the given levels over working durations (R209). -/
def relaxAt (P : Nat) : List Nat → List Nat → List Nat
  | [], w => w
  | level :: r, w => relaxAt P r (relaxPass P level (w.length - 1) w)

/-- RELAX (R209): working durations, always from the original ones (R211). -/
def relax (P : Nat) (sw : List SpanEntry) : List Nat := relaxAt P relaxLevels (sw.map (·.orig))

/-- RoundDiv (R212): to the nearest integer, halves up. -/
def roundDiv (x P : Nat) : Nat := (2 * x + P) / (2 * P)

/-- The level of a BitWindow entry. -/
def bitAt (bw : List BitEntry) (i : Nat) : Level := (bw[i]?.map (·.lvl)).getD false

/-- The score of a BitWindow entry. -/
def scoreAt (bw : List BitEntry) (i : Nat) : Int := (bw[i]?.map (·.score)).getD 0

/-- The data bits of the scored frame at `q`: offsets s+1 to s+8, least significant first (R89, R220). -/
def frameData (c : Cfg) (bw : List BitEntry) (q : Nat) : List Level :=
  (List.range 8).map (fun i => bitAt bw (q + stopBits c + 1 + i))

/-- FRAME_VALID (R215): leading stop bits, start bit, parity if on, trailing stop bits. -/
def frameValid (c : Cfg) (bw : List BitEntry) (q : Nat) : Bool :=
  (List.range (stopBits c)).all (fun j => bitAt bw (q + j))
    && !bitAt bw (q + stopBits c)
    && (!c.parity || (bitAt bw (q + stopBits c + 9) == xorAll (frameData c bw q)))
    && (List.range (stopBits c)).all (fun j => bitAt bw (q + frameBits c + j))

/-- Chain (R218): the score of the bit one base frame further back, not below 0; 0 outside the window. -/
def chain (c : Cfg) (bw : List BitEntry) (q : Nat) : Int :=
  if frameBits c ≤ q then max (scoreAt bw (q - frameBits c)) 0 else 0

/-- SCORE (R217): the bit that begins the scored frame ending at the newest bit. -/
def scoreNewest (c : Cfg) (bw : List BitEntry) : List BitEntry :=
  if scoredBits c ≤ bw.length then
    let q := bw.length - scoredBits c
    if scoreAt bw q = 0 ∧ frameValid c bw q = true then
      bw.set q { lvl := bitAt bw q, score := 1 + chain c bw q }
    else bw
  else bw

/-- DecodeByte (R220). -/
def decodeByte (c : Cfg) (bw : List BitEntry) (q : Nat) : Byte :=
  BitVec.ofNat 8 (((List.range 8).map (fun i => (bitAt bw (q + stopBits c + 1 + i)).toNat <<< i)).sum)

/-- The better of a candidate so far and position `i`: the highest score of at least 1, the earlier position on a tie (R221). -/
def pickStep (bw : List BitEntry) (best : Option Nat) (i : Nat) : Option Nat :=
  match best with
  | none => if 1 ≤ scoreAt bw i then some i else none
  | some b => if scoreAt bw b < scoreAt bw i then some i else some b

/-- Pick (R221), over positions 0 to `hi`. -/
def pick (bw : List BitEntry) (hi : Nat) : Option Nat := (List.range (hi + 1)).foldl (pickStep bw) none

/-- What the bit path writes: the BitWindow, the receive queue and the trace of its overflows. -/
structure BitPath where
  bw : List BitEntry
  rxq : RingBuf Byte
  trace : List TraceEntry
  deriving DecidableEq, Repr

/-- The consumed frame's first B positions get score -1 (R224). -/
def markConsumed (c : Cfg) (q : Nat) (bw : List BitEntry) : List BitEntry :=
  bw.mapIdx (fun j e => if q ≤ j ∧ j < q + frameBits c then { e with score := -1 } else e)

/-- CONSUME (R224): the byte goes to RXQ; the frame and everything older leave the window. -/
def consume (c : Cfg) (q : Nat) (k : BitPath) : BitPath :=
  { bw := (markConsumed c q k.bw).drop (q + frameBits c)
    rxq := (ringPush k.rxq (decodeByte c k.bw q)).1
    trace := overflowTrace k.trace (ringPush k.rxq (decodeByte c k.bw q)).2 }

/-- EXTRACT_ONE (R222). -/
def extractOne (c : Cfg) (hi : Nat) (k : BitPath) : BitPath :=
  match pick k.bw hi with
  | some q => consume c q k
  | none => { k with bw := k.bw.drop (hi + 1) }

/-- The loop of EXTRACT (R222); each turn drops at least one bit, so the window's length is fuel enough. -/
def extractLoop (c : Cfg) : Nat → BitPath → BitPath
  | 0, k => k
  | n + 1, k =>
    if 2 * frameBits c + scoredBits c - 1 ≤ k.bw.length then extractLoop c n (extractOne c (frameBits c - 1) k) else k

/-- EXTRACT (R222). -/
def extract (c : Cfg) (k : BitPath) : BitPath := extractLoop c k.bw.length k

/-- The loop of EXTRACT_FINAL (R223); fuel as for EXTRACT. -/
def extractFinalLoop (c : Cfg) : Nat → BitPath → BitPath
  | 0, k => k
  | n + 1, k =>
    if scoredBits c ≤ k.bw.length then
      extractFinalLoop c n (extractOne c (min (frameBits c - 1) (k.bw.length - scoredBits c)) k)
    else k

/-- EXTRACT_FINAL (R223). -/
def extractFinal (c : Cfg) (k : BitPath) : BitPath := extractFinalLoop c k.bw.length k

/-- PUSH_BIT (R216). -/
def pushBit (p : Params) (c : Cfg) (l : Level) (k : BitPath) : BitPath :=
  extract c { k with bw := scoreNewest c ((if k.bw.length = p.bitwinCap then k.bw.drop 1 else k.bw) ++ [{ lvl := l, score := 0 }]) }

/-- PUSH_BIT `n` times (R213). -/
def pushBits (p : Params) (c : Cfg) (l : Level) : Nat → BitPath → BitPath
  | 0, k => k
  | n + 1, k => pushBits p c l n (pushBit p c l k)

/-- SPAN_TO_BITS (R213), capped at the BitWindow's capacity. -/
def spanToBits (p : Params) (c : Cfg) (x : Nat) (l : Level) (k : BitPath) : BitPath :=
  pushBits p c l (min (roundDiv x (pNom p c)) p.bitwinCap) k

/-- The bit path of a state. -/
def bitPath (s : State) : BitPath := { bw := s.rx.bw, rxq := s.rxq, trace := s.trace }

/-- A state with its bit path written back. -/
def withBitPath (k : BitPath) (s : State) : State :=
  { s with rx := { s.rx with bw := k.bw }, rxq := k.rxq, trace := k.trace }

/-- The span window after a span has been tracked, normalised and appended (R204 to R206). -/
def trackSpan (p : Params) (d : Nat) (l : Level) (s : State) : State :=
  let pm := blend s.rx.pmod d
  { s with rx := { s.rx with pmod := pm, sw := s.rx.sw ++ [{ orig := normalize (pNom p s.cfg) d pm, lvl := l }] } }

/-- When the window holds K entries, it is relaxed, entry 1 is converted and entry 0 is dropped (R208, R213, R214). -/
def convertSpan (p : Params) (s : State) : State :=
  if s.rx.sw.length = p.spanWin then
    let k := spanToBits p s.cfg ((relax (pNom p s.cfg) s.rx.sw).getD 1 0) ((s.rx.sw[1]?.map (·.lvl)).getD false) (bitPath s)
    withBitPath k { s with rx := { s.rx with sw := s.rx.sw.drop 1 } }
  else s

/-- ProcessSpan (R204). -/
def processSpan (p : Params) (d : Nat) (l : Level) (s : State) : State := convertSpan p (trackSpan p d l s)

/-- RX_START's effect (R230). -/
def rxStart (p : Params) (s : State) : State :=
  let u := match pinRead s with
    | some _ => s
    | none => logError .pinReadFail s
  { u with
    spq := ringInit s.spq
    rx := { run := true
            e := s.now
            lv := match pinRead s with
              | some v => invertLevel s.cfg v
              | none => true
            pmod := pNom p s.cfg
            sw := [{ orig := 0, lvl := true }]
            bw := [] } }

/-- RX_START, code 0x40 (R230). -/
def execRxStart (s : State) : Out :=
  byAgent .host s
    (if !s.cfg.valid then .refused .notConfigured
     else if s.rx.run then .refused .alreadyRunning
     else .next (rxStart Config.params s))

/-- RX_EDGE's effect (R201, R202): on a read failure nothing but the log; else the span of the level that just ended. -/
def rxEdge (s : State) : State :=
  match pinRead s with
  | none => logError .pinReadFail s
  | some v =>
    let u := pushSpq { dur := s.now - s.rx.e, lvl := s.rx.lv } s
    { u with rx := { s.rx with e := s.now, lv := invertLevel s.cfg v } }

/-- RX_EDGE, code 0x41 (R201). -/
def execRxEdge (s : State) : Out :=
  byAgent .rxc s (if ready .rxEdge s then .next (rxEdge s) else .next (await .rxEdge s))

/-- RX_PROCESS's effect (R204): the oldest span of SPQ. -/
def rxProcess (p : Params) (s : State) : State :=
  match ringPop s.spq with
  | (none, _) => s
  | (some v, q) => processSpan p v.dur v.lvl { s with spq := q }

/-- RX_PROCESS, code 0x42 (R204). -/
def execRxProcess (s : State) : Out :=
  byAgent .rxp s (if ready .rxProcess s then .next (rxProcess Config.params s) else .next (await .rxProcess s))

/-- SPAN_TO_BITS of each relaxed span in turn (R231). -/
def spansToBits (p : Params) (c : Cfg) : List (Nat × Level) → BitPath → BitPath
  | [], k => k
  | (x, l) :: r, k => spansToBits p c r (spanToBits p c x l k)

/-- RX_FLUSH closes the open span at `now` (R231). -/
def closeSpan (p : Params) (s : State) : State :=
  if s.rx.e < s.now then
    let u := processSpan p (s.now - s.rx.e) s.rx.lv s
    { u with rx := { u.rx with e := s.now } }
  else s

/-- RX_FLUSH converts what the span window still holds back, keeps its last entry as donor, and extracts every complete frame
(R223, R231). -/
def drainSpans (p : Params) (s : State) : State :=
  let spans := ((relax (pNom p s.cfg) s.rx.sw).zip (s.rx.sw.map (·.lvl))).drop 1
  let k := extractFinal s.cfg (spansToBits p s.cfg spans (bitPath s))
  withBitPath k { s with rx := { s.rx with sw := s.rx.sw.getLast?.toList } }

/-- RX_FLUSH's effect (R231). -/
def rxFlush (p : Params) (s : State) : State := drainSpans p (closeSpan p s)

/-- RX_FLUSH, code 0x43 (R231). -/
def execRxFlush (s : State) : Out :=
  byAgent .host s
    (if !s.rx.run then .refused .receiverStopped
     else if ready .rxFlush s then .next (rxFlush Config.params s)
     else .next (await .rxFlush s))

/-- RX_STOP, code 0x44 (R232). -/
def execRxStop (s : State) : Out := byAgent .host s (.next { s with rx := { s.rx with run := false } })

/-- `modifiedBaudRate` as a rate, for display only (R207). -/
def modifiedBaudRate (p : Params) (s : State) : Nat := s.cfg.baud * pNom p s.cfg / s.rx.pmod

end Sys2Proof.Machine
end

