-- ==== Sys2Proof/Machine/RingBuffer.lean ====
section
/-! DEFINITION. The ring-buffer operations (41_ring_buffer.md, R140 to R152): unit 0x0, by HOST. -/

namespace Sys2Proof.Machine

/-- RB_INIT txq, code 0x00 (R142). On a ring whose consumer runs it has no move (R363). -/
def execRbInitTxq (s : State) : Out :=
  byAgent .host s
    (if s.tx.phase ≠ .stopped then .fault .liveRingInit else .next { s with txq := ringInit s.txq })

/-- RB_INIT rxq, code 0x08 (R142). On a ring whose producer runs it has no move (R363). -/
def execRbInitRxq (s : State) : Out :=
  byAgent .host s
    (if s.rx.run then .fault .liveRingInit else .next { s with rxq := ringInit s.rxq })

/-- RB_PUSH txq, code 0x01 (R143). -/
def execRbPushTxq (b : Byte) (s : State) : Out := byAgent .host s (.next (pushTxq b s))

/-- The count RB_PUSH_BULK writes: what fits in the free space (R144). -/
def bulkCount {α : Type} (bs : List α) (q : RingBuf α) : Nat := min bs.length (ringCap q - ringAvail q)

/-- RB_PUSH of each byte of a list onto TXQ, in order (R144). -/
def pushAllTxq : List Byte → State → State
  | [], s => s
  | b :: r, s => pushAllTxq r (pushTxq b s)

/-- RB_PUSH_BULK txq, code 0x02 (R144). -/
def execRbPushBulkTxq (bs : List Byte) (s : State) : Out :=
  byAgent .host s
    (.next (emit (.count (bulkCount bs s.txq)) (pushAllTxq (bs.take (bulkCount bs s.txq)) s)))

/-- RB_POP rxq, code 0x0B (R145). -/
def execRbPopRxq (s : State) : Out :=
  byAgent .host s (.next (emit (.byteOpt (ringPop s.rxq).1) { s with rxq := (ringPop s.rxq).2 }))

/-- RB_POP_BULK rxq, code 0x0C (R146). -/
def execRbPopBulkRxq (max : Nat) (s : State) : Out :=
  byAgent .host s
    (.next (emit (.bytes (ringPopMany (min max (ringAvail s.rxq)) s.rxq).1)
      { s with rxq := (ringPopMany (min max (ringAvail s.rxq)) s.rxq).2 }))

/-- RB_AVAILABLE txq, code 0x05 (R148). -/
def execRbAvailableTxq (s : State) : Out := byAgent .host s (.next (emit (.count (ringAvail s.txq)) s))

/-- RB_AVAILABLE rxq, code 0x0D (R148). -/
def execRbAvailableRxq (s : State) : Out := byAgent .host s (.next (emit (.count (ringAvail s.rxq)) s))

end Sys2Proof.Machine
end

