-- ==== Sys2Proof/Machine/Transmitter.lean ====
section
/-! DEFINITION. The bit timer (R170 to R174, unit 0x2) and the software UART transmitter (R177 to R188, unit 0x3). -/

namespace Sys2Proof.Machine

/-- BT_SYNC, code 0x20 (R171). -/
def execBtSync (s : State) : Out := byTimerAgent s (.next { s with tx := { s.tx with d := s.now } })

/-- BT_ADVANCE, code 0x21 (R172). -/
def execBtAdvance (d : Nat) (s : State) : Out :=
  byTimerAgent s (.next { s with tx := { s.tx with d := s.tx.d + d } })

/-- BT_WAIT, code 0x22 (R173): the step changes no state. -/
def execBtWait (s : State) : Out :=
  byTimerAgent s (if ready .btWait s then .next s else .next (await .btWait s))

/-- TX_START's effect (R178): idle level, then the pre-frame high time before the first deadline. -/
def txStart (p : Params) (s : State) : State :=
  { pinWrite (invertLevel s.cfg true) s with
    tx := { run := true, d := s.now + stopBits s.cfg * pNom p s.cfg, frame := [], phase := .idle, idx := 0 } }

/-- TX_START, code 0x30 (R178). -/
def execTxStart (s : State) : Out :=
  byAgent .host s
    (if !s.cfg.valid then .refused .notConfigured
     else if s.tx.run then .refused .alreadyRunning
     else if s.tx.phase ≠ .stopped then .refused .frameInFlight
     else .next (txStart Config.params s))

/-- TX_STOP, code 0x32 (R179): a frame in progress is finished. -/
def execTxStop (s : State) : Out := byAgent .host s (.next { s with tx := { s.tx with run := false } })

/-- A byte taken from TXQ becomes the frame being sent, with deadline `d` for its start bit (R181, R183). -/
def txBegin (b : Byte) (q : RingBuf Byte) (d : Nat) (s : State) : State :=
  { s with txq := q, tx := { s.tx with frame := frameLevels s.cfg b, idx := 0, d := d, phase := .busy } }

/-- TX_STEP in IDLE (R181): the stop flag, then TXQ; the bit clock restarts after an idle gap. -/
def txIdle (s : State) : State :=
  if !s.tx.run then { s with tx := { s.tx with phase := .stopped } }
  else
    match ringPop s.txq with
    | (none, _) => s
    | (some b, q) => txBegin b q (max s.tx.d s.now) s

/-- TX_STEP in BUSY (R182): write one level; the deadline and the index advance whether or not the write succeeded (R185). -/
def txBusy (p : Params) (s : State) : State :=
  { pinWrite (invertLevel s.cfg (s.tx.frame.getD s.tx.idx true)) s with
    tx := { s.tx with
            d := s.tx.d + pNom p s.cfg
            idx := s.tx.idx + 1
            phase := if s.tx.idx + 1 = frameBits s.cfg then .done else .busy } }

/-- TX_STEP in DONE (R183): the stop flag, then the next byte, whose deadline is the last frame's end. -/
def txDone (s : State) : State :=
  if !s.tx.run then { s with tx := { s.tx with phase := .stopped } }
  else
    match ringPop s.txq with
    | (none, _) => { s with tx := { s.tx with phase := .idle } }
    | (some b, q) => txBegin b q s.tx.d s

/-- TX_STEP by phase, once it is enabled (R180). In STOPPED no step exists. -/
def txStep (p : Params) (s : State) : State :=
  match s.tx.phase with
  | .stopped => s
  | .idle => txIdle s
  | .busy => txBusy p s
  | .done => txDone s

/-- TX_STEP, code 0x31 (R180). -/
def execTxStep (s : State) : Out :=
  byAgent .txa s (if ready .txStep s then .next (txStep Config.params s) else .next (await .txStep s))

end Sys2Proof.Machine
end

