-- ==== Sys2Proof/Machine/Dispatch.lean ====
section
/-! DEFINITION. One arm for each instruction: a direct call of its meaning. -/

namespace Sys2Proof.Machine

def exec (i : Instr) (s : State) : Host.Outcome State Fault Refusal :=
  match i with
  | .rbInitTxq => Sys2Proof.Machine.execRbInitTxq s
  | .rbPushTxq b => Sys2Proof.Machine.execRbPushTxq b s
  | .rbPushBulkTxq bs => Sys2Proof.Machine.execRbPushBulkTxq bs s
  | .rbAvailableTxq => Sys2Proof.Machine.execRbAvailableTxq s
  | .rbInitRxq => Sys2Proof.Machine.execRbInitRxq s
  | .rbPopRxq => Sys2Proof.Machine.execRbPopRxq s
  | .rbPopBulkRxq m => Sys2Proof.Machine.execRbPopBulkRxq m s
  | .rbAvailableRxq => Sys2Proof.Machine.execRbAvailableRxq s
  | .crc8Step c b => Sys2Proof.Machine.execCrc8Step c b s
  | .crc8 bs seed => Sys2Proof.Machine.execCrc8 bs seed s
  | .btSync => Sys2Proof.Machine.execBtSync s
  | .btAdvance d => Sys2Proof.Machine.execBtAdvance d s
  | .btWait => Sys2Proof.Machine.execBtWait s
  | .txStart => Sys2Proof.Machine.execTxStart s
  | .txStep => Sys2Proof.Machine.execTxStep s
  | .txStop => Sys2Proof.Machine.execTxStop s
  | .rxStart => Sys2Proof.Machine.execRxStart s
  | .rxEdge => Sys2Proof.Machine.execRxEdge s
  | .rxProcess => Sys2Proof.Machine.execRxProcess s
  | .rxFlush => Sys2Proof.Machine.execRxFlush s
  | .rxStop => Sys2Proof.Machine.execRxStop s
  | .akpInit t => Sys2Proof.Machine.execAkpInit t s
  | .akpFeed t c => Sys2Proof.Machine.execAkpFeed t c s
  | .cfgSet n p d v => Sys2Proof.Machine.execCfgSet n p d v s
  | .envTick n => Sys2Proof.Machine.execEnvTick n s
  | .envRxpin v => Sys2Proof.Machine.execEnvRxpin v s

end Sys2Proof.Machine
end

