-- ==== Sys2Proof/Machine/Step.lean ====
section
/-! DEFINITION. One step of the machine (R10, R66): the agent whose turn is next takes its step, decoded and
executed as one atomic step. -/

namespace Sys2Proof.Machine

/-- One step. A command that is no row of R84 is refused and changes no state (R85). A turn of an agent that
has no step changes nothing but the turns (log 4). -/
def step (s : State) : Host.Outcome State Fault Refusal :=
  match select s with
  | .idle t => .next t
  | .resume w t => exec w.instr t
  | .fetch c t =>
    match decode c.code c.operands with
    | .ok i => exec i t
    | .error r => .refused (.noCommand r)

/-- `s` with the command of a table word issued next (log 15). -/
def State.withFetchWord (s : State) (nbits w : Nat) : State := issueNext (tableIssue nbits w s.draw) s

end Sys2Proof.Machine
end

