-- ==== Sys2Proof/Machine/Pseudo.lean ====
section
/-! DEFINITION. The pseudo-operations of R98. Each expands to commands and has no meaning of its own. None of the commands accesses a
pin, so their draw is never read. -/

namespace Sys2Proof.Machine

/-- `SEND b`. -/
def pseudoSend (b : Byte) : List Issue := [issueOf .host (.rbPushTxq b) true]

/-- `RECV`. -/
def pseudoRecv : List Issue := [issueOf .host .rbPopRxq true]

/-- `FEEDS t, "s"`. -/
def pseudoFeeds (t : Nat) (bs : List Byte) : List Issue := bs.map (fun c => issueOf .host (.akpFeed t c) true)

/-- `WAIT n`. -/
def pseudoWait (n : Nat) : List Issue := [issueOf .env (.envTick n) true]

/-- `DRIVE_FRAME b`, in the configuration `c`. -/
def pseudoDriveFrame (p : Params) (c : Cfg) (b : Byte) : List Issue :=
  (frameLevels c b).flatMap (fun v =>
    [issueOf .env (.envRxpin (invertLevel c v)) true, issueOf .env (.envTick (pNom p c)) true])

/-- `DRIVE_IDLE n`, in the configuration `c`. -/
def pseudoDriveIdle (p : Params) (c : Cfg) (n : Nat) : List Issue :=
  [issueOf .env (.envRxpin (invertLevel c true)) true, issueOf .env (.envTick (n * pNom p c)) true]

/-- A machine with a program issued and a turn for each line, so that its lines run in the order written (R97, 95_test_vectors.md part
L3). -/
def issueAll (cs : List Issue) (s : State) : State := place cs (cs.map (·.agent)) s

end Sys2Proof.Machine
end

