-- ==== Sys2Proof/WellFormed.lean ====
section
/-! DEFINITION. The operand values a command may have: CFG_SET's baud is a member of STD_BAUDS (R83, R301) and ENV_TICK's n is at
least 1 (R84, R303). The meanings refuse the other values by name, so `exec` is total on ill-formed instructions too. -/

namespace Sys2Proof

/-- The operand values of an instruction are ones its row allows. -/
def Instr.wellFormed : Instr → Bool
  | .cfgSet n _ _ _ => decide (n ∈ stdBauds)
  | .envTick n => decide (1 ≤ n)
  | .rbInitTxq => true
  | .rbPushTxq _ => true
  | .rbPushBulkTxq _ => true
  | .rbAvailableTxq => true
  | .rbInitRxq => true
  | .rbPopRxq => true
  | .rbPopBulkRxq _ => true
  | .rbAvailableRxq => true
  | .crc8Step _ _ => true
  | .crc8 _ _ => true
  | .btSync => true
  | .btAdvance _ => true
  | .btWait => true
  | .txStart => true
  | .txStep => true
  | .txStop => true
  | .rxStart => true
  | .rxEdge => true
  | .rxProcess => true
  | .rxFlush => true
  | .rxStop => true
  | .akpInit _ => true
  | .akpFeed _ _ => true
  | .envRxpin _ => true

end Sys2Proof
end

