-- ==== Sys2Proof/Safety.lean ====
section
/-! DEFINITION. What a good state is (the ranges and relations 10_state.md gives its fields), the end of a run and its observation
(R355), the refusal mark (R322), and the named launch premises (R309, R351). SAME_CFG holds of every state, since there is one CFG
(R300), and PINS_READY speaks of no state of the block (log 21). -/

namespace Sys2Proof.Machine

/-- A ring's indices are in range and `full` disambiguates equal indices (R28). -/
def RingOk {α : Type} (q : RingBuf α) : Prop :=
  q.start < ringCap q ∧ q.tail < ringCap q ∧ (q.full = true → q.start = q.tail)

/-- The three rings are as R28 says. -/
def RingsOk (s : State) : Prop := RingOk s.txq ∧ RingOk s.rxq ∧ RingOk s.spq

/-- A valid CFG holds a legal baud rate (R22). -/
def CfgOk (s : State) : Prop := s.cfg.valid = true → s.cfg.baud ∈ stdBauds

/-- The transmitter's sequencer (R30 to R33): it is stopped only with the run flag clear; out of STOPPED the configuration is valid and
`TX.idx` is at most B; in BUSY `TX.frame` is the frame of a byte and a level of it is left; in DONE every level has been written. -/
def TxOk (s : State) : Prop :=
  (s.tx.run = true → s.tx.phase ≠ .stopped) ∧
  (s.tx.phase ≠ .stopped → s.cfg.valid = true ∧ s.tx.idx ≤ frameBits s.cfg) ∧
  (s.tx.phase = .busy → s.tx.idx < frameBits s.cfg ∧ ∃ b, s.tx.frame = frameLevels s.cfg b) ∧
  (s.tx.phase = .done → s.tx.idx = frameBits s.cfg)

/-- The receiver (R24, R35, R37 to R39, R205, R208, R224, R229): the last transition is not in the future, the period is at least 1, the
windows hold no more than their capacities, no consumed score is left behind, and while the receiver runs the configuration is valid and
extraction has left fewer than 2B+L-1 bits. -/
def RxOk (s : State) : Prop :=
  s.rx.e ≤ s.now ∧
  1 ≤ s.rx.pmod ∧
  s.rx.sw.length < Config.params.spanWin ∧
  s.rx.bw.length ≤ Config.params.bitwinCap ∧
  (∀ e ∈ s.rx.bw, 0 ≤ e.score) ∧
  (s.rx.run = true →
    s.cfg.valid = true ∧ s.rx.sw ≠ [] ∧ s.rx.bw.length ≤ 2 * frameBits s.cfg + scoredBits s.cfg - 2)

/-- A decoder's fields by mode (R43, R45, R264 to R271): the colon flag is set in CS1 and CS2 only; between tags every field but the
lookback is as AKP_INIT leaves it; an ordinary record has two UPPER letters other than DD and at most DATA_CAP bytes; the DD digits and
the payload count are in range. -/
def TagOk (p : Params) (t : TagParse) : Prop :=
  (t.colon = true ↔ t.mode = .cs1 ∨ t.mode = .cs2) ∧
  (t.mode = .between → t = akpClear t) ∧
  ((t.mode = .data ∨ t.mode = .cs1 ∨ t.mode = .cs2) →
    isUpper t.tag.1 = true ∧ isUpper t.tag.2 = true ∧ t.tag ≠ ddTag ∧ t.data.length ≤ p.dataCap) ∧
  (t.mode = .ddlen → t.tag = ddTag ∧ t.data = [] ∧ t.k < 8) ∧
  (t.mode = .ddpay → t.len1 = t.len2 ∧ t.len1.toNat ≤ p.ddCap ∧ t.cnt = t.data.length ∧ t.cnt < t.len1.toNat)

/-- The decoder table: handles strictly rising, every instance as `TagOk` says. -/
def AkpOk (s : State) : Prop :=
  (s.akp.map (·.1)).Pairwise (· < ·) ∧ ∀ x ∈ s.akp, TagOk Config.params x.2

/-- An agent is inside at most one await (R12). -/
def WaitOk (s : State) : Prop := (s.waiting.map (·.agent)).Nodup

/-- A state that keeps all of it. -/
def Inv (s : State) : Prop := RingsOk s ∧ CfgOk s ∧ TxOk s ∧ RxOk s ∧ AkpOk s ∧ WaitOk s

/-- No pin access of an issued command is drawn to fail (NO_PIN_FAIL, R305, R306, R309). -/
def NoPinFail (s : State) : Prop := (∀ c ∈ s.pending, c.draw = true) ∧ (∀ w ∈ s.waiting, w.draw = true)

/-- The rx line is at the idle level of this configuration (IDLE_LINE, R351). -/
def IdleLine (c : Cfg) (s : State) : Prop := s.pin.rx = invertLevel c true

/-- HOST has no command left to issue (R355). -/
abbrev HostDone (s : State) : Prop :=
  (∀ c ∈ s.pending, c.agent ≠ .host) ∧ (∀ w ∈ s.waiting, w.agent ≠ .host)

/-- A quiescent state (R355). -/
abbrev Quiescent (s : State) : Prop :=
  ringEmpty s.txq = true ∧ (s.tx.phase = .idle ∨ s.tx.phase = .stopped) ∧
  ringEmpty s.spq = true ∧ transitionPending s = false ∧ HostDone s

/-- The state without the next turn and the command it takes: what a refused command leaves (R85, R322). -/
def dropSelected (s : State) : State :=
  match select s with
  | .idle t => t
  | .resume _ t => { s with turns := t.turns, waiting := t.waiting }
  | .fetch _ t => { s with turns := t.turns, pending := t.pending }

/-- A run under observation: the block's state and the refusal mark, which belongs to the observation and not to the block (R322). -/
structure Run where
  state : State
  refused : Bool
  deriving DecidableEq, Repr

/-- A run at block reset: the mark is clear (R350). -/
def runReset : Run := { state := State.reset, refused := false }

/-- One step of a run: a refused command changes no state and sets the mark, which no later step clears (R322). -/
def runStep (r : Run) : Run :=
  match step r.state with
  | .next s => { r with state := s }
  | .fault _ => r
  | .refused _ => { state := dropSelected r.state, refused := true }

/-- The observation of a run (R355): the contents of RXQ and TXQ, the results HOST received, pinErr and the refusal mark. -/
structure Observation where
  rxq : List Byte
  txq : List Byte
  hostResults : List Result
  pinErr : Nat
  refused : Bool
  deriving DecidableEq, Repr

/-- What is observed of a run (R355). -/
def observe (r : Run) : Observation where
  rxq := ringContents r.state.rxq
  txq := ringContents r.state.txq
  hostResults := r.state.results.filterMap (fun x => if x.1 = Agent.host then some x.2 else none)
  pinErr := r.state.pinErr
  refused := r.refused

/-! ## Runs: commands from outside, the end of a run, and the premises that speak of a whole run -/

/-- Commands and turns placed from outside between two steps (log 1, log 2). -/
def Run.place (cs : List Issue) (ts : List Agent) (r : Run) : Run := { r with state := Machine.place cs ts r.state }

/-- A sequence of observed states, each a step after the one before, with any commands and turns placed from outside between them. -/
def IsRun (r : Nat → Run) : Prop := ∀ k, ∃ cs ts, r (k + 1) = (runStep (r k)).place cs ts

/-- The state `k` of a run is its end (R355): the first quiescent one from which on HOST has no command. -/
def EndsAt (r : Nat → Run) (k : Nat) : Prop :=
  (∀ j, k ≤ j → HostDone (r j).state) ∧ Quiescent (r k).state ∧
  ∀ i, i < k → ¬ ((∀ j, i ≤ j → HostDone (r j).state) ∧ Quiescent (r i).state)

/-- The end of a run all of whose commands and turns are placed at its start, looked for in `n` steps. -/
def runToEnd : Nat → Run → Option Run
  | 0, r => if Quiescent r.state then some r else none
  | n + 1, r => if Quiescent r.state then some r else runToEnd n (runStep r)

/-- The observation at the end of such a run (R355). -/
def observeEnd (n : Nat) (r : Run) : Option Observation := (runToEnd n r).map observe

/-- The instruction the next step takes, and the state it is executed in. -/
def nextInstr (s : State) : Option (Instr × State) :=
  match select s with
  | .idle _ => none
  | .resume w t => some (w.instr, t)
  | .fetch c t =>
    match decode c.code c.operands with
    | .ok i => some (i, t)
    | .error _ => none

/-- The instruction is an enabled step in this state: its await holds, and it is neither refused (R322) nor without a move (R363). -/
def enabledStep (i : Instr) (s : State) : Bool := ready i s && (nextOf (exec i s)).isSome

/-- The instruction makes a successful write of the tx pin in this state: TX_START, or TX_STEP in BUSY, as an enabled step with a draw
of ok (R178, R182, R306). -/
def writesTxPin (i : Instr) (s : State) : Bool :=
  s.draw && enabledStep i s && (decide (i = .txStart) || (decide (i = .txStep) && decide (s.tx.phase = .busy)))

/-- LOOPBACK (R309): directly after each successful write of the tx pin, ENV sets the rx pin to the tx pin's level in a step of its
own. No step comes between, so `now` does not advance before it. -/
def Loopback (r : Nat → Run) : Prop :=
  ∀ k i t, nextInstr (r k).state = some (i, t) → writesTxPin i t = true →
    ∃ u, nextInstr (r (k + 1)).state = some (.envRxpin (r (k + 1)).state.pin.tx, u) ∧ u.issuer = .env

/-- IDLE_LINE (R351) over a run: from an RX_START that is not refused the line is idle, until `s` bit periods have passed; a start bit
may begin exactly then. -/
def IdleLineHeld (r : Nat → Run) : Prop :=
  ∀ k t, nextInstr (r k).state = some (.rxStart, t) → enabledStep .rxStart t = true → ∀ j, k ≤ j →
    (r j).state.now < t.now + stopBits t.cfg * pNom Config.params t.cfg → IdleLine t.cfg (r j).state

/-- The step an agent takes by itself (R10) is enabled; HOST has only the commands it issues. -/
def ownStepReady (s : State) : Agent → Bool
  | .host => false
  | .txa => ready .txStep s
  | .rxc => ready .rxEdge s
  | .rxp => ready .rxProcess s
  | .env => true

/-- What an issued command is in this state: its instruction, or none where it is refused, which is no step (R85, R322). -/
def admittedInstr (s : State) (c : Issue) : Option Instr :=
  match decode c.code c.operands with
  | .error _ => none
  | .ok i =>
    match exec i { s with issuer := c.agent, draw := c.draw } with
    | .refused _ => none
    | _ => some i

/-- The first command the agent has issued that is not refused is an enabled step of it. -/
def issuedReady (s : State) (a : Agent) : Bool :=
  match (s.pending.filter (fun c => decide (c.agent = a))).findSome? (admittedInstr s) with
  | some i => enabledStep i { s with issuer := a }
  | none => false

/-- The agent has an enabled step (R12, R328): the one it waits in, or, outside an await, its own or the first it has issued. -/
def agentEnabled (s : State) (a : Agent) : Bool :=
  match s.waiting.find? (fun w => decide (w.agent = a)) with
  | some w => enabledStep w.instr { s with issuer := a }
  | none => ownStepReady s a || issuedReady s a

/-- The agent whose enabled step the next step is. A refused command (R322), the model's step into a wait (log 3) and a turn that
passes (log 4) are nobody's. -/
def stepTaker (s : State) : Option Agent :=
  match nextInstr s with
  | some (i, t) => if enabledStep i t then some t.issuer else none
  | none => none

/-- FAIR (R309): an agent that is enabled forever takes a step in the end, and `now` grows without bound. -/
def Fair (r : Nat → Run) : Prop :=
  (∀ a k, (∀ j, k ≤ j → agentEnabled (r j).state a = true) → ∃ j, k ≤ j ∧ stepTaker (r j).state = some a) ∧
  ∀ bound, ∃ k, bound ≤ (r k).state.now

end Sys2Proof.Machine
end

