-- ==== Sys2Proof/Certificates/Slice0/Obligations.lean ====
section
/-! DEFINITION. The obligations. Each formalises rules of spec/, named in its docstring. An equation `exec i s = .next { s with … }`
states an instruction's completion, its result and its frame at once: every field not named is unchanged. The block has no addressable
memory (R64), so no frame speaks of bytes at addresses. -/

namespace Sys2Proof.Claims

open Sys2Proof.Machine

/-- The agent column of R84. -/
def mayIssue (s : State) : Instr → Prop
  | .crc8Step _ _ => True
  | .crc8 _ _ => True
  | .btSync => s.issuer = .txa ∨ (s.issuer = .host ∧ s.tx.run = false)
  | .btAdvance _ => s.issuer = .txa ∨ (s.issuer = .host ∧ s.tx.run = false)
  | .btWait => s.issuer = .txa ∨ (s.issuer = .host ∧ s.tx.run = false)
  | .txStep => s.issuer = .txa
  | .rxEdge => s.issuer = .rxc
  | .rxProcess => s.issuer = .rxp
  | .envTick _ => s.issuer = .env
  | .envRxpin _ => s.issuer = .env
  | .rbInitTxq => s.issuer = .host
  | .rbPushTxq _ => s.issuer = .host
  | .rbPushBulkTxq _ => s.issuer = .host
  | .rbAvailableTxq => s.issuer = .host
  | .rbInitRxq => s.issuer = .host
  | .rbPopRxq => s.issuer = .host
  | .rbPopBulkRxq _ => s.issuer = .host
  | .rbAvailableRxq => s.issuer = .host
  | .txStart => s.issuer = .host
  | .txStop => s.issuer = .host
  | .rxStart => s.issuer = .host
  | .rxFlush => s.issuer = .host
  | .rxStop => s.issuer = .host
  | .akpInit _ => s.issuer = .host
  | .akpFeed _ _ => s.issuer = .host
  | .cfgSet _ _ _ _ => s.issuer = .host

/-- The states and operands in which the rules refuse a command of the right agent (R178, R230, R231, R261, R301, R303), or give it no
move (R363), are left out; every other is admitted. -/
def admitted (s : State) : Instr → Prop
  | .rbInitTxq => s.tx.phase = .stopped
  | .rbInitRxq => s.rx.run = false
  | .txStart => s.cfg.valid = true ∧ s.tx.run = false ∧ s.tx.phase = .stopped
  | .rxStart => s.cfg.valid = true ∧ s.rx.run = false
  | .rxFlush => s.rx.run = true
  | .akpFeed t _ => akpGet? s.akp t ≠ none
  | .cfgSet n _ _ _ => n ∈ stdBauds ∧ s.tx.run = false ∧ s.tx.phase = .stopped ∧ s.rx.run = false
  | .envTick n => 1 ≤ n
  | .rbPushTxq _ => True
  | .rbPushBulkTxq _ => True
  | .rbAvailableTxq => True
  | .rbPopRxq => True
  | .rbPopBulkRxq _ => True
  | .rbAvailableRxq => True
  | .crc8Step _ _ => True
  | .crc8 _ _ => True
  | .btSync => True
  | .btAdvance _ => True
  | .btWait => True
  | .txStep => True
  | .txStop => True
  | .rxEdge => True
  | .rxProcess => True
  | .rxStop => True
  | .akpInit _ => True
  | .envRxpin _ => True

/-- The operation codes of R84. -/
def listedCodes : List Byte :=
  [0x00#8, 0x01#8, 0x02#8, 0x05#8, 0x08#8, 0x0B#8, 0x0C#8, 0x0D#8, 0x10#8, 0x11#8, 0x20#8, 0x21#8, 0x22#8,
   0x30#8, 0x31#8, 0x32#8, 0x40#8, 0x41#8, 0x42#8, 0x43#8, 0x44#8, 0x50#8, 0x51#8, 0x60#8, 0x70#8, 0x71#8]

/-- The command is the first its agent has issued, and that agent is inside no await. `rest` is the issued commands without it. -/
def takesNext (s : State) (c : Issue) (rest : List Issue) : Prop :=
  (∀ w ∈ s.waiting, w.agent ≠ c.agent) ∧
  ∃ front back, s.pending = front ++ c :: back ∧ rest = front ++ back ∧ ∀ d ∈ front, d.agent ≠ c.agent

/-- The agent is inside this await, which has come to hold. `rest` is the waiting agents without it. -/
def resumesNext (s : State) (w : Waiter) (rest : List Waiter) : Prop :=
  ∃ older newer, s.waiting = older ++ w :: newer ∧ rest = older ++ newer ∧
    ready w.instr s = true ∧ ∀ v ∈ older, v.agent ≠ w.agent

/-- The agent has no step: it is inside an await that does not hold, or is inside none and has no command issued. -/
def hasNoStep (s : State) (a : Agent) : Prop :=
  (∃ older w newer, s.waiting = older ++ w :: newer ∧ w.agent = a ∧ ready w.instr s = false ∧ ∀ v ∈ older, v.agent ≠ a) ∨
  ((∀ w ∈ s.waiting, w.agent ≠ a) ∧ ∀ c ∈ s.pending, c.agent ≠ a)

/-- The rows of R84 whose result column is not empty. -/
def emits : Instr → Prop
  | .rbPushBulkTxq _ => True
  | .rbAvailableTxq => True
  | .rbPopRxq => True
  | .rbPopBulkRxq _ => True
  | .rbAvailableRxq => True
  | .crc8Step _ _ => True
  | .crc8 _ _ => True
  | .akpFeed _ _ => True
  | .rbInitTxq => False
  | .rbPushTxq _ => False
  | .rbInitRxq => False
  | .btSync => False
  | .btAdvance _ => False
  | .btWait => False
  | .txStart => False
  | .txStep => False
  | .txStop => False
  | .rxStart => False
  | .rxEdge => False
  | .rxProcess => False
  | .rxFlush => False
  | .rxStop => False
  | .akpInit _ => False
  | .cfgSet _ _ _ _ => False
  | .envTick _ => False
  | .envRxpin _ => False

/-- `avail(Q)` from the indices and the flag, with `(tail - start) mod N` written out (R141). -/
def availOf {α : Type} (q : RingBuf α) : Nat :=
  if q.full then q.buf.length
  else if q.start ≤ q.tail then q.tail - q.start
  else q.tail + q.buf.length - q.start

/-- The operations of a ring (R142 to R146). -/
inductive RingOp (α : Type) where
  | init
  | push (v : α)
  | pushBulk (vs : List α)
  | pop
  | popBulk (n : Nat)

/-- An operation on a ring: the elements it returns, and the ring after it. -/
def ringAct {α : Type} (q : RingBuf α) : RingOp α → List α × RingBuf α
  | .init => ([], ringInit q)
  | .push v => ([], (ringPush q v).1)
  | .pushBulk vs => ([], (vs.take (bulkCount vs q)).foldl (fun r v => (ringPush r v).1) q)
  | .pop => ((ringPop q).1.toList, (ringPop q).2)
  | .popBulk n => ringPopMany (min n (ringAvail q)) q

/-- The same operation on the abstract content, a list of at most N elements (R152). -/
def listAct {α : Type} (N : Nat) (C : List α) : RingOp α → List α × List α
  | .init => ([], [])
  | .push v => ([], (C ++ [v]).drop (C.length + 1 - N))
  | .pushBulk vs => ([], C ++ vs.take (N - C.length))
  | .pop => (C.take 1, C.drop 1)
  | .popBulk n => (C.take n, C.drop n)

/-- A sequence of operations on a ring: what each returned, and the ring at the end. -/
def ringRun {α : Type} : List (RingOp α) → RingBuf α → List (List α) × RingBuf α
  | [], q => ([], q)
  | o :: r, q => ((ringAct q o).1 :: (ringRun r (ringAct q o).2).1, (ringRun r (ringAct q o).2).2)

/-- The same sequence on the abstract content. -/
def listRun {α : Type} (N : Nat) : List (RingOp α) → List α → List (List α) × List α
  | [], C => ([], C)
  | o :: r, C => ((listAct N C o).1 :: (listRun N r (listAct N C o).2).1, (listRun N r (listAct N C o).2).2)

/-- Rounds of the bit timer, each BT_WAIT taken `late` ticks after its deadline and followed by BT_ADVANCE `P`: the times at which the
waits ended, and the state at the end (R174). -/
def timerRounds (P : Nat) : List Nat → State → List Nat × State
  | [], s => ([], s)
  | late :: r, s =>
    match exec .btWait { s with now := max s.now s.tx.d + late } with
    | .next u =>
      match exec (.btAdvance P) u with
      | .next v => (u.now :: (timerRounds P r v).1, (timerRounds P r v).2)
      | _ => ([], u)
    | _ => ([], s)

/-- TX_STEPs in turn, each taken `late` ticks after its deadline: the time and the tx pin's level after each (R186). -/
def sendLevels : List Nat → State → List (Nat × Level)
  | [], _ => []
  | late :: r, s =>
    match exec .txStep { s with now := max s.now s.tx.d + late } with
    | .next u => (u.now, u.pin.tx) :: sendLevels r u
    | _ => []

/-- PUSH_BIT of each level in turn (R216). -/
def pushLevels (p : Params) (c : Cfg) : List Level → BitPath → BitPath
  | [], k => k
  | v :: r, k => pushLevels p c r (pushBit p c v k)

/-- A lowercase hex digit (R92). -/
def hexByte (v : Nat) : Byte := if v < 10 then BitVec.ofNat 8 (0x30 + v) else BitVec.ofNat 8 (0x57 + v)

/-- Four lowercase hex digits, most significant first (R62, R95). -/
def hex4 (n : Nat) : List Byte := [n / 4096 % 16, n / 256 % 16, n / 16 % 16, n % 16].map hexByte

/-- No `UPPER UPPER '^'` stands in a byte list (R279). -/
def noTagStartIn (d : List Byte) : Prop :=
  ∀ i a b, d[i]? = some a → d[i + 1]? = some b → d[i + 2]? = some caret → ¬(isUpper a = true ∧ isUpper b = true)

end Sys2Proof.Claims

open Sys2Proof Sys2Proof.Machine Sys2Proof.Claims

/-! ## Encodings -/

/-- R80, R83, R84: the decoder accepts a command exactly when it is the encoding of an instruction, and answers that instruction. -/
def Obligations.DecodeAcceptsExactlyEncodings : Prop :=
  ∀ code ops i, decode code ops = .ok i ↔ encode i = (code, ops)

/-- R84, R97: words written out from the spec's tables decode to the instructions they stand for. -/
def Obligations.SpecCommandsDecode : Prop :=
  decode 0x60#8 [.baud 9600, .bool false, .bool false, .bool false] = .ok (.cfgSet 9600 false false false) ∧
  decode 0x01#8 [.byte 0x41#8] = .ok (.rbPushTxq 0x41#8) ∧
  decode 0x0C#8 [.nat 8] = .ok (.rbPopBulkRxq 8) ∧
  decode 0x11#8 [.bytes [0x4C#8, 0x41#8], .byte 0x00#8] = .ok (.crc8 [0x4C#8, 0x41#8] 0x00#8) ∧
  decode 0x22#8 [] = .ok .btWait ∧
  decode 0x31#8 [] = .ok .txStep ∧
  decode 0x43#8 [] = .ok .rxFlush ∧
  decode 0x51#8 [.inst 0, .byte 0x4C#8] = .ok (.akpFeed 0 0x4C#8) ∧
  decode 0x70#8 [.nat 100] = .ok (.envTick 100)

/-- R85: a code outside R84 is refused as unlisted or, for the four codes of a role the host has not, by that name; a listed code with
operands of another shape is refused; a step that takes a refused command is refused; and an instruction issued by an agent its row does
not name is refused. The names of the refusals are the model's (log 14), the turns by which a step takes a command are too (log 1, 2),
and so is the order of the grounds, by which a wrong agent is named before every other ground (log 23). -/
def Obligations.CommandsOutsideTheMapAreRefused : Prop :=
  (∀ code, (operandTypes code).isSome = true ↔ code ∈ listedCodes) ∧
  (∀ code ops, code ∈ [0x09#8, 0x0A#8, 0x03#8, 0x04#8] → decode code ops = .error (.roleRefused code)) ∧
  (∀ code ops, code ∉ listedCodes → code ∉ [0x09#8, 0x0A#8, 0x03#8, 0x04#8] →
    decode code ops = .error (.unlistedCode code)) ∧
  (∀ code ops tys, operandTypes code = some tys → ops.map operandType ≠ tys →
    decode code ops = .error (.badOperands code)) ∧
  (∀ s ts c rest r, takesNext s c rest → decode c.code c.operands = .error r →
    step { s with turns := c.agent :: ts } = .refused (.noCommand r)) ∧
  (∀ i s, ¬ mayIssue s i → exec i s = .refused (.wrongAgent s.issuer))

/-! ## The step -/

/-- R10, R14, R66, R80, R327: any agent outside an await may be the next to step, whatever the others have or wait for: at its turn its
first issued command is decoded and run, with it as issuer and the command's draw, and is taken off. That the interleaving is the list
`turns` and an agent's commands stand in `pending` is the model's choice (log 1, 2). -/
def Obligations.StepRunsDecodedCommand : Prop :=
  ∀ s ts c rest i, takesNext s c rest → decode c.code c.operands = .ok i →
    step { s with turns := c.agent :: ts } =
      exec i { s with turns := ts, pending := rest, issuer := c.agent, draw := c.draw }

/-- R10, R12, R14, R327, R328: any agent whose await has come to hold may be the next to step: at its turn it leaves the await and its
instruction runs; the turn of an agent that has no step only passes, and with no turn left nothing happens. That the interleaving is the
list `turns` (log 2), and that a passing turn and a machine left alone change nothing else (log 4), are the model's choices. -/
def Obligations.WaitingAgentResumes : Prop :=
  (∀ s ts w rest, resumesNext s w rest →
    step { s with turns := w.agent :: ts } =
      exec w.instr { s with turns := ts, waiting := rest, issuer := w.agent, draw := w.draw }) ∧
  (∀ s ts a, hasNoStep s a → step { s with turns := a :: ts } = .next { s with turns := ts }) ∧
  (∀ s, s.turns = [] → step s = .next s)

/-- R12, R328: while its await does not hold, a command only puts its agent into the wait; no other field changes. The conditions are
those of R173 (BT_WAIT), R180 to R183 (TX_STEP), R201 (RX_EDGE), R204 (RX_PROCESS) and R231 (RX_FLUSH). The list of waiters is the
model's (log 3). -/
def Obligations.AwaitHoldsOnlyTheAgent : Prop :=
  ∀ s i, mayIssue s i →
    ((i = .btWait ∧ s.now < s.tx.d) ∨
     (i = .txStep ∧ (s.tx.phase = .stopped ∨ ((s.tx.phase = .busy ∨ s.tx.phase = .done) ∧ s.now < s.tx.d))) ∨
     (i = .rxEdge ∧ (s.rx.run = false ∨ (s.pin.rx ^^ s.cfg.invert) = s.rx.lv)) ∨
     (i = .rxProcess ∧ (s.rx.run = false ∨ ringEmpty s.spq = true)) ∨
     (i = .rxFlush ∧ s.rx.run = true ∧ ringEmpty s.spq = false)) →
    exec i s = .next { s with waiting := s.waiting ++ [{ agent := s.issuer, instr := i, draw := s.draw }] }

/-- R322: a refused command changes nothing of the block; the run is marked refused, and no later step clears the mark. What the run
loses is the turn and the command the step took, and nothing else: an issued command, or a waiter. That the mark, the turns and the
commands are kept so is the model's choice (log 14, 1, 2). -/
def Obligations.RefusedCommandChangesNoState : Prop :=
  (∀ r e, step r.state = .refused e → runStep r = { state := dropSelected r.state, refused := true }) ∧
  (∀ s e, step s = .refused e → ∃ ts,
    (∃ c rest, s.turns = c.agent :: ts ∧ takesNext s c rest) ∨ ∃ w rest, s.turns = w.agent :: ts ∧ resumesNext s w rest) ∧
  (∀ s ts c rest, takesNext s c rest →
    dropSelected { s with turns := c.agent :: ts } = { s with turns := ts, pending := rest }) ∧
  (∀ s ts w rest, resumesNext s w rest →
    dropSelected { s with turns := w.agent :: ts } = { s with turns := ts, waiting := rest }) ∧
  (∀ r, r.refused = true → (runStep r).refused = true)

/-- R84, R323, with the refusals of R178, R230, R231, R261, R301, R303 and the action R363 gives no move left out: every admitted command
of every row answers a next state, whatever the rest of the state is; and the one fault is RB_INIT on a ring whose other agent runs, the
model's form of having no move (log 16). Where the await of BT_WAIT, TX_STEP, RX_EDGE, RX_PROCESS or RX_FLUSH does not hold, the next
state is the model's step into the wait (log 3). -/
def Obligations.AdmittedCommandsComplete : Prop :=
  (∀ i s, mayIssue s i → admitted s i → ∃ t, exec i s = .next t) ∧
  (∀ i s f, exec i s = .fault f →
    s.issuer = .host ∧ ((i = .rbInitTxq ∧ s.tx.phase ≠ .stopped) ∨ (i = .rbInitRxq ∧ s.rx.run = true)))

/-- R22, R24 to R27, R30 to R39, R42: no instruction changes a field that its rules do not name; the rows of R84 with a result, and no
others, append one result, for the issuer; the trace only grows, by the instructions that log or note; only an await adds a waiter, the
issuer in this instruction (log 3); the turns, the issued commands, the issuer and the draw are untouched. -/
def Obligations.FieldsHaveOnlyTheirWriters : Prop :=
  ∀ i s t, exec i s = .next t →
    (t.now ≠ s.now → ∃ n, i = .envTick n) ∧
    (t.pin.rx ≠ s.pin.rx → ∃ v, i = .envRxpin v) ∧
    (t.pin.tx ≠ s.pin.tx → i = .txStart ∨ i = .txStep) ∧
    (t.cfg ≠ s.cfg → ∃ n p d v, i = .cfgSet n p d v) ∧
    (t.tx.run ≠ s.tx.run → i = .txStart ∨ i = .txStop) ∧
    (t.tx.d ≠ s.tx.d → i = .txStart ∨ i = .btSync ∨ (∃ d, i = .btAdvance d) ∨ i = .txStep) ∧
    (t.tx.frame ≠ s.tx.frame ∨ t.tx.phase ≠ s.tx.phase ∨ t.tx.idx ≠ s.tx.idx → i = .txStart ∨ i = .txStep) ∧
    (t.rx.run ≠ s.rx.run → i = .rxStart ∨ i = .rxStop) ∧
    (t.rx.e ≠ s.rx.e → i = .rxStart ∨ i = .rxEdge ∨ i = .rxFlush) ∧
    (t.rx.lv ≠ s.rx.lv → i = .rxStart ∨ i = .rxEdge) ∧
    (t.rx.pmod ≠ s.rx.pmod ∨ t.rx.sw ≠ s.rx.sw ∨ t.rx.bw ≠ s.rx.bw →
      i = .rxStart ∨ i = .rxProcess ∨ i = .rxFlush) ∧
    (t.txq ≠ s.txq → i = .rbInitTxq ∨ (∃ b, i = .rbPushTxq b) ∨ (∃ bs, i = .rbPushBulkTxq bs) ∨ i = .txStep) ∧
    (t.rxq ≠ s.rxq →
      i = .rbInitRxq ∨ i = .rbPopRxq ∨ (∃ m, i = .rbPopBulkRxq m) ∨ i = .rxProcess ∨ i = .rxFlush) ∧
    (t.spq ≠ s.spq → i = .rxStart ∨ i = .rxEdge ∨ i = .rxProcess) ∧
    (t.akp ≠ s.akp → (∃ h, i = .akpInit h) ∨ (∃ h c, i = .akpFeed h c)) ∧
    (t.pinErr ≠ s.pinErr → i = .txStart ∨ i = .txStep ∨ i = .rxStart ∨ i = .rxEdge) ∧
    (emits i → ∃ v, t.results = s.results ++ [(s.issuer, v)]) ∧
    (¬ emits i → t.results = s.results) ∧
    (∃ r, t.trace = s.trace ++ r) ∧
    (t.trace ≠ s.trace →
      (∃ b, i = .rbPushTxq b) ∨ (∃ bs, i = .rbPushBulkTxq bs ∧ ¬ RingOk s.txq) ∨ i = .txStart ∨ i = .txStep ∨ i = .rxStart ∨
        i = .rxEdge ∨ i = .rxProcess ∨ i = .rxFlush) ∧
    (t.waiting ≠ s.waiting →
      (i = .btWait ∨ i = .txStep ∨ i = .rxEdge ∨ i = .rxProcess ∨ i = .rxFlush) ∧
        t.waiting = s.waiting ++ [{ agent := s.issuer, instr := i, draw := s.draw }]) ∧
    t.turns = s.turns ∧ t.pending = s.pending ∧ t.issuer = s.issuer ∧ t.draw = s.draw

/-! ## crc8 -/

/-- R122: CRC8_STEP emits the update function's value, for any agent and every operand pair, and writes no state. -/
def Obligations.Crc8StepEmitsUpdate : Prop :=
  (∀ c b, decode 0x10#8 [.byte c, .byte b] = .ok (.crc8Step c b)) ∧
  (∀ c b s, exec (.crc8Step c b) s =
    .next { s with results := s.results ++ [(s.issuer, .byte (Config.crc8Step c b))] }) ∧
  crc8StepRef 0x00#8 0x41#8 = 0xC0#8

/-- R123 with R121: CRC8 emits the left fold of the update over the bytes from the seed, for any agent, and writes no state. -/
def Obligations.Crc8EmitsFold : Prop :=
  (∀ bs seed, decode 0x11#8 [.bytes bs, .byte seed] = .ok (.crc8 bs seed)) ∧
  (∀ bs seed s, exec (.crc8 bs seed) s =
    .next { s with results := s.results ++ [(s.issuer, .byte (bs.foldl Config.crc8Step seed))] }) ∧
  crc8With crc8StepRef [0x4C#8, 0x41#8] 0x00#8 = 0x67#8 ∧
  crc8With crc8StepRef [0x2D#8, 0x33#8, 0x33#8, 0x30#8, 0x30#8, 0x30#8] 0x67#8 = 0x80#8

/-- R125, R126: for every instance, the checksum of data from the tag's checksum is the checksum of tag then data, so a record's
checksum is that of its two tag bytes followed by its data. -/
def Obligations.CrcChains : Prop :=
  ∀ f : Byte → Byte → Byte,
    (∀ t d, crc8With f d (crc8With f t 0x00#8) = crc8With f (t ++ d) 0x00#8) ∧
    (∀ a b d, recordCrc f (a, b) d = crc8With f ([a, b] ++ d) 0x00#8)

/-! ## Ring buffers -/

/-- R142, R363: RB_INIT sets the indices and the flag to 0 and nothing else; while the other agent of the ring runs it has no move,
which is a fault here (the model's choice, log 16). That the storage stays as it was is the model's choice too (log 9). -/
def Obligations.RbInitEmptiesRing : Prop :=
  ∀ s, s.issuer = .host →
    (s.tx.phase = .stopped →
      exec .rbInitTxq s = .next { s with txq := { s.txq with start := 0, tail := 0, full := false } }) ∧
    (s.tx.phase ≠ .stopped → exec .rbInitTxq s = .fault .liveRingInit) ∧
    (s.rx.run = false →
      exec .rbInitRxq s = .next { s with rxq := { s.rxq with start := 0, tail := 0, full := false } }) ∧
    (s.rx.run = true → exec .rbInitRxq s = .fault .liveRingInit)

/-- R143: RB_PUSH stores at the tail and moves it; on a full ring the start moves with it and the overflow is noted; otherwise the flag
is set when the tail reaches the start. -/
def Obligations.RbPushStoresAtTail : Prop :=
  ∀ s b, s.issuer = .host →
    (s.txq.full = true →
      exec (.rbPushTxq b) s = .next { s with
        txq := { buf := s.txq.buf.set s.txq.tail b
                 start := (s.txq.tail + 1) % s.txq.buf.length
                 tail := (s.txq.tail + 1) % s.txq.buf.length
                 full := true }
        trace := s.trace ++ [.note .ringOverflow] }) ∧
    (s.txq.full = false →
      exec (.rbPushTxq b) s = .next { s with
        txq := { buf := s.txq.buf.set s.txq.tail b
                 start := s.txq.start
                 tail := (s.txq.tail + 1) % s.txq.buf.length
                 full := decide ((s.txq.tail + 1) % s.txq.buf.length = s.txq.start) } })

/-- R150, R152: for every sequence of operations on a ring, the concrete rules return what the abstract bounded list returns, leave the
ring holding that list, keep its indices in range, and never hold more than N elements. -/
def Obligations.RingRefinesBoundedList : Prop :=
  ∀ (α : Type) (ops : List (RingOp α)) (q : RingBuf α), RingOk q →
    (ringRun ops q).1 = (listRun (ringCap q) ops (ringContents q)).1 ∧
    ringContents (ringRun ops q).2 = (listRun (ringCap q) ops (ringContents q)).2 ∧
    ringAvail (ringRun ops q).2 = (ringContents (ringRun ops q).2).length ∧
    (ringContents (ringRun ops q).2).length ≤ ringCap q ∧
    RingOk (ringRun ops q).2 ∧ ringCap (ringRun ops q).2 = ringCap q

/-- R144: RB_PUSH_BULK writes what fits in the free space, emits that count, never overwrites, and leaves the ring full exactly when
it has filled it. -/
def Obligations.RbPushBulkFillsFreeSpace : Prop :=
  (∀ bs, decode 0x02#8 [.bytes bs] = .ok (.rbPushBulkTxq bs)) ∧
  ∀ s bs, s.issuer = .host → RingOk s.txq →
    ∃ q, exec (.rbPushBulkTxq bs) s =
        .next { s with
          txq := q
          results := s.results ++
            [(.host, .count (min bs.length (ringCap s.txq - (ringContents s.txq).length)))] } ∧
      RingOk q ∧ ringCap q = ringCap s.txq ∧
      ringContents q = ringContents s.txq ++ bs.take (ringCap s.txq - (ringContents s.txq).length) ∧
      (q.full = true ↔ (ringContents q).length = ringCap q)

/-- R145: RB_POP emits and removes the oldest element; on an empty ring it emits None and changes nothing. -/
def Obligations.RbPopTakesOldest : Prop :=
  ∀ s, s.issuer = .host → RingOk s.rxq →
    (∀ v rest, ringContents s.rxq = v :: rest →
      exec .rbPopRxq s = .next { s with
        rxq := { s.rxq with start := (s.rxq.start + 1) % s.rxq.buf.length, full := false }
        results := s.results ++ [(.host, .byteOpt (some v))] } ∧
      ringContents { s.rxq with start := (s.rxq.start + 1) % s.rxq.buf.length, full := false } = rest) ∧
    (ringContents s.rxq = [] →
      exec .rbPopRxq s = .next { s with results := s.results ++ [(.host, .byteOpt none)] })

/-- R146: RB_POP_BULK emits and removes the oldest `max` elements, or all of them where there are fewer. -/
def Obligations.RbPopBulkTakesPrefix : Prop :=
  (∀ max, decode 0x0C#8 [.nat max] = .ok (.rbPopBulkRxq max)) ∧
  ∀ s max, s.issuer = .host → RingOk s.rxq →
    ∃ q, exec (.rbPopBulkRxq max) s =
        .next { s with
          rxq := q
          results := s.results ++ [(.host, .bytes ((ringContents s.rxq).take max))] } ∧
      RingOk q ∧ ringCap q = ringCap s.rxq ∧ ringContents q = (ringContents s.rxq).drop max ∧
      (max = 0 ∨ ringContents s.rxq = [] → q = s.rxq)

/-- R148 with R141: RB_AVAILABLE emits `avail(Q)`, for either ring, and writes nothing: N on a full ring, 0 on an empty one, else
`(tail - start) mod N`. That is how many elements the ring holds, the i-th being the one in slot `(start + i) mod N`. -/
def Obligations.RbAvailableCountsElements : Prop :=
  decode 0x05#8 [] = .ok .rbAvailableTxq ∧ decode 0x0D#8 [] = .ok .rbAvailableRxq ∧
  (∀ s, s.issuer = .host → RingOk s.txq →
    exec .rbAvailableTxq s = .next { s with results := s.results ++ [(.host, .count (availOf s.txq))] }) ∧
  (∀ s, s.issuer = .host → RingOk s.rxq →
    exec .rbAvailableRxq s = .next { s with results := s.results ++ [(.host, .count (availOf s.rxq))] }) ∧
  (∀ q : RingBuf Byte, RingOk q →
    (q.full = true → availOf q = q.buf.length) ∧
    (q.full = false → q.start = q.tail → availOf q = 0) ∧
    (q.full = false → (availOf q : Int) = ((q.tail : Int) - q.start) % q.buf.length) ∧
    (ringContents q).length = availOf q ∧
    (∀ i, i < availOf q → (ringContents q)[i]? = q.buf[(q.start + i) % q.buf.length]?))

/-! ## Bit timer -/

/-- R171: BT_SYNC sets the deadline to `now`; HOST while TX.run = 1 is refused. -/
def Obligations.BtSyncSetsDeadline : Prop :=
  decode 0x20#8 [] = .ok .btSync ∧
  (∀ s, s.issuer = .txa ∨ (s.issuer = .host ∧ s.tx.run = false) →
    exec .btSync s = .next { s with tx := { s.tx with d := s.now } }) ∧
  (∀ s, s.issuer = .host → s.tx.run = true → exec .btSync s = .refused (.wrongAgent .host))

/-- R172: BT_ADVANCE adds its operand to the deadline; HOST while TX.run = 1 is refused. -/
def Obligations.BtAdvanceAddsPeriod : Prop :=
  (∀ d, decode 0x21#8 [.nat d] = .ok (.btAdvance d)) ∧
  (∀ s d, s.issuer = .txa ∨ (s.issuer = .host ∧ s.tx.run = false) →
    exec (.btAdvance d) s = .next { s with tx := { s.tx with d := s.tx.d + d } }) ∧
  (∀ s d, s.issuer = .host → s.tx.run = true → exec (.btAdvance d) s = .refused (.wrongAgent .host))

/-- R173: BT_WAIT ends at any `now >= TX.D` and changes nothing; before that its agent waits, which is a step into the list of waiters
here (the model's choice, log 3); HOST while TX.run = 1 is refused. -/
def Obligations.BtWaitEndsAtDeadline : Prop :=
  decode 0x22#8 [] = .ok .btWait ∧
  (∀ s, s.issuer = .txa ∨ (s.issuer = .host ∧ s.tx.run = false) →
    (s.tx.d ≤ s.now → exec .btWait s = .next s) ∧
    (s.now < s.tx.d → exec .btWait s =
      .next { s with waiting := s.waiting ++ [{ agent := s.issuer, instr := .btWait, draw := s.draw }] })) ∧
  (∀ s, s.issuer = .host → s.tx.run = true → exec .btWait s = .refused (.wrongAgent .host))

/-- R174: after k waits and advances by P the deadline is k*P later, whatever the times at which the waits ended; the j-th wait ends at
`D0 + j*P` or later; and no round leaves the agent waiting. -/
def Obligations.TimerDoesNotDrift : Prop :=
  ∀ P lates s, s.issuer = .txa →
    (timerRounds P lates s).2.tx.d = s.tx.d + lates.length * P ∧
    (timerRounds P lates s).1.length = lates.length ∧
    (∀ j t, (timerRounds P lates s).1[j]? = some t → s.tx.d + j * P ≤ t) ∧
    (timerRounds P lates s).2.waiting = s.waiting

/-! ## Transmitter -/

/-- R86, R175, R176: a frame has B levels: the start bit 0, the data bits least significant first, with parity on their exclusive or,
and the stop bits 1. -/
def Obligations.FrameLevelsLayout : Prop :=
  ∀ c b,
    (frameLevels c b).length = frameBits c ∧
    (frameLevels c b)[0]? = some false ∧
    (∀ i, i < 8 → (frameLevels c b)[i + 1]? = some (b.getLsbD i)) ∧
    (c.parity = true → (frameLevels c b)[9]? =
      some (b.getLsbD 0 ^^ b.getLsbD 1 ^^ b.getLsbD 2 ^^ b.getLsbD 3 ^^ b.getLsbD 4 ^^ b.getLsbD 5 ^^ b.getLsbD 6 ^^
        b.getLsbD 7)) ∧
    (∀ j, 9 + parityBits c ≤ j → j < frameBits c → (frameLevels c b)[j]? = some true)

/-- R178: TX_START drives the idle level, sets the pre-frame high time and enters IDLE; a failed pin write is logged and the rest
happens; it is refused without a configuration, while running, and while a frame is being finished. -/
def Obligations.TxStartEntersIdle : Prop :=
  ∀ s, s.issuer = .host →
    (s.cfg.valid = true → s.tx.run = false → s.tx.phase = .stopped →
      (s.draw = true → exec .txStart s = .next { s with
        pin := { s.pin with tx := true ^^ s.cfg.invert }
        tx := { run := true, d := s.now + stopBits s.cfg * pNom Config.params s.cfg, frame := [], phase := .idle,
                idx := 0 } }) ∧
      (s.draw = false → exec .txStart s = .next { s with
        pinErr := s.pinErr + 1
        trace := s.trace ++ [.logError .pinWriteFail]
        tx := { run := true, d := s.now + stopBits s.cfg * pNom Config.params s.cfg, frame := [], phase := .idle,
                idx := 0 } })) ∧
    (s.cfg.valid = false ∨ s.tx.run = true ∨ s.tx.phase ≠ .stopped → ∃ r, exec .txStart s = .refused r)

/-- R179, R184: TX_STOP clears the run flag and nothing else; a BUSY step takes place alike whether the flag is set or clear. -/
def Obligations.TxStopIsCooperative : Prop :=
  (∀ s, s.issuer = .host → exec .txStop s = .next { s with tx := { s.tx with run := false } }) ∧
  (∀ s t, s.tx.phase = .busy → exec .txStep s = .next t →
    exec .txStep { s with tx := { s.tx with run := false } } = .next { t with
      tx := { t.tx with run := false } })

/-- R181: in IDLE the stop flag is looked at first; then an empty TXQ changes nothing, and a byte becomes the frame, with the bit clock
restarted at `max(TX.D, now)`. -/
def Obligations.TxStepInIdle : Prop :=
  ∀ s, s.issuer = .txa → s.tx.phase = .idle → RingOk s.txq →
    (s.tx.run = false → exec .txStep s = .next { s with tx := { s.tx with phase := .stopped } }) ∧
    (s.tx.run = true → ringContents s.txq = [] → exec .txStep s = .next s) ∧
    (∀ b rest, s.tx.run = true → ringContents s.txq = b :: rest →
      exec .txStep s = .next { s with
        txq := { s.txq with start := (s.txq.start + 1) % s.txq.buf.length, full := false }
        tx := { s.tx with frame := frameLevels s.cfg b, idx := 0, d := max s.tx.d s.now, phase := .busy } })

/-- R182, R185: in BUSY, once the deadline has come, one level is written with the inversion applied; a failed write keeps the pin and is
logged; the deadline, the index and the phase advance alike. -/
def Obligations.TxStepInBusy : Prop :=
  ∀ s v, s.issuer = .txa → s.tx.phase = .busy → s.tx.d ≤ s.now → s.tx.frame[s.tx.idx]? = some v →
    (s.draw = true → exec .txStep s = .next { s with
      pin := { s.pin with tx := v ^^ s.cfg.invert }
      tx := { s.tx with d := s.tx.d + pNom Config.params s.cfg
                        idx := s.tx.idx + 1
                        phase := if s.tx.idx + 1 = frameBits s.cfg then .done else .busy } }) ∧
    (s.draw = false → exec .txStep s = .next { s with
      pinErr := s.pinErr + 1
      trace := s.trace ++ [.logError .pinWriteFail]
      tx := { s.tx with d := s.tx.d + pNom Config.params s.cfg
                        idx := s.tx.idx + 1
                        phase := if s.tx.idx + 1 = frameBits s.cfg then .done else .busy } })

/-- R183: in DONE, once the last stop bit has lasted its period, the stop flag is looked at first; then an empty TXQ gives IDLE, and a
byte becomes the frame with the deadline unchanged. -/
def Obligations.TxStepInDone : Prop :=
  ∀ s, s.issuer = .txa → s.tx.phase = .done → s.tx.d ≤ s.now → RingOk s.txq →
    (s.tx.run = false → exec .txStep s = .next { s with tx := { s.tx with phase := .stopped } }) ∧
    (s.tx.run = true → ringContents s.txq = [] →
      exec .txStep s = .next { s with tx := { s.tx with phase := .idle } }) ∧
    (∀ b rest, s.tx.run = true → ringContents s.txq = b :: rest →
      exec .txStep s = .next { s with
        txq := { s.txq with start := (s.txq.start + 1) % s.txq.buf.length, full := false }
        tx := { s.tx with frame := frameLevels s.cfg b, idx := 0, phase := .busy } })

/-- R186: a frame's levels are written in order, inverted as configured; each no earlier than its slot's deadline, whatever the
latencies, and exactly at it with none. -/
def Obligations.FrameWaveform : Prop :=
  ∀ s b lates, s.issuer = .txa → s.draw = true → s.tx.phase = .busy → s.tx.idx = 0 →
    s.tx.frame = frameLevels s.cfg b → lates.length = frameBits s.cfg →
    (sendLevels lates s).map (·.2) = (frameLevels s.cfg b).map (· ^^ s.cfg.invert) ∧
    (∀ i t v, (sendLevels lates s)[i]? = some (t, v) → s.tx.d + i * pNom Config.params s.cfg ≤ t) ∧
    (s.now ≤ s.tx.d → lates = List.replicate (frameBits s.cfg) 0 →
      (sendLevels lates s).map (·.1) =
        (List.range (frameBits s.cfg)).map (fun i => s.tx.d + i * pNom Config.params s.cfg))

/-- R30 to R33, R178, R182: every step keeps the transmitter's sequencer good (`TxOk`). -/
def Obligations.StepKeepsTransmitterOk : Prop :=
  ∀ s s', TxOk s → step s = .next s' → TxOk s'

/-- R185, R305, R306, R321, R326: a step counts at most one pin failure, with its trace entry; a pin failure is counted only where the
draw of that step is a failure, so under NO_PIN_FAIL none is. That the draw comes with the command is the model's choice (log 6). -/
def Obligations.PinFailuresAreCounted : Prop :=
  (∀ i s t, exec i s = .next t →
    t.pinErr = s.pinErr ∨
    (s.draw = false ∧ t.pinErr = s.pinErr + 1 ∧
      (t.trace = s.trace ++ [.logError .pinWriteFail] ∨ t.trace = s.trace ++ [.logError .pinReadFail]))) ∧
  (∀ s s', NoPinFail s → step s = .next s' → s'.pinErr = s.pinErr ∧ NoPinFail s')

/-! ## Receiver -/

/-- R205: BLEND changes the period by the floor of (63*old + d)/64 for a raw duration within 75% to 125% of it, both ends included, and
not otherwise; a period of at least 1 stays at least 1. -/
def Obligations.BlendTracksPeriod : Prop :=
  (∀ pm d, 3 * pm ≤ 4 * d → 4 * d ≤ 5 * pm → blend pm d = (63 * pm + d) / 64) ∧
  (∀ pm d, 4 * d < 3 * pm ∨ 5 * pm < 4 * d → blend pm d = pm) ∧
  (∀ pm d, 1 ≤ pm → 1 ≤ blend pm d)

/-- R209, R210, R211: RELAX makes its eleven passes over the original durations, newest entry to entry 1. CORRECT moves into an entry
what it lacks of a whole multiple of the period, as far as the next-older entry has it, if it is shorter than one period or lacks at
most (100 - level)% of one, the bound included; else it moves nothing. So the sum and the number of durations stay, and entry 0 is never
topped up. The last clause is R210's worked example. -/
def Obligations.RelaxKeepsTotal : Prop :=
  (∀ P sw,
    relax P sw =
      [100, 95, 90, 85, 80, 75, 70, 65, 60, 55, 50].foldl
        (fun w level => (List.range (w.length - 1)).foldl (fun v j => correct P level (w.length - 1 - j) v) w)
        (sw.map (·.orig)) ∧
    (relax P sw).sum = (sw.map (·.orig)).sum ∧ (relax P sw).length = sw.length ∧
    (relax P sw).getD 0 0 ≤ (sw.map (·.orig)).getD 0 0) ∧
  (∀ P level i w x donor short, 0 < P → 1 ≤ i → w[i]? = some x → w[i - 1]? = some donor →
    (x < P → short = P - x) → (P ≤ x → short < P ∧ (x + short) % P = 0) →
    (0 < short → x < P ∨ 100 * short ≤ (100 - level) * P →
      correct P level i w = (w.set (i - 1) (donor - min short donor)).set i (x + min short donor)) ∧
    (short = 0 ∨ (P ≤ x ∧ (100 - level) * P < 100 * short) → correct P level i w = w)) ∧
  relax 100 ([0, 113, 78, 129].map (fun d => { orig := d, lvl := true })) = [0, 91, 100, 129]

/-- R212: RoundDiv is the nearest integer to x / P, halves rounded up. -/
def Obligations.RoundDivIsNearest : Prop :=
  ∀ x P, 0 < P → 2 * P * roundDiv x P ≤ 2 * x + P ∧ 2 * x + P < 2 * P * (roundDiv x P + 1)

/-- R86, R89, R215, R220, R225, R226: wherever the leading stop bits and a byte's frame stand in the BitWindow, the frame check accepts
them and the decoded byte is that byte, in every framing. The frame check holds exactly when R215's four conditions do, so a low stop
bit, leading or trailing, a high start bit or, with parity on, a wrong parity bit makes it false; and a run of high bits is no frame. -/
def Obligations.FrameCodecRoundTrips : Prop :=
  (∀ c b pre post (bw : List BitEntry),
    bw.map (·.lvl) = pre ++ List.replicate (stopBits c) true ++ frameLevels c b ++ post →
    frameValid c bw pre.length = true ∧ decodeByte c bw pre.length = b) ∧
  (∀ c (bw : List BitEntry) q, q + scoredBits c ≤ bw.length →
    (frameValid c bw q = true ↔
      (∀ j, j < stopBits c → (bw.map (·.lvl))[q + j]? = some true) ∧
      (bw.map (·.lvl))[q + stopBits c]? = some false ∧
      (c.parity = true → (bw.map (·.lvl))[q + stopBits c + 9]? =
        some (((List.range 8).map (fun i => (bw.map (·.lvl)).getD (q + stopBits c + 1 + i) false)).foldl (· ^^ ·) false)) ∧
      (∀ j, frameBits c ≤ j → j < scoredBits c → (bw.map (·.lvl))[q + j]? = some true))) ∧
  (∀ c (bw : List BitEntry) q, q + scoredBits c ≤ bw.length → (∀ e ∈ bw, e.lvl = true) → frameValid c bw q = false)

/-- R221: Pick gives nothing when no position of 0 to hi scores at least 1, and else the earliest position of the highest score. -/
def Obligations.PickIsEarliestBest : Prop :=
  ∀ (bw : List BitEntry) hi,
    (pick bw hi = none ↔ ∀ i, i ≤ hi → scoreAt bw i < 1) ∧
    (∀ q, pick bw hi = some q ↔
      q ≤ hi ∧ 1 ≤ scoreAt bw q ∧ (∀ i, i ≤ hi → scoreAt bw i ≤ scoreAt bw q) ∧ (∀ i, i < q → scoreAt bw i < scoreAt bw q))

/-- R213, R216 to R219, R222 to R224, R227, R229: pushing n bits of a level is n times PUSH_BIT. PUSH_BIT appends the bit unscored,
scores and extracts. SCORE writes, at the bit that begins the newest L bits, 1 plus the score of the bit B further back (0 where that is
negative or out of the window) if those bits are a frame, and changes no other entry. EXTRACT and EXTRACT_FINAL take, as long as enough
bits are left, what Pick gives among their positions or drop these. They only ever drop the oldest bits; after EXTRACT fewer than 2B+L-1
are left and after EXTRACT_FINAL fewer than L; a consumed frame's bits, and all older ones, are gone, so none of them is decoded twice. -/
def Obligations.ExtractionDropsOldestBits : Prop :=
  ∀ c (k : BitPath),
    (∀ p l, pushBits p c l 0 k = k) ∧
    (∀ p l n, pushBits p c l (n + 1) k = pushBits p c l n (pushBit p c l k)) ∧
    (∀ p l, pushBit p c l k = extract c { k with
      bw := scoreNewest c ((if k.bw.length = p.bitwinCap then k.bw.drop 1 else k.bw) ++ [{ lvl := l, score := 0 }]) }) ∧
    (k.bw.length < scoredBits c → scoreNewest c k.bw = k.bw) ∧
    (∀ q e, q + scoredBits c = k.bw.length → k.bw[q]? = some e →
      (e.score = 0 → frameValid c k.bw q = true → q < frameBits c →
        scoreNewest c k.bw = k.bw.set q { lvl := e.lvl, score := 1 }) ∧
      (e.score = 0 → frameValid c k.bw q = true → ∀ j f, j + frameBits c = q → k.bw[j]? = some f →
        scoreNewest c k.bw = k.bw.set q { lvl := e.lvl, score := 1 + max f.score 0 }) ∧
      (e.score ≠ 0 ∨ frameValid c k.bw q = false → scoreNewest c k.bw = k.bw)) ∧
    (k.bw.length < 2 * frameBits c + scoredBits c - 1 → extract c k = k) ∧
    (2 * frameBits c + scoredBits c - 1 ≤ k.bw.length → extract c k = extract c (extractOne c (frameBits c - 1) k)) ∧
    (k.bw.length < scoredBits c → extractFinal c k = k) ∧
    (scoredBits c ≤ k.bw.length →
      extractFinal c k = extractFinal c (extractOne c (min (frameBits c - 1) (k.bw.length - scoredBits c)) k)) ∧
    (∀ hi q, pick k.bw hi = some q → extractOne c hi k = consume c q k) ∧
    (∀ hi, pick k.bw hi = none → extractOne c hi k = { k with bw := k.bw.drop (hi + 1) }) ∧
    (∃ n, (extract c k).bw = k.bw.drop n) ∧
    (extract c k).bw.length < 2 * frameBits c + scoredBits c - 1 ∧
    (∃ n, (extractFinal c k).bw = k.bw.drop n) ∧
    (extractFinal c k).bw.length < scoredBits c ∧
    (∀ q, consume c q k =
      { bw := k.bw.drop (q + frameBits c)
        rxq := (ringPush k.rxq (decodeByte c k.bw q)).1
        trace := if (ringPush k.rxq (decodeByte c k.bw q)).2 then k.trace ++ [.note .ringOverflow] else k.trace })

/-- R216 to R224, R228: a frame whose leading stop bits come first in an empty BitWindow is delivered, as its byte, exactly when 2B+L-1
bits have been pushed, whatever bits follow it, and nothing is delivered before. -/
def Obligations.FirstFrameIsDelivered : Prop :=
  ∀ p c b post q tr, 37 ≤ p.bitwinCap → post.length = 2 * frameBits c - 1 →
    let bits := List.replicate (stopBits c) true ++ frameLevels c b ++ post
    (pushLevels p c bits { bw := [], rxq := q, trace := tr }).rxq = (ringPush q b).1 ∧
    (∀ n, n < bits.length → (pushLevels p c (bits.take n) { bw := [], rxq := q, trace := tr }).rxq = q)

/-- R230: RX_START reads the line (idle on a failed read, which is logged), sets the period to P_NOM, empties SPQ and the BitWindow and
seeds the span window; RXQ is kept; it is refused without a configuration and while running. That SPQ's storage stays as it was is the
model's choice (log 9). -/
def Obligations.RxStartInitialises : Prop :=
  ∀ s, s.issuer = .host →
    (s.cfg.valid = true → s.rx.run = false →
      (s.draw = true → exec .rxStart s = .next { s with
        spq := { s.spq with start := 0, tail := 0, full := false }
        rx := { run := true, e := s.now, lv := s.pin.rx ^^ s.cfg.invert, pmod := pNom Config.params s.cfg,
                sw := [{ orig := 0, lvl := true }], bw := [] } }) ∧
      (s.draw = false → exec .rxStart s = .next { s with
        pinErr := s.pinErr + 1
        trace := s.trace ++ [.logError .pinReadFail]
        spq := { s.spq with start := 0, tail := 0, full := false }
        rx := { run := true, e := s.now, lv := true, pmod := pNom Config.params s.cfg,
                sw := [{ orig := 0, lvl := true }], bw := [] } })) ∧
    (s.cfg.valid = false ∨ s.rx.run = true → ∃ r, exec .rxStart s = .refused r)

/-- R201, R202, R203: RX_EDGE, on a pending transition, pushes the span of the level that just ended and takes the new level from the
pin; on a failed read it only logs, and the transition stays pending. -/
def Obligations.RxEdgeRecordsSpan : Prop :=
  ∀ s, s.issuer = .rxc → s.rx.run = true → (s.pin.rx ^^ s.cfg.invert) ≠ s.rx.lv →
    (s.draw = true → exec .rxEdge s = .next { s with
      spq := (ringPush s.spq { dur := s.now - s.rx.e, lvl := s.rx.lv }).1
      trace := if s.spq.full then s.trace ++ [.note .ringOverflow] else s.trace
      rx := { s.rx with e := s.now, lv := s.pin.rx ^^ s.cfg.invert } }) ∧
    (s.draw = false → exec .rxEdge s = .next { s with
      pinErr := s.pinErr + 1
      trace := s.trace ++ [.logError .pinReadFail] })

/-- R204, R206, R208, R213, R214: RX_PROCESS takes the oldest span of SPQ, tracks the period with its raw duration and appends it
normalised; when the window then holds K entries, entry 1, relaxed, is converted to bits and entry 0 is dropped; else nothing more happens;
it never touches anything but SPQ, the period, the windows, RXQ and the trace. -/
def Obligations.RxProcessHandlesOneSpan : Prop :=
  ∀ s v rest, s.issuer = .rxp → s.rx.run = true → RingOk s.spq → ringContents s.spq = v :: rest →
    ∃ (q : RingBuf Span) (r : Rx) (rxq : RingBuf Byte) (tr : List TraceEntry),
      exec .rxProcess s = .next { s with spq := q, rx := r, rxq := rxq, trace := tr } ∧
      ringContents q = rest ∧ RingOk q ∧ ringCap q = ringCap s.spq ∧
      r.run = true ∧ r.e = s.rx.e ∧ r.lv = s.rx.lv ∧ r.pmod = blend s.rx.pmod v.dur ∧
      (let window := s.rx.sw ++ [{ orig := v.dur * pNom Config.params s.cfg / blend s.rx.pmod v.dur, lvl := v.lvl }]
       (s.rx.sw.length + 1 ≠ 4 → r.sw = window ∧ r.bw = s.rx.bw ∧ rxq = s.rxq ∧ tr = s.trace) ∧
       (s.rx.sw.length + 1 = 4 → r.sw = window.drop 1 ∧ ∀ x l,
         (relax (pNom Config.params s.cfg) window)[1]? = some x → window[1]?.map (·.lvl) = some l →
         ({ bw := r.bw, rxq := rxq, trace := tr } : BitPath) =
           pushBits Config.params s.cfg l (min (roundDiv x (pNom Config.params s.cfg)) 64)
             { bw := s.rx.bw, rxq := s.rxq, trace := s.trace }))

/-- R213, R223, R231: RX_FLUSH of a running receiver with SPQ empty completes. It closes the open span at `now` (`closeSpan`); pushes
every span of the window but the first, relaxed, as bits, oldest first (`spansToBits`); delivers every frame that is then complete
(`extractFinal`); and keeps the window's last span as the donor. Fewer than L bits are left, and a second RX_FLUSH at the same `now`
changes nothing. Closing does nothing where `now` is not past the last transition; else the span is tracked, normalised and appended,
and when the window then holds 4 entries, entry 1, relaxed, is pushed as bits and entry 0 is dropped. While the receiver is stopped
RX_FLUSH is refused. -/
def Obligations.RxFlushDrainsReceiver : Prop :=
  (∀ s, s.issuer = .host → s.rx.run = true → ringEmpty s.spq = true →
    let u := closeSpan Config.params s
    let spans := ((relax (pNom Config.params s.cfg) u.rx.sw).zip (u.rx.sw.map (·.lvl))).drop 1
    let k := extractFinal s.cfg (spansToBits Config.params s.cfg spans { bw := u.rx.bw, rxq := u.rxq, trace := u.trace })
    let t := { u with
      rx := { u.rx with sw := u.rx.sw.drop (u.rx.sw.length - 1), bw := k.bw }
      rxq := k.rxq
      trace := k.trace }
    exec .rxFlush s = .next t ∧ t.rx.bw.length < scoredBits s.cfg ∧ exec .rxFlush t = .next t) ∧
  (∀ s : State, s.now ≤ s.rx.e → closeSpan Config.params s = s) ∧
  (∀ s : State, s.rx.e < s.now →
    let P := pNom Config.params s.cfg
    let pm := blend s.rx.pmod (s.now - s.rx.e)
    let window := s.rx.sw ++ [{ orig := (s.now - s.rx.e) * P / pm, lvl := s.rx.lv }]
    (s.rx.sw.length + 1 ≠ 4 →
      closeSpan Config.params s = { s with rx := { s.rx with e := s.now, pmod := pm, sw := window } }) ∧
    (s.rx.sw.length + 1 = 4 → ∀ x l, (relax P window)[1]? = some x → window[1]?.map (·.lvl) = some l →
      let k := pushBits Config.params s.cfg l (min (roundDiv x P) 64) { bw := s.rx.bw, rxq := s.rxq, trace := s.trace }
      closeSpan Config.params s = { s with
        rx := { s.rx with e := s.now, pmod := pm, sw := window.drop 1, bw := k.bw }
        rxq := k.rxq
        trace := k.trace })) ∧
  (∀ p c k, spansToBits p c [] k = k) ∧
  (∀ p c x l r k, spansToBits p c ((x, l) :: r) k =
    spansToBits p c r (pushBits p c l (min (roundDiv x (pNom p c)) p.bitwinCap) k)) ∧
  (∀ s, s.issuer = .host → s.rx.run = false → exec .rxFlush s = .refused .receiverStopped)

/-- R232: RX_STOP clears the run flag and nothing else; after it RX_EDGE and RX_PROCESS only wait. -/
def Obligations.RxStopClearsRun : Prop :=
  decode 0x44#8 [] = .ok .rxStop ∧
  (∀ s, s.issuer = .host → exec .rxStop s = .next { s with rx := { s.rx with run := false } }) ∧
  (∀ s : State, ready .rxEdge { s with rx := { s.rx with run := false } } = false ∧
    ready .rxProcess { s with rx := { s.rx with run := false } } = false)

/-- R24, R35, R37 to R39, R205, R208, R218, R229: every step keeps the receiver good (`RxOk`): the last transition not in the future, the
period at least 1, the windows within bounds, no consumed score left. -/
def Obligations.StepKeepsReceiverOk : Prop :=
  ∀ s s', CfgOk s → RxOk s → step s = .next s' → RxOk s'

/-! ## AKP decoder -/

/-- R260, R42: AKP_INIT creates or re-creates the instance of its handle, as R43 gives it, and touches no other instance and nothing
else. The tag letters' value is the model's (log 10) and is not stated. -/
def Obligations.AkpInitCreatesInstance : Prop :=
  ∀ s t, s.issuer = .host →
    ∃ l T, exec (.akpInit t) s = .next { s with akp := l } ∧
      akpGet? l t = some T ∧ (∀ u, u ≠ t → akpGet? l u = akpGet? s.akp u) ∧
      T.lb1 = 0x00#8 ∧ T.lb0 = 0x00#8 ∧ T.mode = .between ∧ T.data = [] ∧ T.hi = 0#4 ∧ T.colon = false ∧
      T.k = 0 ∧ T.len1 = 0#16 ∧ T.len2 = 0#16 ∧ T.cnt = 0

/-- R261, R42, R272, R278: AKP_FEED on an existing instance emits the result and replaces that instance alone, its lookback moved on by
the byte; on a handle that does not exist it is refused. -/
def Obligations.AkpFeedActsOnItsInstance : Prop :=
  ∀ s t c, s.issuer = .host →
    (∀ T, akpGet? s.akp t = some T →
      ∃ l, exec (.akpFeed t c) s = .next { s with
          akp := l, results := s.results ++ [(.host, .tag (akpFeed Config.params T c).2)] } ∧
        akpGet? l t = some (akpFeed Config.params T c).1 ∧
        (akpFeed Config.params T c).1.lb1 = T.lb0 ∧ (akpFeed Config.params T c).1.lb0 = c ∧
        (∀ u, u ≠ t → akpGet? l u = akpGet? s.akp u)) ∧
    (akpGet? s.akp t = none → exec (.akpFeed t c) s = .refused (.noSuchInstance t))

/-- R92, R262, R263: UPPER is 'A' to 'Z'. A byte starts a tag exactly when it is '^' after two UPPER bytes in a mode other than DDPAY.
In every mode but DDPAY a '^' after two UPPER bytes discards what was being parsed and begins the tag of those letters, DD as the
sub-frame; in BETWEEN every other byte only moves the lookback. -/
def Obligations.TagStartPreempts : Prop :=
  (∀ b, isUpper b = true ↔ 0x41 ≤ b.toNat ∧ b.toNat ≤ 0x5A) ∧
  (∀ T c, tagStarts T c = true ↔ T.mode ≠ .ddpay ∧ c = 0x5E#8 ∧ isUpper T.lb1 = true ∧ isUpper T.lb0 = true) ∧
  (∀ p T, T.mode ≠ .ddpay → isUpper T.lb1 = true → isUpper T.lb0 = true →
    akpFeed p T 0x5E#8 =
      ({ lb1 := T.lb0, lb0 := 0x5E#8, mode := if T.lb1 = 0x44#8 ∧ T.lb0 = 0x44#8 then .ddlen else .data,
         tag := (T.lb1, T.lb0), data := [], hi := 0#4, colon := false, k := 0, len1 := 0#16, len2 := 0#16, cnt := 0 },
       none)) ∧
  (∀ p T c, T.mode = .between → c ≠ 0x5E#8 ∨ isUpper T.lb1 = false ∨ isUpper T.lb0 = false →
    akpFeed p T c = ({ T with lb1 := T.lb0, lb0 := c }, none))

/-- R264, R265, R266, conflict C1: in DATA a byte that starts no tag ends the data if it is ':', is appended below DATA_CAP, and at
DATA_CAP clears the record under ABORT and is dropped under TRUNCATE, for every value of the parameters. -/
def Obligations.DataBytesAccumulate : Prop :=
  ∀ p T c, T.mode = .data → tagStarts T c = false →
    (c = 0x3A#8 → akpFeed p T c = ({ T with lb1 := T.lb0, lb0 := c, colon := true, mode := .cs1 }, none)) ∧
    (c ≠ 0x3A#8 → T.data.length < p.dataCap →
      akpFeed p T c = ({ T with lb1 := T.lb0, lb0 := c, data := T.data ++ [c] }, none)) ∧
    (c ≠ 0x3A#8 → p.dataCap ≤ T.data.length → p.dataOverflow = .abort →
      akpFeed p T c = ({ akpClear T with lb1 := T.lb0, lb0 := c }, none)) ∧
    (c ≠ 0x3A#8 → p.dataCap ≤ T.data.length → p.dataOverflow = .truncate →
      akpFeed p T c = ({ T with lb1 := T.lb0, lb0 := c }, none))

/-- R92, R266, R267, R61: LHEX is '0' to '9' and 'a' to 'f', with the values 0 to 15. The checksum digits: in CS1 an LHEX byte is kept as
the high half-byte; in CS2 the record completes exactly when the two digits are the checksum of tag and data, and the decoder clears
either way; a byte that is no LHEX clears. -/
def Obligations.ChecksumDecidesRecord : Prop :=
  (∀ b v, hexVal? b = some v ↔
    (0x30 ≤ b.toNat ∧ b.toNat ≤ 0x39 ∧ v.toNat = b.toNat - 0x30) ∨
    (0x61 ≤ b.toNat ∧ b.toNat ≤ 0x66 ∧ v.toNat = b.toNat - 0x57)) ∧
  ∀ p T c, tagStarts T c = false →
    (T.mode = .cs1 → ∀ v, hexVal? c = some v →
      akpFeed p T c = ({ T with lb1 := T.lb0, lb0 := c, hi := v, mode := .cs2 }, none)) ∧
    (T.mode = .cs1 ∨ T.mode = .cs2 → hexVal? c = none →
      akpFeed p T c = ({ akpClear T with lb1 := T.lb0, lb0 := c }, none)) ∧
    (T.mode = .cs2 → ∀ v, hexVal? c = some v →
      (T.hi.toNat * 16 + v.toNat = (crc8With p.crc8Step T.data (crc8With p.crc8Step [T.tag.1, T.tag.2] 0x00#8)).toNat →
        akpFeed p T c = ({ akpClear T with lb1 := T.lb0, lb0 := c },
          some { tag := T.tag, data := T.data, len := T.data.length })) ∧
      (T.hi.toNat * 16 + v.toNat ≠ (crc8With p.crc8Step T.data (crc8With p.crc8Step [T.tag.1, T.tag.2] 0x00#8)).toNat →
        akpFeed p T c = ({ akpClear T with lb1 := T.lb0, lb0 := c }, none)))

/-- R268 to R271, R263: from every state outside a payload, "DD^", the length twice and that many bytes of any value complete, at the
last byte and not before, with exactly those bytes; a length of zero completes at the eighth digit. -/
def Obligations.DdPayloadIsVerbatim : Prop :=
  ∀ p T (payload : List Byte), T.mode ≠ .ddpay → payload.length ≤ 65535 → payload.length ≤ p.ddCap →
    (akpFeedAll p T ([0x44#8, 0x44#8, 0x5E#8] ++ hex4 payload.length ++ hex4 payload.length ++ payload)).2 =
      List.replicate (payload.length + 10) none ++
        [some { tag := (0x44#8, 0x44#8), data := payload, len := payload.length }]

/-- R44, R268, R269: the aborts of the DD tag. Two lengths that differ, and two equal ones above DD_CAP, abort at the eighth digit:
nothing completes, and the decoder is between tags. In DDLEN a byte that is no LHEX and starts no tag clears the decoder. Clear returns
to BETWEEN and empties every field but the lookback; the tag letters, whose value the spec leaves open, are not stated (log 10). -/
def Obligations.DdLengthMismatchAborts : Prop :=
  (∀ p T n m, T.mode ≠ .ddpay → n ≤ 65535 → m ≤ 65535 → n ≠ m ∨ p.ddCap < n →
    (akpFeedAll p T ([0x44#8, 0x44#8, 0x5E#8] ++ hex4 n ++ hex4 m)).2 = List.replicate 11 none ∧
    (akpFeedAll p T ([0x44#8, 0x44#8, 0x5E#8] ++ hex4 n ++ hex4 m)).1.mode = .between) ∧
  (∀ p T c, T.mode = .ddlen → tagStarts T c = false → hexVal? c = none →
    akpFeed p T c = ({ akpClear T with lb1 := T.lb0, lb0 := c }, none)) ∧
  (∀ T, (akpClear T).lb1 = T.lb1 ∧ (akpClear T).lb0 = T.lb0 ∧ (akpClear T).mode = .between ∧ (akpClear T).data = [] ∧
    (akpClear T).hi = 0#4 ∧ (akpClear T).colon = false ∧ (akpClear T).k = 0 ∧ (akpClear T).len1 = 0#16 ∧
    (akpClear T).len2 = 0#16 ∧ (akpClear T).cnt = 0)

/-- R279: from every state outside a payload, whatever stream led there, a well-formed ordinary record is emitted at its last byte and
nothing is emitted before. -/
def Obligations.RecordResynchronises : Prop :=
  ∀ p T x y h l vh vl (data : List Byte),
    T.mode ≠ .ddpay → isUpper x = true → isUpper y = true → (x, y) ≠ ddTag →
    (∀ c ∈ data, c ≠ colon) → data.length ≤ p.dataCap → noTagStartIn data →
    hexVal? h = some vh → hexVal? l = some vl →
    16 * vh.toNat + vl.toNat = (recordCrc p.crc8Step (x, y) data).toNat →
    (akpFeedAll p T ([x, y, caret] ++ data ++ [colon, h, l])).2 =
      List.replicate (data.length + 5) none ++ [some { tag := (x, y), data := data, len := data.length }]

/-- R43, R45, R264 to R271: every step keeps every decoder instance good (`TagOk`), and the handles strictly rising, which is the model's
form of the table (log 22). That an instance between tags has the tag letters Clear leaves is about the value log 10 chose. -/
def Obligations.StepKeepsDecodersOk : Prop :=
  ∀ s s', AkpOk s → step s = .next s' → AkpOk s'

/-! ## Configuration and environment -/

/-- R301: CFG_SET writes all of CFG and sets CFG.valid; it is refused for a rate outside STD_BAUDS and while a channel runs or a frame is
being finished; 9600 in 8N1 gives P_NOM = 104167 and B = 10. P_NOM is `(TIME_HZ + BAUD div 2) div BAUD` with TIME_HZ = 1e9 (R7), which
at the ten rates gives the values of R372's table, and B is 9 plus the parity bit and the stop bits (R16). -/
def Obligations.CfgSetWritesConfiguration : Prop :=
  (∀ n p d v, decode 0x60#8 [.baud n, .bool p, .bool d, .bool v] = .ok (.cfgSet n p d v)) ∧
  (∀ s n p d v, s.issuer = .host → n ∈ [300, 600, 1200, 2400, 4800, 9600, 19200, 38400, 57600, 115200] →
    s.tx.run = false → s.tx.phase = .stopped → s.rx.run = false →
    exec (.cfgSet n p d v) s =
      .next { s with cfg := { valid := true, baud := n, parity := p, stop2 := d, invert := v } }) ∧
  (∀ s n p d v, s.issuer = .host →
    n ∉ [300, 600, 1200, 2400, 4800, 9600, 19200, 38400, 57600, 115200] ∨ s.tx.run = true ∨ s.tx.phase ≠ .stopped ∨
      s.rx.run = true →
    ∃ r, exec (.cfgSet n p d v) s = .refused r) ∧
  pNom Config.params { valid := true, baud := 9600, parity := false, stop2 := false, invert := false } = 104167 ∧
  frameBits { valid := true, baud := 9600, parity := false, stop2 := false, invert := false } = 10 ∧
  (∀ c, pNom Config.params c = (1000000000 + c.baud / 2) / c.baud) ∧
  (∀ c, frameBits c = 9 + (if c.parity then 1 else 0) + (if c.stop2 then 2 else 1)) ∧
  [300, 600, 1200, 2400, 4800, 9600, 19200, 38400, 57600, 115200].map
      (fun n => pNom Config.params { valid := true, baud := n, parity := false, stop2 := false, invert := false }) =
    [3333333, 1666667, 833333, 416667, 208333, 104167, 52083, 26042, 17361, 8681]

/-- R302: no step changes CFG while a channel runs or a frame is being finished. -/
def Obligations.ConfigurationFrozenWhileRunning : Prop :=
  ∀ s s', s.tx.run = true ∨ s.tx.phase ≠ .stopped ∨ s.rx.run = true → step s = .next s' → s'.cfg = s.cfg

/-- R303, R304, R24: ENV_TICK n advances `now` by n and refuses n = 0; ENV_RXPIN sets the rx pin; `now` never decreases in any step. -/
def Obligations.EnvironmentSteps : Prop :=
  (∀ s n, s.issuer = .env → 1 ≤ n → exec (.envTick n) s = .next { s with now := s.now + n }) ∧
  (∀ s, s.issuer = .env → exec (.envTick 0) s = .refused .zeroTick) ∧
  (∀ s v, s.issuer = .env → exec (.envRxpin v) s = .next { s with pin := { s.pin with rx := v } }) ∧
  (∀ s s', step s = .next s' → s.now ≤ s'.now)

/-! ## Reset and the whole machine -/

/-- R350: the fields after block reset that the spec gives a value for. -/
def Obligations.ResetValues : Prop :=
  State.reset.cfg.valid = false ∧ State.reset.now = 0 ∧ State.reset.pinErr = 0 ∧
  (State.reset.txq.start = 0 ∧ State.reset.txq.tail = 0 ∧ State.reset.txq.full = false) ∧
  (State.reset.rxq.start = 0 ∧ State.reset.rxq.tail = 0 ∧ State.reset.rxq.full = false) ∧
  (State.reset.spq.start = 0 ∧ State.reset.spq.tail = 0 ∧ State.reset.spq.full = false) ∧
  State.reset.tx = { run := false, d := 0, frame := [], phase := .stopped, idx := 0 } ∧
  State.reset.rx = { run := false, e := 0, lv := true, pmod := 1, sw := [], bw := [] } ∧
  State.reset.akp = [] ∧ runReset.refused = false

/-- R28, R49: block reset is a good state, whatever the capacities (`Inv`). -/
def Obligations.ResetIsGood : Prop := Inv State.reset

/-- R28, R22, R12: every step keeps the rings' indices in range, the configuration legal, and every agent in at most one await (the list
of waiters is the model's, log 3). -/
def Obligations.StepKeepsRingsConfigurationAndWaits : Prop :=
  (∀ s s', RingsOk s → step s = .next s' → RingsOk s') ∧
  (∀ s s', CfgOk s → step s = .next s' → CfgOk s') ∧
  (∀ s s', WaitOk s → step s = .next s' → WaitOk s')
end

