-- ==== Sys2Proof/Laws/Akp.lean ====
section
/-! SUPPORT. The decoder table (finding, replacing, the order of the handles) and the decoder's byte steps (the lookback, letters, the
start of a tag, sequences of bytes). -/

namespace Sys2Proof.Machine

/-- The instance put under a handle is the one found there (R42). -/
theorem akpGet?_put_self (l : List (Nat × TagParse)) (t : Nat) (v : TagParse) : akpGet? (akpPut l t v) t = some v := by
  induction l with
  | nil => simp [akpPut, akpGet?]
  | cons x r ih =>
    obtain ⟨k, y⟩ := x
    unfold akpPut
    split
    · simp [akpGet?]
    · split
      · simp [akpGet?]
      · next h1 h2 => simp [akpGet?, Ne.symm h2, ih]

/-- Putting an instance leaves every other handle's as it was: instances share nothing (R42). -/
theorem akpGet?_put_other (l : List (Nat × TagParse)) (t u : Nat) (v : TagParse) (h : u ≠ t) :
    akpGet? (akpPut l t v) u = akpGet? l u := by
  induction l with
  | nil => simp [akpPut, akpGet?, Ne.symm h]
  | cons x r ih =>
    obtain ⟨k, y⟩ := x
    unfold akpPut
    split
    · simp [akpGet?, Ne.symm h]
    · split
      · next h1 h2 => subst h2; simp [akpGet?, Ne.symm h]
      · simp [akpGet?, ih]

theorem akpGet?_mem {l : List (Nat × TagParse)} {t : Nat} {v : TagParse} (h : akpGet? l t = some v) : (t, v) ∈ l := by
  induction l with
  | nil => simp [akpGet?] at h
  | cons x r ih =>
    obtain ⟨k, y⟩ := x
    unfold akpGet? at h
    split at h
    · next hk => subst hk; simp at h; simp [h]
    · simp [ih h]

theorem akpPut_mem {l : List (Nat × TagParse)} {t : Nat} {v : TagParse} {x : Nat × TagParse} (h : x ∈ akpPut l t v) :
    x = (t, v) ∨ x ∈ l := by
  induction l with
  | nil => simpa [akpPut] using h
  | cons y r ih =>
    obtain ⟨k, z⟩ := y
    unfold akpPut at h
    split at h
    · simpa using h
    · split at h
      · rcases List.mem_cons.mp h with h | h
        · exact .inl h
        · exact .inr (by simp [h])
      · rcases List.mem_cons.mp h with h | h
        · exact .inr (by simp [h])
        · rcases ih h with h | h
          · exact .inl h
          · exact .inr (by simp [h])

/-- The handles stay strictly rising. -/
theorem akpPut_rising {l : List (Nat × TagParse)} (t : Nat) (v : TagParse) (h : (l.map (·.1)).Pairwise (· < ·)) :
    ((akpPut l t v).map (·.1)).Pairwise (· < ·) := by
  induction l with
  | nil => simp [akpPut]
  | cons y r ih =>
    obtain ⟨k, z⟩ := y
    rw [List.map_cons, List.pairwise_cons] at h
    obtain ⟨h1, h2⟩ := h
    unfold akpPut
    split
    next hlt =>
      simp only [List.map_cons, List.pairwise_cons]
      refine ⟨?_, h1, h2⟩
      intro a ha
      rcases List.mem_cons.mp ha with rfl | ha
      · exact hlt
      · exact Nat.lt_trans hlt (h1 a ha)
    next hlt =>
      split
      next heq => subst heq; simpa using ⟨by simpa using h1, h2⟩
      next hne =>
        rw [List.map_cons, List.pairwise_cons]
        refine ⟨?_, ih h2⟩
        intro a ha
        obtain ⟨x, hx, rfl⟩ := List.mem_map.mp ha
        rcases akpPut_mem hx with rfl | hx
        · show k < t; omega
        · exact h1 _ (List.mem_map_of_mem hx)
/-- Feeding two sequences in turn is feeding them joined (R278). -/
theorem akpFeedAll_append (p : Params) (T : TagParse) (a b : List Byte) :
    akpFeedAll p T (a ++ b) = ((akpFeedAll p (akpFeedAll p T a).1 b).1, (akpFeedAll p T a).2 ++ (akpFeedAll p (akpFeedAll p T a).1 b).2) := by
  induction a generalizing T with
  | nil => rfl
  | cons c r ih => simp [akpFeedAll, ih]

/-- The lookback moves on every byte (R272). -/
@[simp] theorem akpFeed_lb0 (p : Params) (T : TagParse) (c : Byte) : (akpFeed p T c).1.lb0 = c := rfl
@[simp] theorem akpFeed_lb1 (p : Params) (T : TagParse) (c : Byte) : (akpFeed p T c).1.lb1 = T.lb0 := rfl

/-- An UPPER byte is no hex digit, no caret and no colon (R92). -/
theorem upper_facts : ∀ c : Byte, isUpper c = true → hexVal? c = none ∧ c ≠ caret ∧ c ≠ Machine.colon := by decide +kernel
/-- A hex digit is no caret (R92). -/
theorem hex_facts : ∀ c : Byte, hexVal? c ≠ none → c ≠ caret := by decide +kernel

/-- An uppercase letter completes nothing and enters no payload (R262 to R271). -/
theorem akpFeed_upper (p : Params) (T : TagParse) (c : Byte) (hm : T.mode ≠ .ddpay) (hc : isUpper c = true) :
    (akpFeed p T c).2 = none ∧ (akpFeed p T c).1.mode ≠ .ddpay := by
  obtain ⟨h1, h2, h3⟩ := upper_facts c hc
  have ht : tagStarts T c = false := by simp [tagStarts, h2]
  cases hmode : T.mode <;> simp [akpFeed, feedCore, ht, feedByMode, hmode, feedData, feedCs1, feedCs2, ddDigit, h1, h3, akpClear, akpFresh] <;> try exact absurd hmode hm
  split
  · simp
  · unfold Machine.dataOverflow; split <;> simp [akpClear, akpFresh, hmode]

/-- A caret after two uppercase letters begins their tag, outside a payload (R262, R263). -/
theorem akpFeed_caret (p : Params) (T : TagParse) (hm : T.mode ≠ .ddpay) (h1 : isUpper T.lb1 = true) (h0 : isUpper T.lb0 = true) :
    akpFeed p T caret = ({ beginTag T with lb1 := T.lb0, lb0 := caret }, none) := by
  have : tagStarts T caret = true := by simp [tagStarts, hm, h1, h0]
  simp [akpFeed, feedCore, this]

end Sys2Proof.Machine
end

