-- ==== Sys2Proof/Laws/Crc.lean ====
section
/-! SUPPORT. crc8 is the left fold of the update function (R121). -/

namespace Sys2Proof.Machine

theorem crc8With_eq_foldl (step : Byte → Byte → Byte) (bs : List Byte) (s : Byte) : crc8With step bs s = bs.foldl step s := by
  induction bs generalizing s with
  | nil => rfl
  | cons b r ih => exact ih (step s b)

end Sys2Proof.Machine
end

