-- ==== Sys2Proof/Laws/Decode.lean ====
section
/-! SUPPORT. The decoder answers an instruction or the refusal of its code, unit by unit. -/

namespace Sys2Proof

variable {code : Byte} {func : Nat} {ops : List Operand}

/-- An answer of the decoder: an instruction, or the refusal of the code. -/
abbrev answersOrRefuses (code : Byte) (r : Except DecodeRefusal Instr) : Prop :=
  (∃ i, r = .ok i) ∨ r = .error (refusalOf code)

theorem decodeTxq_cases : answersOrRefuses code (decodeTxq code func ops) := by
  unfold decodeTxq; split <;> first | exact .inl ⟨_, rfl⟩ | exact .inr rfl

theorem decodeRxq_cases : answersOrRefuses code (decodeRxq code func ops) := by
  unfold decodeRxq; split <;> first | exact .inl ⟨_, rfl⟩ | exact .inr rfl

theorem decodeCrc_cases : answersOrRefuses code (decodeCrc code func ops) := by
  unfold decodeCrc; split <;> first | exact .inl ⟨_, rfl⟩ | exact .inr rfl

theorem decodeBt_cases : answersOrRefuses code (decodeBt code func ops) := by
  unfold decodeBt; split <;> first | exact .inl ⟨_, rfl⟩ | exact .inr rfl

theorem decodeTx_cases : answersOrRefuses code (decodeTx code func ops) := by
  unfold decodeTx; split <;> first | exact .inl ⟨_, rfl⟩ | exact .inr rfl

theorem decodeRx_cases : answersOrRefuses code (decodeRx code func ops) := by
  unfold decodeRx; split <;> first | exact .inl ⟨_, rfl⟩ | exact .inr rfl

theorem decodeAkp_cases : answersOrRefuses code (decodeAkp code func ops) := by
  unfold decodeAkp; split <;> first | exact .inl ⟨_, rfl⟩ | exact .inr rfl

theorem decodeCfg_cases : answersOrRefuses code (decodeCfg code func ops) := by
  unfold decodeCfg; split <;> first | exact .inl ⟨_, rfl⟩ | exact .inr rfl

theorem decodeEnv_cases : answersOrRefuses code (decodeEnv code func ops) := by
  unfold decodeEnv; split <;> first | exact .inl ⟨_, rfl⟩ | exact .inr rfl

/-- The decoder answers an instruction, or refuses under the name of the code (R85). -/
theorem decode_cases : answersOrRefuses code (decode code ops) := by
  unfold decode
  split
  · split
    · exact decodeRxq_cases
    · exact decodeTxq_cases
  · exact decodeCrc_cases
  · exact decodeBt_cases
  · exact decodeTx_cases
  · exact decodeRx_cases
  · exact decodeAkp_cases
  · exact decodeCfg_cases
  · exact decodeEnv_cases
  · exact .inr rfl

end Sys2Proof
end

