-- ==== Sys2Proof/Laws/State.lean ====
section
/-! SUPPORT. Beside State: for each named update, one lemma for each field of State, so that no later proof unfolds a record update. -/

namespace Sys2Proof.Machine

/-! ### `logError` -/

@[simp] theorem logError_cfg (c : Condition) (s : State) : (logError c s).cfg = s.cfg := rfl
@[simp] theorem logError_now (c : Condition) (s : State) : (logError c s).now = s.now := rfl
@[simp] theorem logError_pin (c : Condition) (s : State) : (logError c s).pin = s.pin := rfl
@[simp] theorem logError_pinErr (c : Condition) (s : State) : (logError c s).pinErr = s.pinErr + 1 := rfl
@[simp] theorem logError_txq (c : Condition) (s : State) : (logError c s).txq = s.txq := rfl
@[simp] theorem logError_rxq (c : Condition) (s : State) : (logError c s).rxq = s.rxq := rfl
@[simp] theorem logError_spq (c : Condition) (s : State) : (logError c s).spq = s.spq := rfl
@[simp] theorem logError_tx (c : Condition) (s : State) : (logError c s).tx = s.tx := rfl
@[simp] theorem logError_rx (c : Condition) (s : State) : (logError c s).rx = s.rx := rfl
@[simp] theorem logError_akp (c : Condition) (s : State) : (logError c s).akp = s.akp := rfl
@[simp] theorem logError_trace (c : Condition) (s : State) : (logError c s).trace = s.trace ++ [.logError c] := rfl
@[simp] theorem logError_results (c : Condition) (s : State) : (logError c s).results = s.results := rfl
@[simp] theorem logError_turns (c : Condition) (s : State) : (logError c s).turns = s.turns := rfl
@[simp] theorem logError_pending (c : Condition) (s : State) : (logError c s).pending = s.pending := rfl
@[simp] theorem logError_waiting (c : Condition) (s : State) : (logError c s).waiting = s.waiting := rfl
@[simp] theorem logError_issuer (c : Condition) (s : State) : (logError c s).issuer = s.issuer := rfl
@[simp] theorem logError_draw (c : Condition) (s : State) : (logError c s).draw = s.draw := rfl

/-! ### `note` -/

@[simp] theorem note_cfg (c : Condition) (s : State) : (note c s).cfg = s.cfg := rfl
@[simp] theorem note_now (c : Condition) (s : State) : (note c s).now = s.now := rfl
@[simp] theorem note_pin (c : Condition) (s : State) : (note c s).pin = s.pin := rfl
@[simp] theorem note_pinErr (c : Condition) (s : State) : (note c s).pinErr = s.pinErr := rfl
@[simp] theorem note_txq (c : Condition) (s : State) : (note c s).txq = s.txq := rfl
@[simp] theorem note_rxq (c : Condition) (s : State) : (note c s).rxq = s.rxq := rfl
@[simp] theorem note_spq (c : Condition) (s : State) : (note c s).spq = s.spq := rfl
@[simp] theorem note_tx (c : Condition) (s : State) : (note c s).tx = s.tx := rfl
@[simp] theorem note_rx (c : Condition) (s : State) : (note c s).rx = s.rx := rfl
@[simp] theorem note_akp (c : Condition) (s : State) : (note c s).akp = s.akp := rfl
@[simp] theorem note_trace (c : Condition) (s : State) : (note c s).trace = s.trace ++ [.note c] := rfl
@[simp] theorem note_results (c : Condition) (s : State) : (note c s).results = s.results := rfl
@[simp] theorem note_turns (c : Condition) (s : State) : (note c s).turns = s.turns := rfl
@[simp] theorem note_pending (c : Condition) (s : State) : (note c s).pending = s.pending := rfl
@[simp] theorem note_waiting (c : Condition) (s : State) : (note c s).waiting = s.waiting := rfl
@[simp] theorem note_issuer (c : Condition) (s : State) : (note c s).issuer = s.issuer := rfl
@[simp] theorem note_draw (c : Condition) (s : State) : (note c s).draw = s.draw := rfl

/-! ### `emit` -/

@[simp] theorem emit_cfg (r : Result) (s : State) : (emit r s).cfg = s.cfg := rfl
@[simp] theorem emit_now (r : Result) (s : State) : (emit r s).now = s.now := rfl
@[simp] theorem emit_pin (r : Result) (s : State) : (emit r s).pin = s.pin := rfl
@[simp] theorem emit_pinErr (r : Result) (s : State) : (emit r s).pinErr = s.pinErr := rfl
@[simp] theorem emit_txq (r : Result) (s : State) : (emit r s).txq = s.txq := rfl
@[simp] theorem emit_rxq (r : Result) (s : State) : (emit r s).rxq = s.rxq := rfl
@[simp] theorem emit_spq (r : Result) (s : State) : (emit r s).spq = s.spq := rfl
@[simp] theorem emit_tx (r : Result) (s : State) : (emit r s).tx = s.tx := rfl
@[simp] theorem emit_rx (r : Result) (s : State) : (emit r s).rx = s.rx := rfl
@[simp] theorem emit_akp (r : Result) (s : State) : (emit r s).akp = s.akp := rfl
@[simp] theorem emit_trace (r : Result) (s : State) : (emit r s).trace = s.trace := rfl
@[simp] theorem emit_results (r : Result) (s : State) : (emit r s).results = s.results ++ [(s.issuer, r)] := rfl
@[simp] theorem emit_turns (r : Result) (s : State) : (emit r s).turns = s.turns := rfl
@[simp] theorem emit_pending (r : Result) (s : State) : (emit r s).pending = s.pending := rfl
@[simp] theorem emit_waiting (r : Result) (s : State) : (emit r s).waiting = s.waiting := rfl
@[simp] theorem emit_issuer (r : Result) (s : State) : (emit r s).issuer = s.issuer := rfl
@[simp] theorem emit_draw (r : Result) (s : State) : (emit r s).draw = s.draw := rfl

/-! ### `await` -/

@[simp] theorem await_cfg (i : Instr) (s : State) : (await i s).cfg = s.cfg := rfl
@[simp] theorem await_now (i : Instr) (s : State) : (await i s).now = s.now := rfl
@[simp] theorem await_pin (i : Instr) (s : State) : (await i s).pin = s.pin := rfl
@[simp] theorem await_pinErr (i : Instr) (s : State) : (await i s).pinErr = s.pinErr := rfl
@[simp] theorem await_txq (i : Instr) (s : State) : (await i s).txq = s.txq := rfl
@[simp] theorem await_rxq (i : Instr) (s : State) : (await i s).rxq = s.rxq := rfl
@[simp] theorem await_spq (i : Instr) (s : State) : (await i s).spq = s.spq := rfl
@[simp] theorem await_tx (i : Instr) (s : State) : (await i s).tx = s.tx := rfl
@[simp] theorem await_rx (i : Instr) (s : State) : (await i s).rx = s.rx := rfl
@[simp] theorem await_akp (i : Instr) (s : State) : (await i s).akp = s.akp := rfl
@[simp] theorem await_trace (i : Instr) (s : State) : (await i s).trace = s.trace := rfl
@[simp] theorem await_results (i : Instr) (s : State) : (await i s).results = s.results := rfl
@[simp] theorem await_turns (i : Instr) (s : State) : (await i s).turns = s.turns := rfl
@[simp] theorem await_pending (i : Instr) (s : State) : (await i s).pending = s.pending := rfl
@[simp] theorem await_waiting (i : Instr) (s : State) : (await i s).waiting = s.waiting ++ [{ agent := s.issuer, instr := i, draw := s.draw }] := rfl
@[simp] theorem await_issuer (i : Instr) (s : State) : (await i s).issuer = s.issuer := rfl
@[simp] theorem await_draw (i : Instr) (s : State) : (await i s).draw = s.draw := rfl

/-! ### `pushTxq` -/

@[simp] theorem pushTxq_cfg (b : Byte) (s : State) : (pushTxq b s).cfg = s.cfg := rfl
@[simp] theorem pushTxq_now (b : Byte) (s : State) : (pushTxq b s).now = s.now := rfl
@[simp] theorem pushTxq_pin (b : Byte) (s : State) : (pushTxq b s).pin = s.pin := rfl
@[simp] theorem pushTxq_pinErr (b : Byte) (s : State) : (pushTxq b s).pinErr = s.pinErr := rfl
@[simp] theorem pushTxq_txq (b : Byte) (s : State) : (pushTxq b s).txq = (ringPush s.txq b).1 := rfl
@[simp] theorem pushTxq_rxq (b : Byte) (s : State) : (pushTxq b s).rxq = s.rxq := rfl
@[simp] theorem pushTxq_spq (b : Byte) (s : State) : (pushTxq b s).spq = s.spq := rfl
@[simp] theorem pushTxq_tx (b : Byte) (s : State) : (pushTxq b s).tx = s.tx := rfl
@[simp] theorem pushTxq_rx (b : Byte) (s : State) : (pushTxq b s).rx = s.rx := rfl
@[simp] theorem pushTxq_akp (b : Byte) (s : State) : (pushTxq b s).akp = s.akp := rfl
@[simp] theorem pushTxq_trace (b : Byte) (s : State) : (pushTxq b s).trace = overflowTrace s.trace (ringPush s.txq b).2 := rfl
@[simp] theorem pushTxq_results (b : Byte) (s : State) : (pushTxq b s).results = s.results := rfl
@[simp] theorem pushTxq_turns (b : Byte) (s : State) : (pushTxq b s).turns = s.turns := rfl
@[simp] theorem pushTxq_pending (b : Byte) (s : State) : (pushTxq b s).pending = s.pending := rfl
@[simp] theorem pushTxq_waiting (b : Byte) (s : State) : (pushTxq b s).waiting = s.waiting := rfl
@[simp] theorem pushTxq_issuer (b : Byte) (s : State) : (pushTxq b s).issuer = s.issuer := rfl
@[simp] theorem pushTxq_draw (b : Byte) (s : State) : (pushTxq b s).draw = s.draw := rfl

/-! ### `pushSpq` -/

@[simp] theorem pushSpq_cfg (v : Span) (s : State) : (pushSpq v s).cfg = s.cfg := rfl
@[simp] theorem pushSpq_now (v : Span) (s : State) : (pushSpq v s).now = s.now := rfl
@[simp] theorem pushSpq_pin (v : Span) (s : State) : (pushSpq v s).pin = s.pin := rfl
@[simp] theorem pushSpq_pinErr (v : Span) (s : State) : (pushSpq v s).pinErr = s.pinErr := rfl
@[simp] theorem pushSpq_txq (v : Span) (s : State) : (pushSpq v s).txq = s.txq := rfl
@[simp] theorem pushSpq_rxq (v : Span) (s : State) : (pushSpq v s).rxq = s.rxq := rfl
@[simp] theorem pushSpq_spq (v : Span) (s : State) : (pushSpq v s).spq = (ringPush s.spq v).1 := rfl
@[simp] theorem pushSpq_tx (v : Span) (s : State) : (pushSpq v s).tx = s.tx := rfl
@[simp] theorem pushSpq_rx (v : Span) (s : State) : (pushSpq v s).rx = s.rx := rfl
@[simp] theorem pushSpq_akp (v : Span) (s : State) : (pushSpq v s).akp = s.akp := rfl
@[simp] theorem pushSpq_trace (v : Span) (s : State) : (pushSpq v s).trace = overflowTrace s.trace (ringPush s.spq v).2 := rfl
@[simp] theorem pushSpq_results (v : Span) (s : State) : (pushSpq v s).results = s.results := rfl
@[simp] theorem pushSpq_turns (v : Span) (s : State) : (pushSpq v s).turns = s.turns := rfl
@[simp] theorem pushSpq_pending (v : Span) (s : State) : (pushSpq v s).pending = s.pending := rfl
@[simp] theorem pushSpq_waiting (v : Span) (s : State) : (pushSpq v s).waiting = s.waiting := rfl
@[simp] theorem pushSpq_issuer (v : Span) (s : State) : (pushSpq v s).issuer = s.issuer := rfl
@[simp] theorem pushSpq_draw (v : Span) (s : State) : (pushSpq v s).draw = s.draw := rfl

/-! ### `withBitPath` -/

@[simp] theorem withBitPath_cfg (k : BitPath) (s : State) : (withBitPath k s).cfg = s.cfg := rfl
@[simp] theorem withBitPath_now (k : BitPath) (s : State) : (withBitPath k s).now = s.now := rfl
@[simp] theorem withBitPath_pin (k : BitPath) (s : State) : (withBitPath k s).pin = s.pin := rfl
@[simp] theorem withBitPath_pinErr (k : BitPath) (s : State) : (withBitPath k s).pinErr = s.pinErr := rfl
@[simp] theorem withBitPath_txq (k : BitPath) (s : State) : (withBitPath k s).txq = s.txq := rfl
@[simp] theorem withBitPath_rxq (k : BitPath) (s : State) : (withBitPath k s).rxq = k.rxq := rfl
@[simp] theorem withBitPath_spq (k : BitPath) (s : State) : (withBitPath k s).spq = s.spq := rfl
@[simp] theorem withBitPath_tx (k : BitPath) (s : State) : (withBitPath k s).tx = s.tx := rfl
@[simp] theorem withBitPath_rx (k : BitPath) (s : State) : (withBitPath k s).rx = { s.rx with bw := k.bw } := rfl
@[simp] theorem withBitPath_akp (k : BitPath) (s : State) : (withBitPath k s).akp = s.akp := rfl
@[simp] theorem withBitPath_trace (k : BitPath) (s : State) : (withBitPath k s).trace = k.trace := rfl
@[simp] theorem withBitPath_results (k : BitPath) (s : State) : (withBitPath k s).results = s.results := rfl
@[simp] theorem withBitPath_turns (k : BitPath) (s : State) : (withBitPath k s).turns = s.turns := rfl
@[simp] theorem withBitPath_pending (k : BitPath) (s : State) : (withBitPath k s).pending = s.pending := rfl
@[simp] theorem withBitPath_waiting (k : BitPath) (s : State) : (withBitPath k s).waiting = s.waiting := rfl
@[simp] theorem withBitPath_issuer (k : BitPath) (s : State) : (withBitPath k s).issuer = s.issuer := rfl
@[simp] theorem withBitPath_draw (k : BitPath) (s : State) : (withBitPath k s).draw = s.draw := rfl

/-! ### `issueNext` -/

@[simp] theorem issueNext_cfg (c : Issue) (s : State) : (issueNext c s).cfg = s.cfg := rfl
@[simp] theorem issueNext_now (c : Issue) (s : State) : (issueNext c s).now = s.now := rfl
@[simp] theorem issueNext_pin (c : Issue) (s : State) : (issueNext c s).pin = s.pin := rfl
@[simp] theorem issueNext_pinErr (c : Issue) (s : State) : (issueNext c s).pinErr = s.pinErr := rfl
@[simp] theorem issueNext_txq (c : Issue) (s : State) : (issueNext c s).txq = s.txq := rfl
@[simp] theorem issueNext_rxq (c : Issue) (s : State) : (issueNext c s).rxq = s.rxq := rfl
@[simp] theorem issueNext_spq (c : Issue) (s : State) : (issueNext c s).spq = s.spq := rfl
@[simp] theorem issueNext_tx (c : Issue) (s : State) : (issueNext c s).tx = s.tx := rfl
@[simp] theorem issueNext_rx (c : Issue) (s : State) : (issueNext c s).rx = s.rx := rfl
@[simp] theorem issueNext_akp (c : Issue) (s : State) : (issueNext c s).akp = s.akp := rfl
@[simp] theorem issueNext_trace (c : Issue) (s : State) : (issueNext c s).trace = s.trace := rfl
@[simp] theorem issueNext_results (c : Issue) (s : State) : (issueNext c s).results = s.results := rfl
@[simp] theorem issueNext_turns (c : Issue) (s : State) : (issueNext c s).turns = c.agent :: s.turns := rfl
@[simp] theorem issueNext_pending (c : Issue) (s : State) : (issueNext c s).pending = c :: s.pending := rfl
@[simp] theorem issueNext_waiting (c : Issue) (s : State) :
    (issueNext c s).waiting = s.waiting.filter (fun w => decide (w.agent ≠ c.agent)) := rfl
@[simp] theorem issueNext_issuer (c : Issue) (s : State) : (issueNext c s).issuer = s.issuer := rfl
@[simp] theorem issueNext_draw (c : Issue) (s : State) : (issueNext c s).draw = s.draw := rfl

/-! ### `place` -/

@[simp] theorem place_cfg (cs : List Issue) (ts : List Agent) (s : State) : (place cs ts s).cfg = s.cfg := rfl
@[simp] theorem place_now (cs : List Issue) (ts : List Agent) (s : State) : (place cs ts s).now = s.now := rfl
@[simp] theorem place_pin (cs : List Issue) (ts : List Agent) (s : State) : (place cs ts s).pin = s.pin := rfl
@[simp] theorem place_pinErr (cs : List Issue) (ts : List Agent) (s : State) : (place cs ts s).pinErr = s.pinErr := rfl
@[simp] theorem place_txq (cs : List Issue) (ts : List Agent) (s : State) : (place cs ts s).txq = s.txq := rfl
@[simp] theorem place_rxq (cs : List Issue) (ts : List Agent) (s : State) : (place cs ts s).rxq = s.rxq := rfl
@[simp] theorem place_spq (cs : List Issue) (ts : List Agent) (s : State) : (place cs ts s).spq = s.spq := rfl
@[simp] theorem place_tx (cs : List Issue) (ts : List Agent) (s : State) : (place cs ts s).tx = s.tx := rfl
@[simp] theorem place_rx (cs : List Issue) (ts : List Agent) (s : State) : (place cs ts s).rx = s.rx := rfl
@[simp] theorem place_akp (cs : List Issue) (ts : List Agent) (s : State) : (place cs ts s).akp = s.akp := rfl
@[simp] theorem place_trace (cs : List Issue) (ts : List Agent) (s : State) : (place cs ts s).trace = s.trace := rfl
@[simp] theorem place_results (cs : List Issue) (ts : List Agent) (s : State) : (place cs ts s).results = s.results := rfl
@[simp] theorem place_waiting (cs : List Issue) (ts : List Agent) (s : State) : (place cs ts s).waiting = s.waiting := rfl
@[simp] theorem place_issuer (cs : List Issue) (ts : List Agent) (s : State) : (place cs ts s).issuer = s.issuer := rfl
@[simp] theorem place_draw (cs : List Issue) (ts : List Agent) (s : State) : (place cs ts s).draw = s.draw := rfl
@[simp] theorem place_turns (cs : List Issue) (ts : List Agent) (s : State) : (place cs ts s).turns = s.turns ++ ts := rfl
@[simp] theorem place_pending (cs : List Issue) (ts : List Agent) (s : State) : (place cs ts s).pending = s.pending ++ cs := rfl

/-! ### `pinWrite` -/

@[simp] theorem pinWrite_cfg (v : Level) (s : State) : (pinWrite v s).cfg = s.cfg := by unfold pinWrite; split <;> rfl
@[simp] theorem pinWrite_now (v : Level) (s : State) : (pinWrite v s).now = s.now := by unfold pinWrite; split <;> rfl
@[simp] theorem pinWrite_pin (v : Level) (s : State) : (pinWrite v s).pin = (if s.draw then { s.pin with tx := v } else s.pin) := by unfold pinWrite; split <;> rfl
@[simp] theorem pinWrite_pinErr (v : Level) (s : State) : (pinWrite v s).pinErr = (if s.draw then s.pinErr else s.pinErr + 1) := by unfold pinWrite; split <;> rfl
@[simp] theorem pinWrite_txq (v : Level) (s : State) : (pinWrite v s).txq = s.txq := by unfold pinWrite; split <;> rfl
@[simp] theorem pinWrite_rxq (v : Level) (s : State) : (pinWrite v s).rxq = s.rxq := by unfold pinWrite; split <;> rfl
@[simp] theorem pinWrite_spq (v : Level) (s : State) : (pinWrite v s).spq = s.spq := by unfold pinWrite; split <;> rfl
@[simp] theorem pinWrite_tx (v : Level) (s : State) : (pinWrite v s).tx = s.tx := by unfold pinWrite; split <;> rfl
@[simp] theorem pinWrite_rx (v : Level) (s : State) : (pinWrite v s).rx = s.rx := by unfold pinWrite; split <;> rfl
@[simp] theorem pinWrite_akp (v : Level) (s : State) : (pinWrite v s).akp = s.akp := by unfold pinWrite; split <;> rfl
@[simp] theorem pinWrite_trace (v : Level) (s : State) : (pinWrite v s).trace = (if s.draw then s.trace else s.trace ++ [.logError .pinWriteFail]) := by unfold pinWrite; split <;> rfl
@[simp] theorem pinWrite_results (v : Level) (s : State) : (pinWrite v s).results = s.results := by unfold pinWrite; split <;> rfl
@[simp] theorem pinWrite_turns (v : Level) (s : State) : (pinWrite v s).turns = s.turns := by unfold pinWrite; split <;> rfl
@[simp] theorem pinWrite_pending (v : Level) (s : State) : (pinWrite v s).pending = s.pending := by unfold pinWrite; split <;> rfl
@[simp] theorem pinWrite_waiting (v : Level) (s : State) : (pinWrite v s).waiting = s.waiting := by unfold pinWrite; split <;> rfl
@[simp] theorem pinWrite_issuer (v : Level) (s : State) : (pinWrite v s).issuer = s.issuer := by unfold pinWrite; split <;> rfl
@[simp] theorem pinWrite_draw (v : Level) (s : State) : (pinWrite v s).draw = s.draw := by unfold pinWrite; split <;> rfl

end Sys2Proof.Machine
end

