-- ==== Sys2Proof/Laws/Outcome.lean ====
section
/-! SUPPORT. What each meaning can answer: for every instruction one lemma that says, if it answers a next state, under which conditions
and which state; and what the shared guards can answer. The invariants are derived from these and unfold no meaning. -/

namespace Sys2Proof.Machine

theorem byAgent_next {a : Agent} {s t : State} {k : Out} :
    byAgent a s k = .next t ↔ s.issuer = a ∧ k = .next t := by
  unfold byAgent; split <;> simp_all

theorem byAgent_fault {a : Agent} {s : State} {k : Out} {f : Fault} :
    byAgent a s k = .fault f ↔ s.issuer = a ∧ k = .fault f := by
  unfold byAgent; split <;> simp_all

theorem byTimerAgent_next {s t : State} {k : Out} :
    byTimerAgent s k = .next t ↔ bitTimerAllowed s = true ∧ k = .next t := by
  unfold byTimerAgent; split <;> simp_all

theorem byTimerAgent_not_fault {s : State} {k : Out} {f : Fault} (h : k ≠ .fault f) : byTimerAgent s k ≠ .fault f := by
  unfold byTimerAgent; split <;> simp_all

@[simp] theorem byAgent_self {a : Agent} {s : State} {k : Out} (h : s.issuer = a) : byAgent a s k = k := by
  simp [byAgent, h]

theorem byAgent_other {a : Agent} {s : State} {k : Out} (h : s.issuer ≠ a) :
    byAgent a s k = .refused (.wrongAgent s.issuer) := by
  simp [byAgent, h]

theorem bitTimerAllowed_iff {s : State} :
    bitTimerAllowed s = true ↔ s.issuer = .txa ∨ (s.issuer = .host ∧ s.tx.run = false) := by
  simp [bitTimerAllowed]

/-- Every state a command's `await` leaves is the state it was issued in, but for the waiter. -/
theorem ite_await {b : Bool} {u s t : State} {i : Instr}
    (h : (if b then (Host.Outcome.next u : Out) else .next (await i s)) = .next t) :
    (b = true ∧ t = u) ∨ (b = false ∧ t = await i s) := by
  cases b <;> simp_all

theorem execRbInitTxq_next {s t : State} (h : execRbInitTxq s = .next t) :
    s.issuer = .host ∧ s.tx.phase = .stopped ∧ t = { s with txq := ringInit s.txq } := by
  obtain ⟨ha, hk⟩ := byAgent_next.mp h
  split at hk <;> simp_all

theorem execRbInitRxq_next {s t : State} (h : execRbInitRxq s = .next t) :
    s.issuer = .host ∧ s.rx.run = false ∧ t = { s with rxq := ringInit s.rxq } := by
  obtain ⟨ha, hk⟩ := byAgent_next.mp h
  split at hk <;> simp_all

theorem execRbPushTxq_next {b : Byte} {s t : State} (h : execRbPushTxq b s = .next t) :
    s.issuer = .host ∧ t = pushTxq b s := by
  obtain ⟨ha, hk⟩ := byAgent_next.mp h
  simp_all

theorem execRbPushBulkTxq_next {bs : List Byte} {s t : State} (h : execRbPushBulkTxq bs s = .next t) :
    s.issuer = .host ∧
      t = emit (.count (bulkCount bs s.txq)) (pushAllTxq (bs.take (bulkCount bs s.txq)) s) := by
  obtain ⟨ha, hk⟩ := byAgent_next.mp h
  simp_all

theorem execRbPopRxq_next {s t : State} (h : execRbPopRxq s = .next t) :
    s.issuer = .host ∧ t = emit (.byteOpt (ringPop s.rxq).1) { s with rxq := (ringPop s.rxq).2 } := by
  obtain ⟨ha, hk⟩ := byAgent_next.mp h
  simp_all

theorem execRbPopBulkRxq_next {m : Nat} {s t : State} (h : execRbPopBulkRxq m s = .next t) :
    s.issuer = .host ∧
      t = emit (.bytes (ringPopMany (min m (ringAvail s.rxq)) s.rxq).1)
        { s with rxq := (ringPopMany (min m (ringAvail s.rxq)) s.rxq).2 } := by
  obtain ⟨ha, hk⟩ := byAgent_next.mp h
  simp_all

theorem execRbAvailableTxq_next {s t : State} (h : execRbAvailableTxq s = .next t) :
    s.issuer = .host ∧ t = emit (.count (ringAvail s.txq)) s := by
  obtain ⟨ha, hk⟩ := byAgent_next.mp h
  simp_all

theorem execRbAvailableRxq_next {s t : State} (h : execRbAvailableRxq s = .next t) :
    s.issuer = .host ∧ t = emit (.count (ringAvail s.rxq)) s := by
  obtain ⟨ha, hk⟩ := byAgent_next.mp h
  simp_all

theorem execCrc8Step_next {c b : Byte} {s t : State} (h : execCrc8Step c b s = .next t) :
    t = emit (.byte (Config.params.crc8Step c b)) s := by
  simp_all [execCrc8Step]

theorem execCrc8_next {bs : List Byte} {seed : Byte} {s t : State} (h : execCrc8 bs seed s = .next t) :
    t = emit (.byte (crc8With Config.params.crc8Step bs seed)) s := by
  simp_all [execCrc8]

theorem execBtSync_next {s t : State} (h : execBtSync s = .next t) :
    bitTimerAllowed s = true ∧ t = { s with tx := { s.tx with d := s.now } } := by
  obtain ⟨ha, hk⟩ := byTimerAgent_next.mp h
  simp_all

theorem execBtAdvance_next {d : Nat} {s t : State} (h : execBtAdvance d s = .next t) :
    bitTimerAllowed s = true ∧ t = { s with tx := { s.tx with d := s.tx.d + d } } := by
  obtain ⟨ha, hk⟩ := byTimerAgent_next.mp h
  simp_all

theorem execBtWait_next {s t : State} (h : execBtWait s = .next t) :
    bitTimerAllowed s = true ∧ (t = s ∨ t = await .btWait s) := by
  obtain ⟨ha, hk⟩ := byTimerAgent_next.mp h
  rcases ite_await hk with ⟨-, rfl⟩ | ⟨-, rfl⟩ <;> simp [ha]

theorem execTxStart_next {s t : State} (h : execTxStart s = .next t) :
    s.issuer = .host ∧ s.cfg.valid = true ∧ s.tx.run = false ∧ s.tx.phase = .stopped ∧ t = txStart Config.params s := by
  obtain ⟨ha, hk⟩ := byAgent_next.mp h
  split at hk <;> try split at hk <;> try split at hk
  all_goals simp_all

theorem execTxStep_next {s t : State} (h : execTxStep s = .next t) :
    s.issuer = .txa ∧
      ((txStepReady s = true ∧ t = txStep Config.params s) ∨ (txStepReady s = false ∧ t = await .txStep s)) := by
  obtain ⟨ha, hk⟩ := byAgent_next.mp h
  exact ⟨ha, ite_await hk⟩

theorem execTxStop_next {s t : State} (h : execTxStop s = .next t) :
    s.issuer = .host ∧ t = { s with tx := { s.tx with run := false } } := by
  obtain ⟨ha, hk⟩ := byAgent_next.mp h
  simp_all

theorem execRxStart_next {s t : State} (h : execRxStart s = .next t) :
    s.issuer = .host ∧ s.cfg.valid = true ∧ s.rx.run = false ∧ t = rxStart Config.params s := by
  obtain ⟨ha, hk⟩ := byAgent_next.mp h
  split at hk <;> try split at hk
  all_goals simp_all

theorem execRxEdge_next {s t : State} (h : execRxEdge s = .next t) :
    s.issuer = .rxc ∧
      ((transitionPending s = true ∧ t = rxEdge s) ∨ (transitionPending s = false ∧ t = await .rxEdge s)) := by
  obtain ⟨ha, hk⟩ := byAgent_next.mp h
  exact ⟨ha, ite_await hk⟩

theorem execRxProcess_next {s t : State} (h : execRxProcess s = .next t) :
    s.issuer = .rxp ∧
      ((s.rx.run = true ∧ ringEmpty s.spq = false ∧ t = rxProcess Config.params s) ∨ t = await .rxProcess s) := by
  obtain ⟨ha, hk⟩ := byAgent_next.mp h
  rcases ite_await hk with ⟨hr, rfl⟩ | ⟨-, rfl⟩
  · simp_all [ready]
  · exact ⟨ha, .inr rfl⟩

theorem execRxFlush_next {s t : State} (h : execRxFlush s = .next t) :
    s.issuer = .host ∧ s.rx.run = true ∧
      ((ringEmpty s.spq = true ∧ t = rxFlush Config.params s) ∨ (ringEmpty s.spq = false ∧ t = await .rxFlush s)) := by
  obtain ⟨ha, hk⟩ := byAgent_next.mp h
  split at hk
  · simp_all
  · exact ⟨ha, by simp_all, ite_await hk⟩

theorem execRxStop_next {s t : State} (h : execRxStop s = .next t) :
    s.issuer = .host ∧ t = { s with rx := { s.rx with run := false } } := by
  obtain ⟨ha, hk⟩ := byAgent_next.mp h
  simp_all

theorem execAkpInit_next {h : Nat} {s t : State} (e : execAkpInit h s = .next t) :
    s.issuer = .host ∧ t = { s with akp := akpPut s.akp h akpFresh } := by
  obtain ⟨ha, hk⟩ := byAgent_next.mp e
  simp_all

theorem execAkpFeed_next {h : Nat} {c : Byte} {s t : State} (e : execAkpFeed h c s = .next t) :
    s.issuer = .host ∧ ∃ T, akpGet? s.akp h = some T ∧
      t = emit (.tag (akpFeed Config.params T c).2) { s with akp := akpPut s.akp h (akpFeed Config.params T c).1 } := by
  obtain ⟨ha, hk⟩ := byAgent_next.mp e
  split at hk <;> simp_all

theorem execCfgSet_next {n : Nat} {p d v : Bool} {s t : State} (h : execCfgSet n p d v s = .next t) :
    s.issuer = .host ∧ n ∈ stdBauds ∧ channelBusy s = false ∧
      t = { s with cfg := { valid := true, baud := n, parity := p, stop2 := d, invert := v } } := by
  obtain ⟨ha, hk⟩ := byAgent_next.mp h
  split at hk <;> try split at hk
  all_goals simp_all

theorem execEnvTick_next {n : Nat} {s t : State} (h : execEnvTick n s = .next t) :
    s.issuer = .env ∧ n ≠ 0 ∧ t = { s with now := s.now + n } := by
  obtain ⟨ha, hk⟩ := byAgent_next.mp h
  split at hk <;> simp_all

theorem execEnvRxpin_next {v : Level} {s t : State} (h : execEnvRxpin v s = .next t) :
    s.issuer = .env ∧ t = { s with pin := { s.pin with rx := v } } := by
  obtain ⟨ha, hk⟩ := byAgent_next.mp h
  simp_all

end Sys2Proof.Machine
end

