-- ==== Sys2Proof/Laws/Frames.lean ====
section
/-! SUPPORT. The shape of what each shared operation writes: the state it answers is the one it was given but for the fields named. -/

namespace Sys2Proof.Machine

theorem pushAllTxq_shape (bs : List Byte) (s : State) :
    ∃ q tr, pushAllTxq bs s = { s with txq := q, trace := tr } := by
  induction bs generalizing s with
  | nil => exact ⟨s.txq, s.trace, rfl⟩
  | cons b r ih =>
    obtain ⟨q, tr, h⟩ := ih (pushTxq b s)
    exact ⟨q, tr, by rw [pushAllTxq, h]; rfl⟩

/-- The three things a pin write can leave (R185, R306). -/
theorem pinWrite_cases (v : Level) (s : State) :
    (s.draw = true ∧ pinWrite v s = { s with pin := { s.pin with tx := v } }) ∨
    (s.draw = false ∧ pinWrite v s = { s with pinErr := s.pinErr + 1, trace := s.trace ++ [.logError .pinWriteFail] }) := by
  unfold pinWrite
  cases hd : s.draw <;> simp [logError, hd]

theorem txStart_eq (p : Params) (s : State) :
    txStart p s = { pinWrite (invertLevel s.cfg true) s with
      tx := { run := true, d := s.now + stopBits s.cfg * pNom p s.cfg, frame := [], phase := .idle, idx := 0 } } := rfl

theorem txIdle_shape (s : State) :
    ∃ q d f ph ix, txIdle s = { s with txq := q, tx := { s.tx with d := d, frame := f, phase := ph, idx := ix } } := by
  unfold txIdle
  split
  · exact ⟨s.txq, s.tx.d, s.tx.frame, .stopped, s.tx.idx, rfl⟩
  · split
    · exact ⟨s.txq, s.tx.d, s.tx.frame, s.tx.phase, s.tx.idx, rfl⟩
    · exact ⟨_, _, _, _, _, rfl⟩

theorem txDone_shape (s : State) :
    ∃ q d f ph ix, txDone s = { s with txq := q, tx := { s.tx with d := d, frame := f, phase := ph, idx := ix } } := by
  unfold txDone
  split
  · exact ⟨s.txq, s.tx.d, s.tx.frame, .stopped, s.tx.idx, rfl⟩
  · split
    · exact ⟨s.txq, s.tx.d, s.tx.frame, .idle, s.tx.idx, rfl⟩
    · exact ⟨_, _, _, _, _, rfl⟩

/-- TX_STEP writes TXQ and the transmitter (not its run flag), and, in BUSY, makes one pin write. -/
theorem txStep_shape (p : Params) (s : State) :
    (∃ q d f ph ix, txStep p s = { s with txq := q, tx := { s.tx with d := d, frame := f, phase := ph, idx := ix } }) ∨
    (s.tx.phase = .busy ∧ txStep p s = txBusy p s) := by
  unfold txStep
  split
  · exact .inl ⟨s.txq, s.tx.d, s.tx.frame, s.tx.phase, s.tx.idx, rfl⟩
  · exact .inl (txIdle_shape s)
  · exact .inr ⟨by assumption, rfl⟩
  · exact .inl (txDone_shape s)

theorem trackSpan_shape (p : Params) (d : Nat) (l : Level) (s : State) :
    trackSpan p d l s = { s with rx := { s.rx with
      pmod := blend s.rx.pmod d
      sw := s.rx.sw ++ [{ orig := normalize (pNom p s.cfg) d (blend s.rx.pmod d), lvl := l }] } } := rfl

theorem convertSpan_shape (p : Params) (s : State) :
    ∃ k : BitPath, ∃ w, convertSpan p s = { s with rx := { s.rx with sw := w, bw := k.bw }, rxq := k.rxq, trace := k.trace } := by
  unfold convertSpan
  split
  · exact ⟨_, _, rfl⟩
  · exact ⟨bitPath s, s.rx.sw, rfl⟩

/-- ProcessSpan writes the period, the windows, RXQ and the trace. -/
theorem processSpan_shape (p : Params) (d : Nat) (l : Level) (s : State) :
    ∃ k : BitPath, ∃ w, processSpan p d l s =
      { s with rx := { s.rx with pmod := blend s.rx.pmod d, sw := w, bw := k.bw }, rxq := k.rxq, trace := k.trace } := by
  obtain ⟨k, w, h⟩ := convertSpan_shape p (trackSpan p d l s)
  exact ⟨k, w, by rw [processSpan, h, trackSpan_shape]⟩

theorem rxProcess_shape (p : Params) (s : State) :
    ∃ (q : RingBuf Span) (k : BitPath) (w : List SpanEntry) (pm : Nat), rxProcess p s =
      { s with spq := q, rx := { s.rx with pmod := pm, sw := w, bw := k.bw }, rxq := k.rxq, trace := k.trace } := by
  unfold rxProcess
  split
  · exact ⟨s.spq, bitPath s, s.rx.sw, s.rx.pmod, rfl⟩
  · next v q _ =>
    obtain ⟨k, w, h⟩ := processSpan_shape p v.dur v.lvl { s with spq := q }
    exact ⟨q, k, w, _, h⟩

theorem closeSpan_shape (p : Params) (s : State) :
    ∃ (k : BitPath) (w : List SpanEntry), closeSpan p s =
      { s with
        rx := { s.rx with
                e := max s.rx.e s.now
                pmod := if s.rx.e < s.now then blend s.rx.pmod (s.now - s.rx.e) else s.rx.pmod
                sw := w
                bw := k.bw }
        rxq := k.rxq
        trace := k.trace } := by
  unfold closeSpan
  split
  · next h =>
    obtain ⟨k, w, he⟩ := processSpan_shape p (s.now - s.rx.e) s.rx.lv s
    exact ⟨k, w, by simp [he, Nat.max_eq_right (Nat.le_of_lt h)]⟩
  · next h => exact ⟨bitPath s, s.rx.sw, by simp [bitPath, Nat.max_eq_left (Nat.le_of_not_lt h)]⟩

theorem drainSpans_shape (p : Params) (s : State) :
    ∃ k : BitPath, drainSpans p s =
      { s with rx := { s.rx with sw := s.rx.sw.getLast?.toList, bw := k.bw }, rxq := k.rxq, trace := k.trace } :=
  ⟨_, rfl⟩

/-- RX_FLUSH writes the time of the last transition, the period, the windows, RXQ and the trace. -/
theorem rxFlush_shape (p : Params) (s : State) :
    ∃ (k : BitPath) (w : List SpanEntry), rxFlush p s =
      { s with
        rx := { s.rx with
                e := max s.rx.e s.now
                pmod := if s.rx.e < s.now then blend s.rx.pmod (s.now - s.rx.e) else s.rx.pmod
                sw := w.getLast?.toList
                bw := k.bw }
        rxq := k.rxq
        trace := k.trace } := by
  obtain ⟨k, w, h⟩ := closeSpan_shape p s
  obtain ⟨k', h'⟩ := drainSpans_shape p (closeSpan p s)
  exact ⟨k', w, by rw [rxFlush, h', h]⟩

/-- RX_EDGE: a failed read logs; else the span is pushed and the receiver's time and level move. -/
theorem rxEdge_cases (s : State) :
    (s.draw = false ∧ rxEdge s = { s with pinErr := s.pinErr + 1, trace := s.trace ++ [.logError .pinReadFail] }) ∨
    (s.draw = true ∧ rxEdge s = { s with
      spq := (ringPush s.spq { dur := s.now - s.rx.e, lvl := s.rx.lv }).1
      trace := overflowTrace s.trace (ringPush s.spq { dur := s.now - s.rx.e, lvl := s.rx.lv }).2
      rx := { s.rx with e := s.now, lv := invertLevel s.cfg s.pin.rx } }) := by
  unfold rxEdge pinRead
  cases hd : s.draw <;> simp [logError, pushSpq, hd]

/-- RX_START, by the draw of its read. -/
theorem rxStart_cases (p : Params) (s : State) :
    (s.draw = false ∧ rxStart p s = { s with
      pinErr := s.pinErr + 1
      trace := s.trace ++ [.logError .pinReadFail]
      spq := ringInit s.spq
      rx := { run := true, e := s.now, lv := true, pmod := pNom p s.cfg, sw := [{ orig := 0, lvl := true }], bw := [] } }) ∨
    (s.draw = true ∧ rxStart p s = { s with
      spq := ringInit s.spq
      rx := { run := true, e := s.now, lv := invertLevel s.cfg s.pin.rx, pmod := pNom p s.cfg,
              sw := [{ orig := 0, lvl := true }], bw := [] } }) := by
  unfold rxStart pinRead
  cases hd : s.draw <;> simp [logError, hd]

/-- No instruction touches the turns or the issued commands, and the only thing one does to the agents inside an await is to add its own (R12, R328). -/
theorem exec_queues : ∀ i s t, exec i s = .next t → t.turns = s.turns ∧ t.pending = s.pending ∧
    (t.waiting = s.waiting ∨ ∃ j, t.waiting = s.waiting ++ [{ agent := s.issuer, instr := j, draw := s.draw }]) := by
  intro i s t h
  cases i <;> simp only [exec] at h
  case rbInitTxq => obtain ⟨-, -, rfl⟩ := execRbInitTxq_next h; simp
  case rbInitRxq => obtain ⟨-, -, rfl⟩ := execRbInitRxq_next h; simp
  case rbPushTxq => obtain ⟨-, rfl⟩ := execRbPushTxq_next h; simp
  case rbPushBulkTxq bs =>
    obtain ⟨-, rfl⟩ := execRbPushBulkTxq_next h
    obtain ⟨q, tr, hq⟩ := pushAllTxq_shape (bs.take (bulkCount bs s.txq)) s
    rw [hq]; simp
  case rbPopRxq => obtain ⟨-, rfl⟩ := execRbPopRxq_next h; simp
  case rbPopBulkRxq => obtain ⟨-, rfl⟩ := execRbPopBulkRxq_next h; simp
  case rbAvailableTxq => obtain ⟨-, rfl⟩ := execRbAvailableTxq_next h; simp
  case rbAvailableRxq => obtain ⟨-, rfl⟩ := execRbAvailableRxq_next h; simp
  case crc8Step => obtain rfl := execCrc8Step_next h; simp
  case crc8 => obtain rfl := execCrc8_next h; simp
  case btSync => obtain ⟨-, rfl⟩ := execBtSync_next h; simp
  case btAdvance => obtain ⟨-, rfl⟩ := execBtAdvance_next h; simp
  case btWait => obtain ⟨-, rfl | rfl⟩ := execBtWait_next h <;> simp
  case txStart =>
    obtain ⟨-, hv, -, -, rfl⟩ := execTxStart_next h
    rw [txStart_eq]; simp
  case txStep =>
    obtain ⟨-, ⟨hr, rfl⟩ | ⟨-, rfl⟩⟩ := execTxStep_next h
    · rcases txStep_shape Config.params s with ⟨q, d, f, ph, ix, e⟩ | ⟨-, e⟩
      · rw [e]; simp
      · rw [e, txBusy]; simp
    · simp
  case txStop =>
    obtain ⟨-, rfl⟩ := execTxStop_next h
    simp
  case rxStart =>
    obtain ⟨-, -, -, rfl⟩ := execRxStart_next h
    rcases rxStart_cases Config.params s with ⟨hd, e⟩ | ⟨-, e⟩ <;> rw [e] <;> simp
  case rxEdge =>
    obtain ⟨-, ⟨-, rfl⟩ | ⟨-, rfl⟩⟩ := execRxEdge_next h
    · rcases rxEdge_cases s with ⟨-, e⟩ | ⟨-, e⟩ <;> rw [e] <;> simp
    · simp
  case rxProcess =>
    obtain ⟨-, ⟨-, -, rfl⟩ | rfl⟩ := execRxProcess_next h
    · obtain ⟨q, k, w, pm, e⟩ := rxProcess_shape Config.params s
      rw [e]; simp
    · simp
  case rxFlush =>
    obtain ⟨-, -, ⟨-, rfl⟩ | ⟨-, rfl⟩⟩ := execRxFlush_next h
    · obtain ⟨k, w, e⟩ := rxFlush_shape Config.params s
      rw [e]; simp
    · simp
  case rxStop => obtain ⟨-, rfl⟩ := execRxStop_next h; simp
  case akpInit => obtain ⟨-, rfl⟩ := execAkpInit_next h; simp
  case akpFeed => obtain ⟨-, T, -, rfl⟩ := execAkpFeed_next h; simp
  case cfgSet =>
    obtain ⟨-, -, hb, rfl⟩ := execCfgSet_next h
    simp
  case envTick => obtain ⟨-, -, rfl⟩ := execEnvTick_next h; simp
  case envRxpin => obtain ⟨-, rfl⟩ := execEnvRxpin_next h; simp

end Sys2Proof.Machine
end

