-- ==== Sys2Proof/Laws/PerInstr.lean ====
section
/-! SUPPORT. One statement about every instruction as syntax: the code the encoder gives it fixes the shape of its operand tuple (R80, R83,
R84), and is no code of a refused role (R85). -/

namespace Sys2Proof.Laws.Shape

/-- The encoding has the operand tuple its code fixes, and its code is no refused role. -/
def Statement (i : Instr) : Prop :=
  operandTypes (encode i).1 = some ((encode i).2.map operandType) ∧ (encode i).1 ∉ roleRefusedCodes

theorem rbInitTxq : Statement .rbInitTxq := ⟨by simp only [encode]; rfl, by simp [encode, roleRefusedCodes]⟩

theorem rbPushTxq (b : Byte) : Statement (.rbPushTxq b) := ⟨by simp only [encode]; rfl, by simp [encode, roleRefusedCodes]⟩

theorem rbPushBulkTxq (bs : List Byte) : Statement (.rbPushBulkTxq bs) := ⟨by simp only [encode]; rfl, by simp [encode, roleRefusedCodes]⟩

theorem rbAvailableTxq : Statement .rbAvailableTxq := ⟨by simp only [encode]; rfl, by simp [encode, roleRefusedCodes]⟩

theorem rbInitRxq : Statement .rbInitRxq := ⟨by simp only [encode]; rfl, by simp [encode, roleRefusedCodes]⟩

theorem rbPopRxq : Statement .rbPopRxq := ⟨by simp only [encode]; rfl, by simp [encode, roleRefusedCodes]⟩

theorem rbPopBulkRxq (max : Nat) : Statement (.rbPopBulkRxq max) := ⟨by simp only [encode]; rfl, by simp [encode, roleRefusedCodes]⟩

theorem rbAvailableRxq : Statement .rbAvailableRxq := ⟨by simp only [encode]; rfl, by simp [encode, roleRefusedCodes]⟩

theorem crc8Step (c : Byte) (b : Byte) : Statement (.crc8Step c b) := ⟨by simp only [encode]; rfl, by simp [encode, roleRefusedCodes]⟩

theorem crc8 (bs : List Byte) (seed : Byte) : Statement (.crc8 bs seed) := ⟨by simp only [encode]; rfl, by simp [encode, roleRefusedCodes]⟩

theorem btSync : Statement .btSync := ⟨by simp only [encode]; rfl, by simp [encode, roleRefusedCodes]⟩

theorem btAdvance (d : Nat) : Statement (.btAdvance d) := ⟨by simp only [encode]; rfl, by simp [encode, roleRefusedCodes]⟩

theorem btWait : Statement .btWait := ⟨by simp only [encode]; rfl, by simp [encode, roleRefusedCodes]⟩

theorem txStart : Statement .txStart := ⟨by simp only [encode]; rfl, by simp [encode, roleRefusedCodes]⟩

theorem txStep : Statement .txStep := ⟨by simp only [encode]; rfl, by simp [encode, roleRefusedCodes]⟩

theorem txStop : Statement .txStop := ⟨by simp only [encode]; rfl, by simp [encode, roleRefusedCodes]⟩

theorem rxStart : Statement .rxStart := ⟨by simp only [encode]; rfl, by simp [encode, roleRefusedCodes]⟩

theorem rxEdge : Statement .rxEdge := ⟨by simp only [encode]; rfl, by simp [encode, roleRefusedCodes]⟩

theorem rxProcess : Statement .rxProcess := ⟨by simp only [encode]; rfl, by simp [encode, roleRefusedCodes]⟩

theorem rxFlush : Statement .rxFlush := ⟨by simp only [encode]; rfl, by simp [encode, roleRefusedCodes]⟩

theorem rxStop : Statement .rxStop := ⟨by simp only [encode]; rfl, by simp [encode, roleRefusedCodes]⟩

theorem akpInit (t : Nat) : Statement (.akpInit t) := ⟨by simp only [encode]; rfl, by simp [encode, roleRefusedCodes]⟩

theorem akpFeed (t : Nat) (c : Byte) : Statement (.akpFeed t c) := ⟨by simp only [encode]; rfl, by simp [encode, roleRefusedCodes]⟩

theorem cfgSet (baud : Nat) (parity : Bool) (stop2 : Bool) (invert : Bool) : Statement (.cfgSet baud parity stop2 invert) := ⟨by simp only [encode]; rfl, by simp [encode, roleRefusedCodes]⟩

theorem envTick (n : Nat) : Statement (.envTick n) := ⟨by simp only [encode]; rfl, by simp [encode, roleRefusedCodes]⟩

theorem envRxpin (v : Level) : Statement (.envRxpin v) := ⟨by simp only [encode]; rfl, by simp [encode, roleRefusedCodes]⟩

end Sys2Proof.Laws.Shape
end

