-- ==== Sys2Proof/Laws/Receiver.lean ====
section
/-! SUPPORT. The receiver's list operations: frames, scores, relaxation and what extraction drops. -/

namespace Sys2Proof.Machine

/-- A frame has B levels (R86, R175). -/
theorem frameLevels_length (c : Cfg) (b : Byte) : (frameLevels c b).length = frameBits c := by
  have hd : (dataBits b).length = 8 := rfl
  simp only [frameLevels, frameBits, parityBits, stopBits]
  cases c.parity <;> cases c.stop2 <;> simp [hd]

/-- A bit of the window, by the list of levels. -/
theorem bitAt_of_map {bw : List BitEntry} {i : Nat} {v : Level} (h : (bw.map (·.lvl))[i]? = some v) : bitAt bw i = v := by
  rw [List.getElem?_map] at h
  simp [bitAt, h]

theorem scoreAt_append_left {bw x : List BitEntry} {i : Nat} (h : i < bw.length) : scoreAt (bw ++ x) i = scoreAt bw i := by
  simp [scoreAt, List.getElem?_append_left h]

/-- A new bit has score 0 (R216). -/
theorem scoreAt_snoc (bw : List BitEntry) (l : Level) (i : Nat) : scoreAt (bw ++ [{ lvl := l, score := 0 }]) i = scoreAt bw i := by
  rcases Nat.lt_trichotomy i bw.length with h | h | h
  · exact scoreAt_append_left h
  · subst h; simp [scoreAt]
  · have h1 : (bw ++ [({ lvl := l, score := 0 } : BitEntry)]).length ≤ i := by simp; omega
    simp only [scoreAt, List.getElem?_eq_none h1, List.getElem?_eq_none (Nat.le_of_lt h)]

theorem scoreAt_set (bw : List BitEntry) (q i : Nat) (e : BitEntry) (h : q < bw.length) :
    scoreAt (bw.set q e) i = if i = q then e.score else scoreAt bw i := by
  unfold scoreAt
  rw [List.getElem?_set]
  split
  · next hh => subst hh; rw [if_pos rfl]; rfl
  · next hh => rw [if_neg (fun e => hh e.symm)]

/-- Scoring changes no level (R217). -/
theorem map_lvl_set (bw : List BitEntry) (q : Nat) (z : Int) : (bw.set q { lvl := bitAt bw q, score := z }).map (·.lvl) = bw.map (·.lvl) := by
  apply List.ext_getElem?
  intro i
  simp only [List.getElem?_map, List.getElem?_set]
  split
  · next h => subst h; split
              · next h => simp [bitAt, h]
              · next h => simp [List.getElem?_eq_none (Nat.le_of_not_lt h)]
  · rfl

/-- CORRECT either leaves the window alone or moves time from an entry to the next newer one (R210). -/
theorem correct_cases (P level i : Nat) (w : List Nat) :
    correct P level i w = w ∨
    ∃ t, t ≤ w.getD (i - 1) 0 ∧ correct P level i w = (w.set (i - 1) (w.getD (i - 1) 0 - t)).set i (w.getD i 0 + t) := by
  unfold correct
  dsimp only
  split
  · exact .inr ⟨_, Nat.min_le_right _ _, rfl⟩
  · exact .inl rfl

/-- The marks of CONSUME are all on entries it drops (R224). -/
theorem markConsumed_drop (c : Cfg) (q : Nat) (bw : List BitEntry) :
    (markConsumed c q bw).drop (q + frameBits c) = bw.drop (q + frameBits c) := by
  apply List.ext_getElem?
  intro j
  simp only [List.getElem?_drop, markConsumed, List.getElem?_mapIdx]
  have : ¬(q ≤ q + frameBits c + j ∧ q + frameBits c + j < q + frameBits c) := by omega
  simp

/-- CONSUME drops the frame and everything older (R224). -/
theorem consume_bw (c : Cfg) (q : Nat) (k : BitPath) : (consume c q k).bw = k.bw.drop (q + frameBits c) :=
  markConsumed_drop c q k.bw

/-- EXTRACT_ONE drops at least one of the oldest bits (R222, R224). -/
theorem extractOne_bw (c : Cfg) (hi : Nat) (k : BitPath) : ∃ n, 0 < n ∧ (extractOne c hi k).bw = k.bw.drop n := by
  unfold extractOne
  split
  next q _ => exact ⟨q + frameBits c, by simp [frameBits], consume_bw c q k⟩
  next => exact ⟨hi + 1, by omega, rfl⟩

/-- Any fuel of at least the number of bits gives what EXTRACT gives (R222). -/
theorem extractLoop_fuel (c : Cfg) : ∀ (n m : Nat) (k : BitPath), k.bw.length ≤ n → k.bw.length ≤ m →
    extractLoop c n k = extractLoop c m k := by
  have hB : 0 < 2 * frameBits c + scoredBits c - 1 := by simp [frameBits]; omega
  intro n
  induction n with
  | zero =>
    intro m k h1 h2
    cases m with
    | zero => rfl
    | succ m => simp only [extractLoop]; rw [if_neg (by omega)]
  | succ n ih =>
    intro m k h1 h2
    cases m with
    | zero => simp only [extractLoop]; rw [if_neg (by omega)]
    | succ m =>
      simp only [extractLoop]
      split
      · obtain ⟨j, hj, he⟩ := extractOne_bw c (frameBits c - 1) k
        exact ih _ _ (by rw [he, List.length_drop]; omega) (by rw [he, List.length_drop]; omega)
      · rfl

/-- Any fuel of at least the number of bits gives what EXTRACT_FINAL gives (R223). -/
theorem extractFinalLoop_fuel (c : Cfg) : ∀ (n m : Nat) (k : BitPath), k.bw.length ≤ n → k.bw.length ≤ m →
    extractFinalLoop c n k = extractFinalLoop c m k := by
  have hB : 0 < scoredBits c := by simp [scoredBits, frameBits]
  intro n
  induction n with
  | zero =>
    intro m k h1 h2
    cases m with
    | zero => rfl
    | succ m => simp only [extractFinalLoop]; rw [if_neg (by omega)]
  | succ n ih =>
    intro m k h1 h2
    cases m with
    | zero => simp only [extractFinalLoop]; rw [if_neg (by omega)]
    | succ m =>
      simp only [extractFinalLoop]
      split
      · obtain ⟨j, hj, he⟩ := extractOne_bw c (min (frameBits c - 1) (k.bw.length - scoredBits c)) k
        exact ih _ _ (by rw [he, List.length_drop]; omega) (by rw [he, List.length_drop]; omega)
      · rfl

/-- A pass of RELAX visits the entries from the newest to entry 1 (R209). -/
theorem relaxPass_eq_foldl (P level n : Nat) (w : List Nat) : relaxPass P level n w =
    (List.range n).foldl (fun v j => correct P level (n - j) v) w := by
  induction n generalizing w with
  | zero => rfl
  | succ n ih =>
    rw [relaxPass, ih, List.range_succ_eq_map, List.foldl_cons, List.foldl_map]
    simp [Nat.succ_eq_add_one]

theorem relaxPass_length (P level n : Nat) (w : List Nat) : (relaxPass P level n w).length = w.length := by
  induction n generalizing w with
  | zero => rfl
  | succ n ih =>
    rw [relaxPass, ih]
    unfold correct
    dsimp only
    split <;> simp

theorem relax_length (P : Nat) (sw : List SpanEntry) : (relax P sw).length = sw.length := by
  have : ∀ ls w, (relaxAt P ls w).length = w.length := by
    intro ls
    induction ls with
    | nil => intro w; rfl
    | cons a r ih => intro w; rw [relaxAt, ih, relaxPass_length]
  rw [relax, this, List.length_map]

end Sys2Proof.Machine
end

