-- ==== Sys2Proof/Laws/RingBuffer.lean ====
section
/-! SUPPORT. Rings: the capacity never changes, the operations keep `RingOk`, the counts are bounded, and each operation does to the
abstract content what R152 says. -/

namespace Sys2Proof.Machine

variable {α : Type} {q : RingBuf α}

theorem RingOk_cap_pos (h : RingOk q) : 0 < ringCap q := Nat.lt_of_le_of_lt (Nat.zero_le _) h.1

@[simp] theorem ringInit_cap (q : RingBuf α) : ringCap (ringInit q) = ringCap q := rfl

@[simp] theorem ringPush_cap (q : RingBuf α) (v : α) : ringCap (ringPush q v).1 = ringCap q := by
  unfold ringPush ringCap; split <;> simp

@[simp] theorem ringPop_cap (q : RingBuf α) : ringCap (ringPop q).2 = ringCap q := by
  unfold ringPop ringCap; split <;> rfl

@[simp] theorem ringPopMany_cap (n : Nat) (q : RingBuf α) : ringCap (ringPopMany n q).2 = ringCap q := by
  induction n generalizing q with
  | zero => rfl
  | succ n ih => simp [ringPopMany, ih]

theorem RingOk_init (h : 0 < ringCap q) : RingOk (ringInit q) := by
  simp [RingOk, ringInit, ringCap] at *; omega

theorem RingOk_ofCapacity {n : Nat} {v : α} (h : 0 < n) : RingOk (RingBuf.ofCapacity n v) := by
  simp [RingOk, RingBuf.ofCapacity, ringCap, h]

theorem RingOk_push (h : RingOk q) (v : α) : RingOk (ringPush q v).1 := by
  have hp := RingOk_cap_pos h
  have hn : ringNext q q.tail < ringCap q := Nat.mod_lt _ hp
  obtain ⟨h1, h2, h3⟩ := h
  unfold ringPush
  split
  · simp [RingOk, ringCap] at *; exact hn
  · refine ⟨?_, ?_, ?_⟩ <;> simp [ringCap] at * <;> first | exact h1 | exact hn | exact fun e => e.symm

theorem RingOk_pop (h : RingOk q) : RingOk (ringPop q).2 := by
  have hp := RingOk_cap_pos h
  unfold ringPop
  split
  · exact h
  · exact ⟨Nat.mod_lt _ hp, h.2.1, by simp⟩

theorem RingOk_popMany (n : Nat) (h : RingOk q) : RingOk (ringPopMany n q).2 := by
  induction n generalizing q with
  | zero => exact h
  | succ n ih => exact ih (RingOk_pop h)

/-- `avail` never exceeds the capacity (R150). -/
theorem ringAvail_le (h : RingOk q) : ringAvail q ≤ ringCap q := by
  unfold ringAvail
  split
  · exact Nat.le_refl _
  · exact Nat.le_of_lt (Nat.mod_lt _ (RingOk_cap_pos h))

/-- `avail` of a ring that is not full, without the modulus: from the start to the tail, round the end if need be. -/
theorem ringAvail_notFull (h : RingOk q) (hf : q.full = false) :
    ringAvail q = if q.start ≤ q.tail then q.tail - q.start else q.tail + ringCap q - q.start := by
  obtain ⟨h1, h2, -⟩ := h
  simp only [ringAvail, hf, Bool.false_eq_true, if_false]
  split
  · rw [show q.tail + ringCap q - q.start = (q.tail - q.start) + ringCap q by omega, Nat.add_mod_right,
      Nat.mod_eq_of_lt (by omega)]
  · rw [Nat.mod_eq_of_lt (by omega)]

theorem ringEmpty_iff (h : RingOk q) : ringEmpty q = true ↔ ringAvail q = 0 := by
  have hp := RingOk_cap_pos h
  cases hf : q.full
  · rw [ringAvail_notFull h hf]
    obtain ⟨h1, h2, -⟩ := h
    simp [ringEmpty, hf]
    split <;> omega
  · simp [ringEmpty, ringAvail, hf]; omega

theorem filterMap_map_some {ι : Type} (f : ι → Option α) (l : List ι) (h : ∀ i ∈ l, (f i).isSome) :
    (l.filterMap f).map some = l.map f := by
  induction l with
  | nil => rfl
  | cons x r ih =>
    obtain ⟨v, hv⟩ := Option.isSome_iff_exists.mp (h x (by simp))
    simp [hv, ih (fun i hi => h i (by simp [hi]))]

/-- Slot by slot, the abstract content is what the ring's storage holds from `start` on (R152). -/
theorem ringContents_slots (h : RingOk q) :
    (ringContents q).map some = (List.range (ringAvail q)).map (fun i => q.buf[(q.start + i) % ringCap q]?) := by
  refine filterMap_map_some _ _ (fun i _ => ?_)
  have : (q.start + i) % ringCap q < q.buf.length := Nat.mod_lt _ (RingOk_cap_pos h)
  simp [this]

/-- `avail` is the number of elements held (R141, R152). -/
theorem ringContents_length (h : RingOk q) : (ringContents q).length = ringAvail q := by
  simpa using congrArg List.length (ringContents_slots h)

theorem contents_eq_of_map_some {l₁ l₂ : List α} (h : l₁.map some = l₂.map some) : l₁ = l₂ :=
  List.map_injective_iff.mpr (Option.some_injective α) h

/-- The tail stands `avail` slots after the start. -/
theorem ringTail_eq (h : RingOk q) : (q.start + ringAvail q) % ringCap q = q.tail := by
  cases hf : q.full
  · rw [ringAvail_notFull h hf]
    obtain ⟨h1, h2, -⟩ := h
    split
    · rw [Nat.mod_eq_of_lt (by omega)]; omega
    · rw [show q.start + (q.tail + ringCap q - q.start) = q.tail + ringCap q by omega, Nat.add_mod_right,
        Nat.mod_eq_of_lt h2]
  · rw [show ringAvail q = ringCap q by simp [ringAvail, hf], Nat.add_mod_right, Nat.mod_eq_of_lt h.1, h.2.2 hf]

theorem mod_add_ne {a i j n : Nat} (hij : i < j) (hj : j < n) : (a + i) % n ≠ (a + j) % n := by
  intro e
  have := Nat.ModEq.add_left_cancel' a e
  rw [Nat.ModEq, Nat.mod_eq_of_lt hj, Nat.mod_eq_of_lt (by omega)] at this
  omega

theorem ringAvail_lt_of_notFull (h : RingOk q) (hf : q.full = false) : ringAvail q < ringCap q := by
  simp only [ringAvail, hf, Bool.false_eq_true, if_false]
  exact Nat.mod_lt _ (RingOk_cap_pos h)

theorem ringAvail_push_notFull (h : RingOk q) (hf : q.full = false) (v : α) :
    ringAvail (ringPush q v).1 = ringAvail q + 1 := by
  have hlt := ringAvail_lt_of_notFull h hf
  have ht := ringTail_eq h
  have hp := RingOk_cap_pos h
  have hn : ringNext q q.tail = (q.start + (ringAvail q + 1)) % ringCap q := by
    rw [ringNext, ← ht, Nat.mod_add_mod]; rfl
  by_cases he : ringNext q q.tail = q.start
  · have : ringAvail q + 1 = ringCap q := by
      by_contra hc
      refine mod_add_ne (a := q.start) (i := 0) (j := ringAvail q + 1) (n := ringCap q) (by omega) (by omega) ?_
      rw [← hn, he, Nat.add_zero, Nat.mod_eq_of_lt h.1]
    simp only [ringAvail, ringPush, hf, he, ringCap] at this ⊢
    simpa using this.symm
  · have hlt' : ringAvail q + 1 < ringCap q := by
      by_contra hc
      apply he
      rw [hn, show ringAvail q + 1 = ringCap q by omega, Nat.add_mod_right, Nat.mod_eq_of_lt h.1]
    have hok := RingOk_push h v
    have hf' : (ringPush q v).1.full = false := by simp [ringPush, hf, he]
    have ht' := ringTail_eq hok
    have hl' := ringAvail_lt_of_notFull hok hf'
    rw [ringPush_cap] at ht' hl'
    have hs : (ringPush q v).1.start = q.start := by simp [ringPush, hf]
    have htl : (ringPush q v).1.tail = ringNext q q.tail := by simp [ringPush, hf]
    rw [hs, htl, hn] at ht'
    rcases Nat.lt_trichotomy (ringAvail (ringPush q v).1) (ringAvail q + 1) with hc | hc | hc
    · exact absurd ht' (mod_add_ne hc hlt')
    · exact hc
    · exact absurd ht'.symm (mod_add_ne hc hl')

/-- RB_PUSH on a ring that is not full appends (R143, R152). -/
theorem ringContents_push_notFull (h : RingOk q) (hf : q.full = false) (v : α) :
    ringContents (ringPush q v).1 = ringContents q ++ [v] := by
  apply contents_eq_of_map_some
  have hlt := ringAvail_lt_of_notFull h hf
  have ht := ringTail_eq h
  rw [List.map_append, ringContents_slots h, ringContents_slots (RingOk_push h v), ringAvail_push_notFull h hf,
    List.range_succ, List.map_append, ringPush_cap]
  have hb : (ringPush q v).1.buf = q.buf.set q.tail v := by simp [ringPush, hf]
  have hs : (ringPush q v).1.start = q.start := by simp [ringPush, hf]
  rw [hb, hs]
  congr 1
  · apply List.map_congr_left
    intro i hi
    have hi := List.mem_range.mp hi
    rw [List.getElem?_set_ne]
    rw [← ht]
    exact (mod_add_ne hi hlt).symm
  · simp only [List.map_cons, List.map_nil, ht]
    rw [List.getElem?_set_self (show q.tail < q.buf.length from h.2.1)]

/-- RB_PUSH on a full ring drops the oldest element and appends (R143, R151, R152). -/
theorem ringContents_push_full (h : RingOk q) (hf : q.full = true) (v : α) :
    ringContents (ringPush q v).1 = (ringContents q).drop 1 ++ [v] := by
  apply contents_eq_of_map_some
  have hp := RingOk_cap_pos h
  have hst := h.2.2 hf
  have hb : (ringPush q v).1.buf = q.buf.set q.tail v := by simp [ringPush, hf]
  have hs : (ringPush q v).1.start = ringNext q q.tail := by simp [ringPush, hf]
  have ha : ringAvail (ringPush q v).1 = ringCap q := by
    have : (ringPush q v).1.full = true := by simp [ringPush, hf]
    simp [ringAvail, this]
  have ha0 : ringAvail q = ringCap q := by simp [ringAvail, hf]
  rw [List.map_append, List.map_drop, ringContents_slots h, ringContents_slots (RingOk_push h v), ha, ha0, ringPush_cap, hb, hs]
  obtain ⟨m, hm⟩ := Nat.exists_eq_succ_of_ne_zero (Nat.pos_iff_ne_zero.mp hp)
  have hdrop : ∀ g : Nat → Option α, ((List.range (m + 1)).map g).drop 1 = (List.range m).map (g ∘ Nat.succ) := by
    intro g; rw [List.range_succ_eq_map]; simp
  rw [hm, Nat.succ_eq_add_one, hdrop, List.range_succ, List.map_append]
  have hidx : ∀ i, (ringNext q q.tail + i) % (m + 1) = (q.tail + (i + 1)) % (m + 1) := by
    intro i; rw [ringNext, hm, Nat.mod_add_mod]; congr 1; omega
  congr 1
  · apply List.map_congr_left
    intro i hi
    have hi := List.mem_range.mp hi
    simp only [Function.comp, hidx, hst, Nat.succ_eq_add_one]
    rw [List.getElem?_set_ne]
    intro e
    refine mod_add_ne (a := q.tail) (i := 0) (j := i + 1) (n := m + 1) (by omega) (by omega) ?_
    rw [← e, Nat.add_zero, Nat.mod_eq_of_lt (show q.tail < m + 1 by rw [← Nat.succ_eq_add_one, ← hm]; exact h.2.1)]
  · simp only [List.map_cons, List.map_nil, hidx]
    rw [Nat.add_mod_right, Nat.mod_eq_of_lt (show q.tail < m + 1 by rw [← Nat.succ_eq_add_one, ← hm]; exact h.2.1)]
    rw [List.getElem?_set_self (show q.tail < q.buf.length from h.2.1)]

theorem ringPop_empty (he : ringEmpty q = true) : ringPop q = (none, q) := by simp [ringPop, he]

theorem ringContents_nil_iff (h : RingOk q) : ringContents q = [] ↔ ringEmpty q = true := by
  rw [ringEmpty_iff h, ← ringContents_length h, List.length_eq_zero_iff]

theorem ringAvail_pop (h : RingOk q) (he : ringEmpty q = false) : ringAvail (ringPop q).2 + 1 = ringAvail q := by
  have hpos : 0 < ringAvail q := by
    rcases Nat.eq_zero_or_pos (ringAvail q) with h0 | h0
    · rw [(ringEmpty_iff h).mpr h0] at he; cases he
    · exact h0
  have hle := ringAvail_le h
  have hok := RingOk_pop h
  have hf : (ringPop q).2.full = false := by simp [ringPop, he]
  have ht := ringTail_eq hok
  have hl := ringAvail_lt_of_notFull hok hf
  have hs : (ringPop q).2.start = ringNext q q.start := by simp [ringPop, he]
  have htl : (ringPop q).2.tail = q.tail := by simp [ringPop, he]
  rw [ringPop_cap] at ht hl
  rw [hs, htl, ringNext, Nat.mod_add_mod, ← ringTail_eq h] at ht
  have e : (q.start + 1 + ringAvail (ringPop q).2) % ringCap q = (q.start + 1 + (ringAvail q - 1)) % ringCap q := by
    rw [ht]; congr 1; omega
  rcases Nat.lt_trichotomy (ringAvail (ringPop q).2) (ringAvail q - 1) with hc | hc | hc
  · exact absurd e (mod_add_ne hc (by omega))
  · omega
  · exact absurd e.symm (mod_add_ne hc hl)

/-- RB_POP on a ring that holds something answers the oldest element and leaves the others (R145, R152). -/
theorem ringContents_pop (h : RingOk q) {v : α} {rest : List α} (hc : ringContents q = v :: rest) :
    (ringPop q).1 = some v ∧ ringContents (ringPop q).2 = rest := by
  have he : ringEmpty q = false := by
    rw [Bool.eq_false_iff]; intro e; rw [(ringContents_nil_iff h).mpr e] at hc; cases hc
  have ha := ringAvail_pop h he
  have hslots := ringContents_slots h
  rw [hc, ← ha, List.range_succ_eq_map, List.map_cons, List.map_cons, List.cons.injEq, List.map_map] at hslots
  constructor
  · simp only [ringPop, he]
    rw [Nat.add_zero, Nat.mod_eq_of_lt h.1] at hslots
    simpa using hslots.1.symm
  · apply contents_eq_of_map_some
    rw [ringContents_slots (RingOk_pop h), hslots.2, ringPop_cap]
    have hs : (ringPop q).2.start = ringNext q q.start := by simp [ringPop, he]
    have hb : (ringPop q).2.buf = q.buf := by simp [ringPop, he]
    rw [hs, hb]
    apply List.map_congr_left
    intro i _
    simp only [Function.comp, ringNext, Nat.mod_add_mod]
    congr 2; omega

/-- RB_PUSH on the abstract content, full or not (R152). -/
theorem ringContents_push (h : RingOk q) (v : α) :
    ringContents (ringPush q v).1 = (ringContents q ++ [v]).drop ((ringContents q).length + 1 - ringCap q) := by
  cases hf : q.full
  · rw [ringContents_push_notFull h hf, ringContents_length h]
    have := ringAvail_lt_of_notFull h hf
    rw [show ringAvail q + 1 - ringCap q = 0 by omega, List.drop_zero]
  · have ha : ringAvail q = ringCap q := by simp [ringAvail, hf]
    have hp := RingOk_cap_pos h
    rw [ringContents_push_full h hf, ringContents_length h, ha, Nat.add_sub_cancel_left,
      List.drop_append_of_le_length (by rw [ringContents_length h]; omega)]

theorem ringFull_iff (h : RingOk q) : q.full = true ↔ (ringContents q).length = ringCap q := by
  rw [ringContents_length h]
  constructor
  · intro hf; simp [ringAvail, hf]
  · intro e
    by_contra hf
    have := ringAvail_lt_of_notFull h (by simpa using hf)
    omega

/-- A push into free space notes no overflow (R144). -/
theorem ringPush_overflow (q : RingBuf α) (v : α) : (ringPush q v).2 = q.full := by
  unfold ringPush; split <;> simp_all

/-- Pushes that fit append their elements (R144, R152). -/
theorem ringContents_pushes (vs : List α) (h : RingOk q) (hv : (ringContents q).length + vs.length ≤ ringCap q) :
    ringContents (vs.foldl (fun r v => (ringPush r v).1) q) = ringContents q ++ vs ∧
    RingOk (vs.foldl (fun r v => (ringPush r v).1) q) ∧
    ringCap (vs.foldl (fun r v => (ringPush r v).1) q) = ringCap q := by
  induction vs generalizing q with
  | nil => simp [h]
  | cons v r ih =>
    have hf : q.full = false := by
      rw [Bool.eq_false_iff]; intro hf
      have := (ringFull_iff h).mp hf
      simp at hv; omega
    have hc := ringContents_push_notFull h hf v
    obtain ⟨i1, i2, i3⟩ := ih (q := (ringPush q v).1) (RingOk_push h v) (by rw [hc, ringPush_cap]; simp at hv ⊢; omega)
    refine ⟨?_, i2, by rw [← ringPush_cap q v]; exact i3⟩
    rw [List.foldl_cons, i1, hc]; simp

/-- Pops in turn answer the oldest elements (R146, R152). -/
theorem ringContents_popMany (n : Nat) (h : RingOk q) :
    (ringPopMany n q).1 = (ringContents q).take n ∧ ringContents (ringPopMany n q).2 = (ringContents q).drop n := by
  induction n generalizing q with
  | zero => simp [ringPopMany]
  | succ n ih =>
    obtain ⟨i1, i2⟩ := ih (RingOk_pop h)
    simp only [ringPopMany, i1, i2]
    cases hc : ringContents q with
    | nil =>
      have := ringPop_empty ((ringContents_nil_iff h).mp hc)
      simp [this, hc]
    | cons v rest =>
      obtain ⟨p1, p2⟩ := ringContents_pop h hc
      simp [p1, p2]

end Sys2Proof.Machine
end

