-- ==== Sys2Proof/Laws/Step.lean ====
section
/-! SUPPORT. What one step can do: the choice of the next command, the inversion of `step`, and the one induction over it that every
invariant goes through. -/

namespace Sys2Proof.Machine

/-- `takeFirst` takes the first element that meets `p` and keeps the others in their order. -/
theorem takeFirst_some {α : Type} {p : α → Bool} {l : List α} {x : α} {r : List α} :
    takeFirst p l = some (x, r) ↔ ∃ l₁ l₂, l = l₁ ++ x :: l₂ ∧ r = l₁ ++ l₂ ∧ p x = true ∧ ∀ y ∈ l₁, p y = false := by
  constructor
  · intro h
    induction l generalizing r with
    | nil => simp [takeFirst] at h
    | cons y l ih =>
      unfold takeFirst at h
      split at h
      next hy =>
        obtain ⟨rfl, rfl⟩ : y = x ∧ l = r := by simpa using h
        exact ⟨[], l, rfl, rfl, hy, by simp⟩
      next hy =>
        obtain ⟨⟨v, r'⟩, hv, he⟩ := Option.map_eq_some_iff.mp h
        obtain ⟨rfl, rfl⟩ : v = x ∧ y :: r' = r := by simpa using he
        obtain ⟨l₁, l₂, rfl, rfl, hr, hn⟩ := ih hv
        exact ⟨y :: l₁, l₂, rfl, rfl, hr, by simpa using ⟨by simpa using hy, hn⟩⟩
  · rintro ⟨l₁, l₂, rfl, rfl, hx, hn⟩
    induction l₁ with
    | nil => simp [takeFirst, hx]
    | cons y l₁ ih => simp_all [takeFirst]

theorem takeFirst_none {α : Type} {p : α → Bool} {l : List α} : takeFirst p l = none ↔ ∀ y ∈ l, p y = false := by
  induction l with
  | nil => simp [takeFirst]
  | cons y l ih =>
    unfold takeFirst
    split <;> simp_all

/-- The state a command is executed in: the block's fields as they are, the turn used, the command taken off its queue, the issuer and
the draw set. -/
abbrev atIssue (s : State) (ts : List Agent) (ps : List Issue) (ws : List Waiter) (a : Agent) (d : Bool) : State :=
  { s with turns := ts, pending := ps, waiting := ws, issuer := a, draw := d }

/-- An agent leaves its await at its turn, if the await has come to hold, and is taken out of it. -/
theorem select_resume {s t : State} {w : Waiter} : select s = .resume w t ↔
    ∃ ts l₁ l₂, s.turns = w.agent :: ts ∧ s.waiting = l₁ ++ w :: l₂ ∧ (∀ x ∈ l₁, x.agent ≠ w.agent) ∧ ready w.instr s = true ∧
      t = atIssue s ts s.pending (l₁ ++ l₂) w.agent w.draw := by
  constructor
  · intro h
    unfold select at h
    split at h
    · simp at h
    next a ts hturns =>
      split at h
      next w' ws htake =>
        obtain ⟨l₁, l₂, hw, rfl, ha, hn⟩ := takeFirst_some.mp htake
        split at h
        next hr =>
          obtain ⟨rfl, rfl⟩ : w' = w ∧ atIssue s ts s.pending (l₁ ++ l₂) w'.agent w'.draw = t := by simpa using h
          obtain rfl : w'.agent = a := by simpa using ha
          exact ⟨ts, l₁, l₂, hturns, hw, by simpa using hn, hr, rfl⟩
        next => simp at h
      next => split at h <;> simp at h
  · rintro ⟨ts, l₁, l₂, hturns, hw, hn, hr, rfl⟩
    have h : takeFirst (fun v => decide (v.agent = w.agent)) s.waiting = some (w, l₁ ++ l₂) :=
      takeFirst_some.mpr ⟨l₁, l₂, hw, rfl, by simp, by simpa using hn⟩
    simp [select, hturns, h, hr]

/-- At its turn an agent outside an await has the first command it has issued taken. -/
theorem select_fetch {s t : State} {c : Issue} : select s = .fetch c t ↔
    ∃ ts l₁ l₂, s.turns = c.agent :: ts ∧ (∀ w ∈ s.waiting, w.agent ≠ c.agent) ∧ s.pending = l₁ ++ c :: l₂ ∧
      (∀ x ∈ l₁, x.agent ≠ c.agent) ∧ t = atIssue s ts (l₁ ++ l₂) s.waiting c.agent c.draw := by
  constructor
  · intro h
    unfold select at h
    split at h
    · simp at h
    next a ts hturns =>
      split at h
      next => split at h <;> simp at h
      next hnone =>
        split at h
        next c' cs htake =>
          obtain ⟨l₁, l₂, hp, rfl, ha, hn⟩ := takeFirst_some.mp htake
          obtain ⟨rfl, rfl⟩ : c' = c ∧ atIssue s ts (l₁ ++ l₂) s.waiting c'.agent c'.draw = t := by simpa using h
          obtain rfl : c'.agent = a := by simpa using ha
          exact ⟨ts, l₁, l₂, hturns, by simpa using takeFirst_none.mp hnone, hp, by simpa using hn, rfl⟩
        next => simp at h
  · rintro ⟨ts, l₁, l₂, hturns, hw, hp, hn, rfl⟩
    have h1 : takeFirst (fun w => decide (w.agent = c.agent)) s.waiting = none := takeFirst_none.mpr (by simpa using hw)
    have h2 : takeFirst (fun d => decide (d.agent = c.agent)) s.pending = some (c, l₁ ++ l₂) :=
      takeFirst_some.mpr ⟨l₁, l₂, hp, rfl, by simp, by simpa using hn⟩
    simp [select, hturns, h1, h2]

/-- A turn that passes takes itself off, and nothing else. -/
theorem select_idle {s t : State} (h : select s = .idle t) : t = { s with turns := s.turns.tail } := by
  unfold select at h
  split at h
  next ht => obtain rfl : s = t := by simpa using h
             rw [ht]; exact congrArg (fun l => { s with turns := l }) ht
  next a ts ht =>
    have hpass : ∀ u : State, u = { s with turns := ts } → u = { s with turns := s.turns.tail } := by
      rintro u rfl; rw [ht]; rfl
    split at h <;> split at h <;> simp_all

/-- A step that answers a next state passes a turn, or executes one instruction in the state of its command. -/
theorem step_inversion {s t : State} (h : step s = .next t) :
    t = { s with turns := s.turns.tail } ∨ ∃ i ts ps ws a d, exec i (atIssue s ts ps ws a d) = .next t ∧
      ps.Sublist s.pending ∧ ws.Sublist s.waiting ∧
      ((∃ w ∈ s.waiting, w.draw = d ∧ w.agent = a) ∨ (∃ c ∈ s.pending, c.draw = d ∧ c.agent = a)) ∧
      (WaitOk s → ∀ w ∈ ws, w.agent ≠ a) := by
  unfold step at h
  split at h
  next u hsel =>
    obtain rfl : u = t := by simpa using h
    exact .inl (select_idle hsel)
  next w u hsel =>
    obtain ⟨ts, l₁, l₂, -, hw, -, -, rfl⟩ := select_resume.mp hsel
    refine .inr ⟨w.instr, ts, s.pending, l₁ ++ l₂, w.agent, w.draw, h, List.Sublist.refl _, ?_, .inl ⟨w, by simp [hw], rfl, rfl⟩, ?_⟩
    · rw [hw]; exact List.Sublist.append (List.Sublist.refl _) (List.sublist_cons_self _ _)
    · intro hn x hx hxa
      unfold WaitOk at hn
      rw [hw] at hn
      simp only [List.map_append, List.map_cons, List.nodup_append, List.nodup_cons, List.mem_map, List.mem_cons] at hn
      obtain ⟨-, ⟨hn2, -⟩, hn3⟩ := hn
      rcases List.mem_append.mp hx with hx | hx
      · exact hn3 _ ⟨x, hx, rfl⟩ _ (.inl rfl) hxa
      · exact hn2 ⟨x, hx, hxa⟩
  next c u hsel =>
    obtain ⟨ts, l₁, l₂, -, hw, hp, -, rfl⟩ := select_fetch.mp hsel
    split at h
    next i _ =>
      refine .inr ⟨i, ts, l₁ ++ l₂, s.waiting, c.agent, c.draw, h, ?_, List.Sublist.refl _, .inr ⟨c, by simp [hp], rfl, rfl⟩, fun _ => hw⟩
      rw [hp]; exact List.Sublist.append (List.Sublist.refl _) (List.sublist_cons_self _ _)
    next => simp at h

/-- What does not look at the queues and is kept by every instruction is kept by every step. -/
theorem step_keeps {P : State → Prop} (queues : ∀ s ts ps ws a d, P s → P (atIssue s ts ps ws a d))
    (instrs : ∀ i s t, P s → exec i s = .next t → P t) {s t : State} (hs : P s) (h : step s = .next t) : P t := by
  rcases step_inversion h with rfl | ⟨i, ts, ps, ws, a, d, he, -⟩
  · exact queues s s.turns.tail s.pending s.waiting s.issuer s.draw hs
  · exact instrs i _ t (queues s ts ps ws a d hs) he

end Sys2Proof.Machine
end

