-- ==== Sys2Proof/Laws/Run.lean ====
section
/-! SUPPORT. Runs: HOST, once it has no command left, gets none by stepping, and the search for the end of a run (R355) finds it. -/

namespace Sys2Proof.Machine

/-- Dropping the command a step takes leaves the rest of its queue, and changes nothing else but the turns. -/
theorem dropSelected_shape (s : State) :
    ∃ ts ps ws, dropSelected s = { s with turns := ts, pending := ps, waiting := ws } ∧
      ps.Sublist s.pending ∧ ws.Sublist s.waiting := by
  unfold dropSelected
  split
  next h => exact ⟨s.turns.tail, s.pending, s.waiting, select_idle h, List.Sublist.refl _, List.Sublist.refl _⟩
  next h =>
    obtain ⟨ts, l₁, l₂, -, hw, -, -, rfl⟩ := select_resume.mp h
    refine ⟨ts, s.pending, l₁ ++ l₂, rfl, List.Sublist.refl _, ?_⟩
    rw [hw]; exact List.Sublist.append (List.Sublist.refl _) (List.sublist_cons_self _ _)
  next h =>
    obtain ⟨ts, l₁, l₂, -, -, hp, -, rfl⟩ := select_fetch.mp h
    refine ⟨ts, l₁ ++ l₂, s.waiting, rfl, ?_, List.Sublist.refl _⟩
    rw [hp]; exact List.Sublist.append (List.Sublist.refl _) (List.sublist_cons_self _ _)

/-- A step issues no command, so HOST stays without one. -/
theorem hostDone_runStep {r : Run} (h : HostDone r.state) : HostDone (runStep r).state := by
  obtain ⟨hp, hw⟩ := h
  unfold runStep
  split
  next t ht =>
    rcases step_inversion ht with rfl | ⟨i, ts, ps, ws, a, d, he, hps, hws, ha, -⟩
    · exact ⟨hp, hw⟩
    · have hne : a ≠ .host := by
        rcases ha with ⟨w, hm, -, rfl⟩ | ⟨c, hm, -, rfl⟩
        · exact hw w hm
        · exact hp c hm
      obtain ⟨-, h1, h2⟩ := exec_queues _ _ _ he
      refine ⟨fun c hc => hp c (hps.subset (by rwa [h1] at hc)), fun w hm => ?_⟩
      rcases h2 with h2 | ⟨j, h2⟩ <;> rw [h2] at hm
      · exact hw w (hws.subset hm)
      · rcases List.mem_append.mp hm with hm | hm
        · exact hw w (hws.subset hm)
        · obtain rfl := List.mem_singleton.mp hm; exact hne
  · exact ⟨hp, hw⟩
  · obtain ⟨ts, ps, ws, h, hps, hws⟩ := dropSelected_shape r.state
    simp only [h]
    exact ⟨fun c hc => hp c (hps.subset hc), fun w hm => hw w (hws.subset hm)⟩

/-- The run that takes no command and no turn from outside. -/
def closedRun (r : Run) (k : Nat) : Run := runStep^[k] r

theorem closedRun_succ (r : Run) (k : Nat) : closedRun r (k + 1) = runStep (closedRun r k) :=
  Function.iterate_succ_apply' runStep k r

theorem closedRun_isRun (r : Run) : IsRun (closedRun r) := fun k =>
  ⟨[], [], by rw [closedRun_succ]; simp [Run.place, place]⟩

theorem hostDone_closedRun {r : Run} {k : Nat} (h : HostDone (closedRun r k).state) :
    ∀ j, k ≤ j → HostDone (closedRun r j).state := by
  intro j hj
  induction j, hj using Nat.le_induction with
  | base => exact h
  | succ j _ ih => rw [closedRun_succ]; exact hostDone_runStep ih

/-- What `runToEnd` finds is the first quiescent state among the first `n`. -/
theorem runToEnd_first {n : Nat} {r e : Run} (h : runToEnd n r = some e) :
    ∃ k, k ≤ n ∧ e = closedRun r k ∧ Quiescent e.state ∧ ∀ i, i < k → ¬ Quiescent (closedRun r i).state := by
  induction n generalizing r with
  | zero =>
    unfold runToEnd at h
    split at h
    next hq => obtain rfl : r = e := by simpa using h
               exact ⟨0, le_refl _, rfl, hq, by simp⟩
    next => simp at h
  | succ n ih =>
    unfold runToEnd at h
    split at h
    next hq => obtain rfl : r = e := by simpa using h
               exact ⟨0, Nat.zero_le _, rfl, hq, by simp⟩
    next hq =>
      obtain ⟨k, hk, rfl, hqe, hn⟩ := ih h
      refine ⟨k + 1, by omega, rfl, hqe, fun i hi => ?_⟩
      cases i with
      | zero => exact hq
      | succ i => exact hn i (by omega)

/-- R355: what `runToEnd` finds is the end of the run. -/
theorem runToEnd_endsAt {n : Nat} {r e : Run} (h : runToEnd n r = some e) :
    ∃ k, k ≤ n ∧ e = closedRun r k ∧ EndsAt (closedRun r) k := by
  obtain ⟨k, hk, rfl, hq, hn⟩ := runToEnd_first h
  exact ⟨k, hk, rfl, hostDone_closedRun hq.2.2.2.2, hq, fun i hi hh => hn i hi hh.2⟩

end Sys2Proof.Machine
end

