-- ==== Sys2Proof/Laws/Trace.lean ====
section
/-! SUPPORT. The trace only grows: each shared operation leaves the trace it was given with entries after it, and a bulk push, which
writes only into free space, leaves none. -/

namespace Sys2Proof.Machine

theorem overflowTrace_grows {α : Type} (q : RingBuf α) (v : α) (t : List TraceEntry) :
    ∃ r, overflowTrace t (ringPush q v).2 = t ++ r := by
  unfold overflowTrace
  split
  · exact ⟨_, rfl⟩
  · exact ⟨[], by simp⟩

theorem extractOne_trace (c : Cfg) (hi : Nat) (k : BitPath) : ∃ r, (extractOne c hi k).trace = k.trace ++ r := by
  unfold extractOne
  split
  · exact overflowTrace_grows _ _ _
  · exact ⟨[], by simp⟩

/-- Two extensions of a trace, one after the other. -/
theorem trace_trans {a b c : List TraceEntry} (h : ∃ r, b = a ++ r) (h' : ∃ r, c = b ++ r) : ∃ r, c = a ++ r := by
  obtain ⟨r, rfl⟩ := h
  obtain ⟨r', rfl⟩ := h'
  exact ⟨r ++ r', List.append_assoc _ _ _⟩

theorem trace_refl (a : List TraceEntry) : ∃ r, a = a ++ r := ⟨[], by simp⟩

theorem extractLoop_trace (c : Cfg) (n : Nat) (k : BitPath) : ∃ r, (extractLoop c n k).trace = k.trace ++ r := by
  induction n generalizing k with
  | zero => exact trace_refl _
  | succ n ih =>
    unfold extractLoop
    split
    · exact trace_trans (extractOne_trace c _ k) (ih _)
    · exact trace_refl _

theorem extractFinalLoop_trace (c : Cfg) (n : Nat) (k : BitPath) : ∃ r, (extractFinalLoop c n k).trace = k.trace ++ r := by
  induction n generalizing k with
  | zero => exact trace_refl _
  | succ n ih =>
    unfold extractFinalLoop
    split
    · exact trace_trans (extractOne_trace c _ k) (ih _)
    · exact trace_refl _

theorem extractFinal_trace (c : Cfg) (k : BitPath) : ∃ r, (extractFinal c k).trace = k.trace ++ r :=
  extractFinalLoop_trace c _ k

theorem pushBit_trace (p : Params) (c : Cfg) (l : Level) (k : BitPath) : ∃ r, (pushBit p c l k).trace = k.trace ++ r :=
  extractLoop_trace c _ _

theorem pushBits_trace (p : Params) (c : Cfg) (l : Level) (n : Nat) (k : BitPath) :
    ∃ r, (pushBits p c l n k).trace = k.trace ++ r := by
  induction n generalizing k with
  | zero => exact trace_refl _
  | succ n ih => exact trace_trans (pushBit_trace p c l k) (ih (pushBit p c l k))

theorem spansToBits_trace (p : Params) (c : Cfg) (spans : List (Nat × Level)) (k : BitPath) :
    ∃ r, (spansToBits p c spans k).trace = k.trace ++ r := by
  induction spans generalizing k with
  | nil => exact trace_refl _
  | cons x spans ih => exact trace_trans (pushBits_trace p c _ _ k) (ih _)

theorem convertSpan_trace (p : Params) (s : State) : ∃ r, (convertSpan p s).trace = s.trace ++ r := by
  unfold convertSpan
  split
  · exact pushBits_trace p _ _ _ _
  · exact trace_refl _

theorem processSpan_trace (p : Params) (d : Nat) (l : Level) (s : State) : ∃ r, (processSpan p d l s).trace = s.trace ++ r :=
  convertSpan_trace p (trackSpan p d l s)

theorem closeSpan_trace (p : Params) (s : State) : ∃ r, (closeSpan p s).trace = s.trace ++ r := by
  unfold closeSpan
  split
  · exact processSpan_trace p _ _ s
  · exact trace_refl _

theorem drainSpans_trace (p : Params) (s : State) : ∃ r, (drainSpans p s).trace = s.trace ++ r := by
  unfold drainSpans
  dsimp only [withBitPath]
  exact trace_trans (spansToBits_trace p s.cfg _ (bitPath s)) (extractFinal_trace s.cfg _)

theorem rxFlush_trace (p : Params) (s : State) : ∃ r, (rxFlush p s).trace = s.trace ++ r :=
  trace_trans (closeSpan_trace p s) (drainSpans_trace p _)

theorem rxProcess_trace (p : Params) (s : State) : ∃ r, (rxProcess p s).trace = s.trace ++ r := by
  unfold rxProcess
  split
  · exact trace_refl _
  · exact processSpan_trace p _ _ _

theorem pushAllTxq_trace (bs : List Byte) (s : State) : ∃ r, (pushAllTxq bs s).trace = s.trace ++ r := by
  induction bs generalizing s with
  | nil => exact trace_refl _
  | cons b bs ih => exact trace_trans (overflowTrace_grows s.txq b s.trace) (ih (pushTxq b s))

/-- What fits in the free space overwrites nothing, so it notes nothing (R144). -/
theorem pushAllTxq_trace_fits {bs : List Byte} {s : State} (h : RingOk s.txq)
    (hf : (ringContents s.txq).length + bs.length ≤ ringCap s.txq) : (pushAllTxq bs s).trace = s.trace := by
  induction bs generalizing s with
  | nil => rfl
  | cons b bs ih =>
    rw [List.length_cons] at hf
    have hn : s.txq.full = false := by
      rw [Bool.eq_false_iff]
      intro e
      have := (ringFull_iff h).mp e
      omega
    rw [pushAllTxq, ih]
    · simp [pushTxq, ringPush_overflow, hn, overflowTrace]
    · exact RingOk_push h b
    · simp only [pushTxq, ringContents_push_notFull h hn, ringPush_cap, List.length_append, List.length_singleton]
      omega

/-- RB_PUSH_BULK notes nothing (R144). -/
theorem pushAllTxq_trace_bulk (bs : List Byte) {s : State} (h : RingOk s.txq) :
    (pushAllTxq (bs.take (bulkCount bs s.txq)) s).trace = s.trace := by
  apply pushAllTxq_trace_fits h
  have := ringAvail_le h
  rw [List.length_take, bulkCount, ringContents_length h]
  omega

end Sys2Proof.Machine
end

