-- ==== Sys2Proof/Tests/Slice0.lean ====
section
/-! SUPPORT. Tests of the model against the worked examples and vectors of spec/ (95_test_vectors.md and the rules' own examples), the
words of every operation code written out from 30_encoding.md, and, for every obligation with hypotheses, a state and operands that meet
them. Every expected value is the spec's; the rule or vector is named above each theorem. -/

namespace Sys2Proof.Tests

set_option Elab.async false

open Sys2Proof.Machine Sys2Proof.Claims

/-! ## Small states -/

/-- The parameters of the spec's vectors: TIME_HZ = 960000, so P = 100 at 9600 baud, and the reference CRC. -/
def vec : Params := { Config.params with timeHz := 960000, crc8Step := crc8StepRef }

/-- 8N1 at 9600 baud. -/
def cfg8n1 : Cfg := { valid := true, baud := 9600, parity := false, stop2 := false, invert := false }

/-- A configured block with rings of four slots and a high line. -/
def small : State := { State.reset with
  cfg := cfg8n1
  pin := { tx := true, rx := true }
  txq := RingBuf.ofCapacity 4 0#8
  rxq := RingBuf.ofCapacity 4 0#8
  spq := RingBuf.ofCapacity 4 { dur := 0, lvl := false } }

/-- `small` with a step of this agent being taken. -/
def by_ (a : Agent) (s : State) : State := { s with issuer := a }

/-- A ring of four slots holding these bytes from slot 0 on, not full. -/
def ringOf (l : List Byte) : RingBuf Byte :=
  { buf := l ++ List.replicate (4 - l.length) 0#8, start := 0, tail := l.length, full := false }

/-- The full ring [1, 2, 3, 4] of vector RB-2. -/
def full1234 : RingBuf Byte := { buf := [1#8, 2#8, 3#8, 4#8], start := 0, tail := 0, full := true }

/-- The next state's part that a test looks at. -/
def after {α : Type} (o : Out) (f : State → α) : Option α := (nextOf o).map f

/-- The refusal of an outcome. -/
def refusalIn : Out → Option Refusal
  | .next _ => none
  | .fault _ => none
  | .refused r => some r

/-- The fault of an outcome. -/
def faultIn : Out → Option Fault
  | .next _ => none
  | .fault f => some f
  | .refused _ => none

/-- The index triple of a ring. -/
def idx {α : Type} (q : RingBuf α) : Nat × Nat × Bool := (q.start, q.tail, q.full)

/-- ASCII text as bytes. -/
def ascii (l : List Nat) : List Byte := l.map (BitVec.ofNat 8)

/-! ## Well-formedness -/

/-- R301: 9601 is no standard rate; R303: n is at least 1. -/
theorem test_illFormed_refused :
    Instr.wellFormed (.cfgSet 9601 false false false) = false ∧ Instr.wellFormed (.envTick 0) = false ∧
    Instr.wellFormed (.cfgSet 9600 false false false) = true ∧ Instr.wellFormed (.envTick 1) = true := by decide

/-- R6: the ends of STD_BAUDS. -/
theorem test_stdBauds_ends :
    Instr.wellFormed (.cfgSet 300 true true true) = true ∧ Instr.wellFormed (.cfgSet 115200 true true true) = true ∧
    Instr.wellFormed (.cfgSet 299 true true true) = false ∧ Instr.wellFormed (.cfgSet 115201 true true true) = false := by decide

/-! ## Decoding: each word as its fields, unit ++ q ++ f or unit ++ func (R80, R82, R84) -/

theorem test_decode_rb_txq :
    decode (0x0#4 ++ 0#1 ++ 0#3) [] = .ok .rbInitTxq ∧
    decode (0x0#4 ++ 0#1 ++ 1#3) [.byte 0x41#8] = .ok (.rbPushTxq 0x41#8) ∧
    decode (0x0#4 ++ 0#1 ++ 2#3) [.bytes [7#8, 8#8, 9#8]] = .ok (.rbPushBulkTxq [7#8, 8#8, 9#8]) ∧
    decode (0x0#4 ++ 0#1 ++ 5#3) [] = .ok .rbAvailableTxq := by decide

theorem test_decode_rb_rxq :
    decode (0x0#4 ++ 1#1 ++ 0#3) [] = .ok .rbInitRxq ∧
    decode (0x0#4 ++ 1#1 ++ 3#3) [] = .ok .rbPopRxq ∧
    decode (0x0#4 ++ 1#1 ++ 4#3) [.nat 300] = .ok (.rbPopBulkRxq 300) ∧
    decode (0x0#4 ++ 1#1 ++ 5#3) [] = .ok .rbAvailableRxq := by decide

theorem test_decode_crc :
    decode (0x1#4 ++ 0#4) [.byte 0x67#8, .byte 0x2D#8] = .ok (.crc8Step 0x67#8 0x2D#8) ∧
    decode (0x1#4 ++ 1#4) [.bytes [0x4C#8, 0x41#8], .byte 0#8] = .ok (.crc8 [0x4C#8, 0x41#8] 0#8) := by decide

theorem test_decode_bt :
    decode (0x2#4 ++ 0#4) [] = .ok .btSync ∧
    decode (0x2#4 ++ 1#4) [.nat 100] = .ok (.btAdvance 100) ∧
    decode (0x2#4 ++ 2#4) [] = .ok .btWait := by decide

theorem test_decode_tx :
    decode (0x3#4 ++ 0#4) [] = .ok .txStart ∧ decode (0x3#4 ++ 1#4) [] = .ok .txStep ∧
    decode (0x3#4 ++ 2#4) [] = .ok .txStop := by decide

theorem test_decode_rx :
    decode (0x4#4 ++ 0#4) [] = .ok .rxStart ∧ decode (0x4#4 ++ 1#4) [] = .ok .rxEdge ∧
    decode (0x4#4 ++ 2#4) [] = .ok .rxProcess ∧ decode (0x4#4 ++ 3#4) [] = .ok .rxFlush ∧
    decode (0x4#4 ++ 4#4) [] = .ok .rxStop := by decide

theorem test_decode_akp :
    decode (0x5#4 ++ 0#4) [.inst 7] = .ok (.akpInit 7) ∧
    decode (0x5#4 ++ 1#4) [.inst 7, .byte 0x5E#8] = .ok (.akpFeed 7 0x5E#8) := by decide

/-- R97's own example: `CFG_SET 9600, off, off, off`; and each flag in its own place. -/
theorem test_decode_cfg :
    decode (0x6#4 ++ 0#4) [.baud 9600, .bool false, .bool false, .bool false] = .ok (.cfgSet 9600 false false false) ∧
    decode (0x6#4 ++ 0#4) [.baud 1200, .bool true, .bool false, .bool false] = .ok (.cfgSet 1200 true false false) ∧
    decode (0x6#4 ++ 0#4) [.baud 1200, .bool false, .bool false, .bool true] = .ok (.cfgSet 1200 false false true) := by decide

theorem test_decode_env :
    decode (0x7#4 ++ 0#4) [.nat 100] = .ok (.envTick 100) ∧
    decode (0x7#4 ++ 1#4) [.level true] = .ok (.envRxpin true) := by decide

/-- R85: the roles the host has not, unlisted codes at the edges of each space, and operands of another shape. -/
theorem test_decode_refuses :
    decode 0x09#8 [.byte 0#8] = .error (.roleRefused 0x09#8) ∧ decode 0x03#8 [] = .error (.roleRefused 0x03#8) ∧
    decode 0x06#8 [] = .error (.unlistedCode 0x06#8) ∧ decode 0x0F#8 [] = .error (.unlistedCode 0x0F#8) ∧
    decode 0x23#8 [] = .error (.unlistedCode 0x23#8) ∧ decode 0x45#8 [] = .error (.unlistedCode 0x45#8) ∧
    decode 0x80#8 [] = .error (.unlistedCode 0x80#8) ∧ decode 0xFF#8 [] = .error (.unlistedCode 0xFF#8) ∧
    decode 0x01#8 [] = .error (.badOperands 0x01#8) ∧ decode 0x60#8 [.nat 9600] = .error (.badOperands 0x60#8) := by decide

/-- The table's 26 codes give instructions and no other byte does; a word above one byte gives none. -/
theorem test_tableWord_codes :
    (List.range 256).filter (fun w => (decodeTableWord 8 w).isSome) =
      [0x00, 0x01, 0x02, 0x05, 0x08, 0x0B, 0x0C, 0x0D, 0x10, 0x11, 0x20, 0x21, 0x22, 0x30, 0x31, 0x32, 0x40, 0x41, 0x42,
       0x43, 0x44, 0x50, 0x51, 0x60, 0x70, 0x71] ∧
    decodeTableWord 8 256 = none := by decide +kernel

/-- The step after placing a table word runs its instruction: RB_AVAILABLE answers its count, TX_STOP a next state. -/
theorem test_withFetchWord_runs :
    (nextOf (step (State.reset.withFetchWord 8 0x32))).isSome = true ∧
    (nextOf (step (State.reset.withFetchWord 8 0x71))).isSome = true ∧
    refusalIn (step (State.reset.withFetchWord 8 0x30)) = some .notConfigured ∧
    refusalIn (step (State.reset.withFetchWord 8 0x70)) = some .zeroTick ∧
    refusalIn (step (State.reset.withFetchWord 8 0x33)) = some (.noCommand (.unlistedCode 0x33#8)) := by decide +kernel

/-! ## Ring buffers: vectors RB-1 to RB-8 of 95_test_vectors.md -/

/-- The ring of vector RB-7 after its pushes: content [3, 4, 5, 6], indices (2, 2, 1). -/
def ring3456 : RingBuf Byte := { buf := [5#8, 6#8, 3#8, 4#8], start := 2, tail := 2, full := true }

/-- The ring of RB-4: content [3, 4, 5] at slots 2, 3, 0. -/
def ring345 : RingBuf Byte := { buf := [5#8, 2#8, 3#8, 4#8], start := 2, tail := 1, full := false }

/-- RB-8. -/
theorem test_rbInit :
    after (exec .rbInitTxq { small with txq := ring3456 }) (fun s => (idx s.txq, ringAvail s.txq)) = some ((0, 0, false), 0) ∧
    after (exec .rbInitRxq { small with rxq := ring3456 }) (fun s => (idx s.rxq, ringAvail s.rxq)) = some ((0, 0, false), 0) ∧
    after (exec .rbInitTxq { small with rxq := ring3456 }) (fun s => idx s.rxq) = some (2, 2, true) := by decide +kernel

/-- RB-2: 5 onto [1, 2, 3, 4] overwrites slot 0, and is noted once. -/
theorem test_rbPush_overwrites :
    after (exec (.rbPushTxq 5#8) { small with txq := full1234 })
      (fun s => (idx s.txq, s.txq.buf, ringContents s.txq, s.trace)) =
    some ((1, 1, true), [5#8, 2#8, 3#8, 4#8], [2#8, 3#8, 4#8, 5#8], [.note .ringOverflow]) := by decide +kernel

/-- RB-6: capacity 1. -/
theorem test_rbPush_capacityOne :
    after (exec (.rbPushTxq 7#8) { small with txq := RingBuf.ofCapacity 1 0#8 })
      (fun s => (idx s.txq, ringContents s.txq, s.trace)) = some ((0, 0, true), [7#8], []) := by decide +kernel

/-- RB-3: the bulk push writes what fits, and nothing on a full ring. -/
theorem test_rbPushBulk :
    after (exec (.rbPushBulkTxq [7#8, 8#8, 9#8]) { small with txq := ringOf [1#8, 2#8] })
      (fun s => (idx s.txq, ringContents s.txq)) = some ((0, 0, true), [1#8, 2#8, 7#8, 8#8]) ∧
    after (exec (.rbPushBulkTxq [7#8, 8#8, 9#8]) { small with txq := ringOf [1#8, 2#8] }) (·.results) =
      some [(.host, .count 2)] ∧
    after (exec (.rbPushBulkTxq [6#8]) { small with txq := full1234 }) (·.txq) = some full1234 ∧
    after (exec (.rbPushBulkTxq [6#8]) { small with txq := full1234 }) (·.results) = some [(.host, .count 0)] := by
  decide +kernel

/-- RB-2 and RB-5: the pop of the oldest, and of an empty ring. -/
theorem test_rbPop :
    after (exec .rbPopRxq { small with rxq := { full1234 with buf := [5#8, 2#8, 3#8, 4#8], start := 1, tail := 1 } })
      (fun s => (idx s.rxq, ringContents s.rxq, s.results)) =
        some ((2, 1, false), [3#8, 4#8, 5#8], [(.host, .byteOpt (some 2#8))]) ∧
    after (exec .rbPopRxq small) (fun s => (idx s.rxq, s.results)) = some ((0, 0, false), [(.host, .byteOpt none)]) := by
  decide +kernel

/-- RB-4. -/
theorem test_rbPopBulk :
    after (exec (.rbPopBulkRxq 2) { small with rxq := ring345 }) (fun s => (ringContents s.rxq, s.results)) =
      some ([5#8], [(.host, .bytes [3#8, 4#8])]) ∧
    after (exec (.rbPopBulkRxq 0) { small with rxq := ring345 }) (fun s => (ringContents s.rxq, s.results)) =
      some ([3#8, 4#8, 5#8], [(.host, .bytes [])]) ∧
    after (exec (.rbPopBulkRxq 9) { small with rxq := ring345 }) (fun s => (ringContents s.rxq, s.results)) =
      some ([], [(.host, .bytes [3#8, 4#8, 5#8])]) := by decide +kernel

/-- RB-1 and RB-7: the count, not full and full. -/
theorem test_rbAvailable :
    after (exec .rbAvailableTxq { small with txq := ringOf [1#8, 2#8, 3#8] }) (·.results) = some [(.host, .count 3)] ∧
    after (exec .rbAvailableRxq { small with rxq := ring3456 }) (·.results) = some [(.host, .count 4)] ∧
    after (exec .rbAvailableRxq { small with rxq := ring345 }) (·.results) = some [(.host, .count 3)] := by decide +kernel

/-! ## crc8: vectors CRC-1 and CRC-2 -/

theorem test_crc8Step_reference :
    crc8StepRef 0x00#8 0x00#8 = 0x00#8 ∧ crc8StepRef 0x00#8 0x01#8 = 0x07#8 ∧ crc8StepRef 0x00#8 0x80#8 = 0x89#8 ∧
    crc8StepRef 0xFF#8 0x00#8 = 0xF3#8 ∧ crc8StepRef 0x5A#8 0xA5#8 = 0xF3#8 ∧ crc8StepRef 0x67#8 0x2D#8 = 0xF1#8 := by decide

theorem test_crc8_reference :
    crc8With crc8StepRef (ascii [0x31, 0x32, 0x33, 0x34, 0x35, 0x36, 0x37, 0x38, 0x39]) 0x00#8 = 0xF4#8 ∧
    crc8With crc8StepRef [] 0x5A#8 = 0x5A#8 ∧
    crc8With crc8StepRef (ascii [0x44, 0x44]) 0x00#8 = 0xD4#8 ∧
    crc8With crc8StepRef (ascii [0x5A, 0x5A]) 0x00#8 = 0x0F#8 := by decide +kernel

/-! ## Bit timer: vector BT-1 -/

theorem test_btSync :
    after (exec .btSync { small with now := 250 }) (·.tx.d) = some 250 ∧
    refusalIn (exec .btSync { small with tx := { small.tx with run := true } }) = some (.wrongAgent .host) := by decide +kernel

theorem test_btAdvance :
    after (exec (.btAdvance 100) { small with tx := { small.tx with d := 250 } }) (·.tx.d) = some 350 ∧
    after (exec (.btAdvance 0) { small with tx := { small.tx with d := 350 } }) (·.tx.d) = some 350 := by decide +kernel

theorem test_btWait :
    after (exec .btWait { small with now := 340, tx := { small.tx with d := 350 } }) (fun s => s.waiting.length) = some 1 ∧
    after (exec .btWait { small with now := 350, tx := { small.tx with d := 350 } }) (fun s => s.waiting.length) = some 0 := by
  decide +kernel

/-! ## Transmitter: vectors TX-1 to TX-9 -/

/-- TX-1; levels 1 are true. -/
theorem test_frameLevels :
    (frameLevels cfg8n1 0x41#8).map Bool.toNat = [0, 1, 0, 0, 0, 0, 0, 1, 0, 1] ∧
    (frameLevels { cfg8n1 with parity := true } 0x00#8).map Bool.toNat = [0, 0, 0, 0, 0, 0, 0, 0, 0, 0, 1] ∧
    (frameLevels { cfg8n1 with parity := true } 0x80#8).map Bool.toNat = [0, 0, 0, 0, 0, 0, 0, 0, 1, 1, 1] ∧
    (frameLevels { cfg8n1 with stop2 := true } 0xFF#8).map Bool.toNat = [0, 1, 1, 1, 1, 1, 1, 1, 1, 1, 1] ∧
    (frameLevels { cfg8n1 with parity := true, stop2 := true } 0x03#8).map Bool.toNat =
      [0, 1, 1, 0, 0, 0, 0, 0, 0, 0, 1, 1] := by decide +kernel

/-- TX-2, TX-3, TX-4: the idle level and the pre-frame high time at TX_START. -/
theorem test_txStart :
    (txStart vec { small with pin := { tx := false, rx := true } }).tx =
      { run := true, d := 100, frame := [], phase := .idle, idx := 0 } ∧
    (txStart vec { small with pin := { tx := false, rx := true } }).pin.tx = true ∧
    (txStart vec { small with cfg := { cfg8n1 with invert := true } }).pin.tx = false ∧
    (txStart vec { small with cfg := { cfg8n1 with parity := true, stop2 := true } }).tx.d = 200 := by decide +kernel

/-- CE-4: the refusals of TX_START. -/
theorem test_txStart_refused :
    refusalIn (exec .txStart { small with cfg := { cfg8n1 with valid := false } }) = some .notConfigured ∧
    refusalIn (exec .txStart { small with tx := { small.tx with run := true, phase := .idle } }) = some .alreadyRunning ∧
    refusalIn (exec .txStart { small with tx := { small.tx with phase := .busy } }) = some .frameInFlight := by decide +kernel

/-- A transmitter sending the byte in 8N1, at slot `i` with deadline `d`. -/
def sending (b : Byte) (i d : Nat) : Tx := { run := true, d := d, frame := frameLevels cfg8n1 b, phase := .busy, idx := i }

/-- TX-6: a step late by 42 ticks writes slot 2 and moves the deadline to 400; TX-8: the failed write of slot 1. -/
theorem test_txStep_busy :
    ((txStep vec { small with now := 342, tx := sending 0x41#8 2 300 }).pin.tx,
     (txStep vec { small with now := 342, tx := sending 0x41#8 2 300 }).tx.d) = (false, 400) ∧
    (let t := txStep vec { small with draw := false, now := 200, pin := { tx := false, rx := true }, tx := sending 0x41#8 1 200 }
     (t.pin.tx, t.pinErr, t.trace, t.tx.d, t.tx.idx) = (false, 1, [.logError .pinWriteFail], 300, 2)) := by decide +kernel

/-- TX-5: DONE at 1100 pops 0x42 and leaves the deadline; TX-7: with the stop flag it stops and keeps TXQ. -/
theorem test_txStep_done :
    (let t := txStep vec { small with now := 1100, txq := ringOf [0x42#8], tx := { sending 0x41#8 10 1100 with phase := .done } }
     (t.tx.phase, t.tx.d, t.tx.idx, ringContents t.txq) = (.busy, 1100, 0, [])) ∧
    (let t := txStep vec { small with now := 1100, txq := ringOf [0x42#8],
                                      tx := { sending 0x41#8 10 1100 with phase := .done, run := false } }
     (t.tx.phase, ringContents t.txq) = (.stopped, [0x42#8])) := by decide +kernel

/-- TX-7: TX_STOP leaves the frame in progress. -/
theorem test_txStop :
    after (exec .txStop { small with now := 350, tx := sending 0x41#8 3 400 }) (fun s => (s.tx.run, s.tx.phase, s.tx.idx)) =
      some (false, .busy, 3) := by decide +kernel

/-! ## Receiver: vectors RX-1 to RX-7 -/

/-- RX-1. -/
theorem test_blend :
    blend 100 78 = 99 ∧ blend 100 75 = 99 ∧ blend 100 74 = 100 ∧ blend 100 126 = 100 ∧ blend 104167 110000 = 104258 ∧
    normalize 100 2000 98 = 2040 ∧ normalize 104167 110000 104258 = 109903 := by decide

/-- A window of these durations. -/
def window (l : List Nat) : List SpanEntry := l.map (fun d => { orig := d, lvl := true })

/-- RX-2 and RX-7's glitch with a donor. -/
theorem test_relax :
    relax 100 (window [0, 113, 78, 129]) = [0, 91, 100, 129] ∧ relax 100 (window [113, 78, 129, 487]) = [91, 100, 116, 500] ∧
    relax 100 (window [300, 60, 240, 100]) = [260, 100, 240, 100] ∧
    relax 100 (window [500, 149, 151, 100]) = [500, 100, 200, 100] ∧
    relax 100 (window [200, 155, 100, 100]) = [155, 200, 100, 100] ∧ relax 100 (window [0, 40, 100, 100]) = [0, 40, 100, 100] ∧
    relax 100 (window [500, 30, 600, 100]) = [430, 100, 600, 100] := by decide +kernel

/-- RX-2's RoundDiv line. -/
theorem test_roundDiv :
    [0, 49, 50, 91, 149, 150, 487, 2000].map (roundDiv · 100) = [0, 0, 1, 1, 1, 2, 5, 20] := by decide

/-- A receiver of vector RX-3 or RX-4 with these last transition, level, period, spans and bits. -/
def rxAt (e : Nat) (lv : Level) (pmod : Nat) (sw : List (Nat × Level)) (bw : List Level) : Rx :=
  { run := true, e := e, lv := lv, pmod := pmod, sw := sw.map (fun x => { orig := x.1, lvl := x.2 }),
    bw := bw.map (fun v => { lvl := v, score := 0 }) }

/-- RX-3: RX_START at 0 on the idle line; and the refusals of CE-4. -/
theorem test_rxStart :
    (rxStart vec small).rx = rxAt 0 true 100 [(0, true)] [] ∧
    refusalIn (exec .rxStart { small with cfg := { cfg8n1 with valid := false } }) = some .notConfigured ∧
    refusalIn (exec .rxFlush small) = some .receiverStopped := by decide +kernel

/-- RX-3: the edge at 200; CE-3: no transition, no step. -/
theorem test_rxEdge :
    after (exec .rxEdge (by_ .rxc { small with now := 200, rx := rxAt 100 false 100 [(0, true), (100, true)] [] }))
      (fun s => (ringContents s.spq, s.rx.e, s.rx.lv)) = some ([{ dur := 100, lvl := false }], 200, true) ∧
    after (exec .rxEdge (by_ .rxc { small with rx := rxAt 100 true 100 [] [] })) (fun s => (s.waiting.length, ringAvail s.spq)) =
      some (1, 0) := by decide +kernel

/-- RX-4: the edge at 320 makes the window relax and gives one bit from entry 1. -/
theorem test_rxProcess_jitter :
    (let t := rxProcess vec { small with
        spq := { buf := [{ dur := 129, lvl := true }], start := 0, tail := 0, full := true }
        rx := rxAt 320 false 99 [(0, true), (113, true), (78, false)] [] }
     t.rx = rxAt 320 false 99 [(113, true), (78, false), (130, true)] [true]) := by decide +kernel

/-- RX-3: RX_FLUSH at 3000 delivers 0x41; the second at the same time changes nothing (RX-7). -/
theorem test_rxFlush :
    (let t := rxFlush vec { small with
        now := 3000
        rx := rxAt 1000 true 100 [(500, false), (100, true), (100, false)] [true, false, true, false, false, false, false, false] }
     (ringContents t.rxq, t.rx) = ([0x41#8], rxAt 3000 true 100 [(2000, true)] (List.replicate 10 true)) ∧
     rxFlush vec t = t) := by decide +kernel

/-- R232. -/
theorem test_rxStop :
    after (exec .rxStop { small with rx := rxAt 100 false 98 [(0, true)] [true] }) (fun s => (s.rx.run, s.rx.pmod, s.rx.bw.length)) =
      some (false, 98, 1) := by decide +kernel

/-! ## AKP decoder: the table of 95_test_vectors.md -/

/-- The positions at which feeding a fresh instance completed a record, with the records. -/
def completions (p : Params) (bs : List Byte) : List (Nat × DecodedTag) :=
  ((List.range bs.length).zip (akpFeedAll p akpFresh bs).2).filterMap (fun x => x.2.map (fun d => (x.1, d)))

/-- "LA^-33000:80". -/
def recordLA : List Byte := ascii [0x4C, 0x41, 0x5E, 0x2D, 0x33, 0x33, 0x30, 0x30, 0x30, 0x3A, 0x38, 0x30]

/-- S2, S5 and "DD^00050006A:B^Z" (S7). -/
theorem test_akpFeed_records :
    completions vec recordLA =
      [(11, { tag := (0x4C#8, 0x41#8), data := ascii [0x2D, 0x33, 0x33, 0x30, 0x30, 0x30], len := 6 })] ∧
    completions vec (ascii [0x44, 0x44, 0x5E, 0x30, 0x30, 0x30, 0x30, 0x30, 0x30, 0x30, 0x30]) =
      [(10, { tag := ddTag, data := [], len := 0 })] ∧
    completions vec (ascii [0x44, 0x44, 0x5E, 0x30, 0x30, 0x30, 0x35, 0x30, 0x30, 0x30, 0x36, 0x41, 0x3A, 0x42, 0x5E, 0x5A]) =
      [] := by decide +kernel

/-- "GP^" + 32 x 'A' + ":a5": nothing under ABORT, 31 bytes under TRUNCATE (C1); and the refusal of a handle not created (CE-4). -/
theorem test_akpFeed_overflow :
    completions vec (ascii ([0x47, 0x50, 0x5E] ++ List.replicate 32 0x41 ++ [0x3A, 0x61, 0x35])) = [] ∧
    completions { vec with dataOverflow := .truncate } (ascii ([0x47, 0x50, 0x5E] ++ List.replicate 32 0x41 ++ [0x3A, 0x61, 0x35])) =
      [(37, { tag := (0x47#8, 0x50#8), data := ascii (List.replicate 31 0x41), len := 31 })] ∧
    refusalIn (exec (.akpFeed 9 0x41#8) small) = some (.noSuchInstance 9) := by decide +kernel

/-- P2 line 1. -/
theorem test_akpInit :
    after (exec (.akpInit 0) small) (fun s => s.akp.map (fun x => (x.1, x.2.mode, x.2.lb1, x.2.lb0))) =
      some [(0, .between, 0x00#8, 0x00#8)] := by decide +kernel

/-! ## Configuration and environment: CE-1 to CE-4 -/

theorem test_cfgSet :
    after (exec (.cfgSet 9600 false false false) State.reset) (·.cfg) = some cfg8n1 ∧
    pNom vec cfg8n1 = 100 ∧ pNom Config.params cfg8n1 = 104167 ∧
    pNom vec { cfg8n1 with baud := 1200 } = 800 ∧ pNom vec { cfg8n1 with baud := 115200 } = 8 := by decide +kernel

theorem test_cfgSet_refused :
    refusalIn (exec (.cfgSet 9601 false false false) small) = some (.nonStandardBaud 9601) ∧
    refusalIn (exec (.cfgSet 1200 false false false) { small with rx := { small.rx with run := true } }) = some .channelRunning ∧
    refusalIn (exec (.cfgSet 1200 false false false) { small with tx := { small.tx with phase := .busy } }) =
      some .channelRunning := by decide +kernel

/-- CE-3 and CE-4. -/
theorem test_env :
    after (exec (.envTick 100) (by_ .env small)) (·.now) = some 100 ∧
    refusalIn (exec (.envTick 0) (by_ .env small)) = some .zeroTick ∧
    after (exec (.envRxpin false) (by_ .env { small with rx := rxAt 0 true 100 [] [] })) transitionPending = some true ∧
    after (exec (.envRxpin true) (by_ .env { small with rx := rxAt 0 true 100 [] [] })) transitionPending = some false := by
  decide +kernel

/-- P3 line 3's expansion of `SEND 0x41`, and DRIVE_FRAME's length of B pairs (R98). -/
theorem test_pseudo :
    pseudoSend 0x41#8 = [{ agent := .host, code := 0x01#8, operands := [.byte 0x41#8], draw := true }] ∧
    (pseudoDriveFrame vec cfg8n1 0x41#8).length = 20 ∧
    (pseudoDriveFrame vec cfg8n1 0x41#8).head? =
      some { agent := .env, code := 0x71#8, operands := [.level false], draw := true } := by decide +kernel

/-! ## Witnesses: for every obligation with hypotheses, a state and operands that meet them, clause by clause -/

/-- An issued command. -/
def cmd (a : Agent) (i : Instr) : Issue := issueOf a i true

/-- A waiting agent. -/
def waits (a : Agent) (i : Instr) : Waiter := { agent := a, instr := i, draw := true }

/-- `small` with TXA waiting for a deadline that has come, RXC for a transition that has not, a command of TXA first among the issued
ones and this one behind it. -/
def queued (c : Issue) : State :=
  { small with waiting := [waits .rxc .rxEdge, waits .txa .btWait], pending := [cmd .txa .btSync, c] }

theorem queued_takesNext (c : Issue) (h : c.agent = .host) : takesNext (queued c) c [cmd .txa .btSync] :=
  ⟨fun w hw => by
    simp only [queued, List.mem_cons, List.not_mem_nil, or_false] at hw
    rcases hw with rfl | rfl <;> simp [waits, h],
   [cmd .txa .btSync], [], rfl, rfl, fun d hd => by
    simp only [List.mem_singleton] at hd
    subst hd
    simp [cmd, issueOf, h]⟩

theorem queued_resumesNext (c : Issue) : resumesNext (queued c) (waits .txa .btWait) [waits .rxc .rxEdge] :=
  ⟨[waits .rxc .rxEdge], [], rfl, rfl, by rfl, fun v hv => by
    simp only [List.mem_singleton] at hv
    subst hv
    decide⟩

/-- A command byte with no row. -/
def noRow : Issue := { agent := .host, code := 0x06#8, operands := [], draw := true }

theorem test_witness_CommandsOutsideTheMapAreRefused :
    0x0A#8 ∈ [0x09#8, 0x0A#8, 0x03#8, 0x04#8] ∧
    (0xFF#8 ∉ listedCodes ∧ 0xFF#8 ∉ [0x09#8, 0x0A#8, 0x03#8, 0x04#8]) ∧
    (operandTypes 0x01#8 = some [.byte] ∧ ([] : List Operand).map operandType ≠ [.byte]) ∧
    (takesNext (queued noRow) noRow [cmd .txa .btSync] ∧ decode noRow.code noRow.operands = .error (.unlistedCode 0x06#8)) ∧
    ¬ mayIssue small .txStep ∧ ¬ mayIssue { small with tx := { small.tx with run := true } } .btSync :=
  ⟨by decide, by decide, by decide, ⟨queued_takesNext noRow rfl, by decide⟩, by simp [mayIssue, small, State.reset],
    by simp [mayIssue, small, State.reset]⟩

theorem test_witness_StepRunsDecodedCommand :
    takesNext (queued (cmd .host .txStop)) (cmd .host .txStop) [cmd .txa .btSync] ∧
    decode (cmd .host .txStop).code (cmd .host .txStop).operands = .ok .txStop :=
  ⟨queued_takesNext _ rfl, by decide⟩

theorem test_witness_WaitingAgentResumes :
    resumesNext (queued noRow) (waits .txa .btWait) [waits .rxc .rxEdge] ∧
    hasNoStep (queued noRow) .rxc ∧ hasNoStep (queued noRow) .rxp ∧ State.reset.turns = [] :=
  ⟨queued_resumesNext noRow, .inl ⟨[], waits .rxc .rxEdge, [waits .txa .btWait], rfl, rfl, rfl, by simp⟩,
    .inr ⟨by simp [queued, waits], by simp [queued, cmd, issueOf, noRow]⟩, rfl⟩

/-- R10, R327: from one state, with TXA's wait over and RXC's not, the next step may be TXA's or HOST's, and RXC's turn passes. -/
theorem test_anyAgentNext :
    let s := queued (cmd .host (.rbPushTxq 1#8))
    after (step { s with turns := [.txa] }) (fun t => (t.waiting.length, t.pending.length)) = some (1, 2) ∧
    after (step { s with turns := [.host] }) (fun t => (t.waiting.length, t.pending.length)) = some (2, 1) ∧
    after (step { s with turns := [.rxc, .host] }) (fun t => (t.waiting.length, t.pending.length, t.turns)) =
      some (2, 2, [.host]) := by decide +kernel

/-- `small` with the receiver running on the idle line. -/
def receiving : State := { small with rx := rxAt 0 true 100 [(0, true)] [] }

/-- One span in a queue of four. -/
def oneSpan (d : Nat) (v : Level) : RingBuf Span :=
  { buf := { dur := d, lvl := v } :: List.replicate 3 { dur := 0, lvl := false }, start := 0, tail := 1, full := false }

theorem test_witness_AwaitHoldsOnlyTheAgent :
    (mayIssue (by_ .txa { small with now := 99, tx := { small.tx with d := 100 } }) .btWait ∧ 99 < 100) ∧
    (mayIssue (by_ .txa small) .txStep ∧ (by_ .txa small).tx.phase = .stopped) ∧
    (let s := by_ .txa { small with now := 99, tx := sending 0x41#8 0 100 }
     mayIssue s .txStep ∧ s.tx.phase = .busy ∧ s.now < s.tx.d) ∧
    (let s := by_ .txa { small with now := 1099, tx := { sending 0x41#8 10 1100 with phase := .done } }
     mayIssue s .txStep ∧ s.tx.phase = .done ∧ s.now < s.tx.d) ∧
    (mayIssue (by_ .rxc small) .rxEdge ∧ small.rx.run = false) ∧
    (mayIssue (by_ .rxc receiving) .rxEdge ∧ (receiving.pin.rx ^^ receiving.cfg.invert) = receiving.rx.lv) ∧
    (mayIssue (by_ .rxp small) .rxProcess ∧ small.rx.run = false) ∧
    (mayIssue (by_ .rxp receiving) .rxProcess ∧ receiving.rx.run = true ∧ ringEmpty receiving.spq = true) ∧
    (mayIssue receiving .rxFlush ∧ receiving.rx.run = true ∧ ringEmpty (oneSpan 100 true) = false) := by
  simp [mayIssue, by_, small, State.reset, receiving, rxAt, sending, cfg8n1, ringEmpty, RingBuf.ofCapacity, oneSpan]

theorem test_witness_RefusedCommandChangesNoState :
    refusalIn (step { queued noRow with turns := [.host] }) = some (.noCommand (.unlistedCode 0x06#8)) ∧
    refusalIn (step { queued (cmd .host .rxFlush) with turns := [.host, .txa] }) = some .receiverStopped ∧
    takesNext (queued noRow) noRow [cmd .txa .btSync] ∧
    resumesNext (queued noRow) (waits .txa .btWait) [waits .rxc .rxEdge] ∧
    ({ state := State.reset, refused := true } : Run).refused = true :=
  ⟨by decide +kernel, by decide +kernel, queued_takesNext noRow rfl, queued_resumesNext noRow, rfl⟩

/-- `small` with the decoder instance 0. -/
def decoding : State := { small with akp := [(0, akpFresh)] }

theorem test_witness_AdmittedCommandsComplete :
    (∀ i, mayIssue (by_ (rowAgent i) small) i) ∧
    (∀ i, i ≠ .rxFlush → (∀ t c, i = .akpFeed t c → t = 0) → i.wellFormed = true → admitted (by_ (rowAgent i) decoding) i) ∧
    admitted receiving .rxFlush ∧
    faultIn (exec .rbInitTxq { small with tx := { small.tx with phase := .idle } }) = some .liveRingInit ∧
    faultIn (exec .rbInitRxq receiving) = some .liveRingInit := by
  refine ⟨fun i => ?_, fun i h1 h2 h3 => ?_, rfl, by decide +kernel, by decide +kernel⟩
  · cases i <;> simp [mayIssue, by_, rowAgent, small, State.reset]
  · cases i <;> simp_all [admitted, by_, decoding, small, State.reset, Instr.wellFormed, akpGet?, cfg8n1]

/-- An instruction's next state differs in this part. -/
def changes {α : Type} [DecidableEq α] (i : Instr) (s : State) (f : State → α) : Bool :=
  (after (exec i s) (fun t => decide (f t ≠ f s))) == some true

theorem test_witness_FieldsHaveOnlyTheirWriters_block :
    changes (.envTick 1) (by_ .env small) (·.now) ∧ changes (.envRxpin false) (by_ .env small) (·.pin.rx) ∧
    changes (.cfgSet 300 true true true) small (·.cfg) ∧ changes (.akpInit 0) small (·.akp) ∧
    changes (.akpFeed 0 0x41#8) decoding (·.akp) ∧ changes .rxStart { small with draw := false } (·.pinErr) ∧
    changes .txStart { small with draw := false } (·.pinErr) ∧ changes .rbPopRxq small (·.results) := by decide +kernel

theorem test_witness_FieldsHaveOnlyTheirWriters_tx :
    changes .txStart { small with cfg := { cfg8n1 with invert := true } } (·.pin.tx) ∧
    changes .txStep (by_ .txa { small with now := 100, tx := sending 0x41#8 0 100 }) (·.pin.tx) ∧
    changes .txStart small (·.tx.run) ∧ changes .txStop { small with tx := sending 0x41#8 0 100 } (·.tx.run) ∧
    changes .btSync { small with now := 1 } (·.tx.d) ∧ changes (.btAdvance 1) small (·.tx.d) ∧ changes .txStart small (·.tx.d) ∧
    changes .txStep (by_ .txa { small with now := 100, tx := sending 0x41#8 0 100 }) (fun s => (s.tx.d, s.tx.idx)) ∧
    changes .txStart small (·.tx.phase) ∧ changes .rbInitTxq { small with txq := full1234 } (·.txq) ∧
    changes (.rbPushTxq 1#8) small (·.txq) ∧ changes (.rbPushBulkTxq [1#8]) small (·.txq) := by decide +kernel

theorem test_witness_FieldsHaveOnlyTheirWriters_rx :
    changes .rxStart small (fun s => (s.rx.run, s.rx.pmod)) ∧ changes .rxStop receiving (·.rx.run) ∧
    changes .rxFlush { receiving with now := 10 } (·.rx.e) ∧
    changes .rxEdge (by_ .rxc { receiving with now := 10, pin := { tx := true, rx := false } })
      (fun s => (s.rx.e, s.rx.lv, s.spq)) ∧
    changes .rxEdge (by_ .rxc { receiving with pin := { tx := true, rx := false }, draw := false }) (·.pinErr) ∧
    changes .rxProcess (by_ .rxp { receiving with spq := oneSpan 100 true }) (fun s => (s.rx.sw, s.spq)) ∧
    changes .rxFlush { receiving with now := 10 } (·.rx.sw) ∧
    changes .rbInitRxq { small with rxq := full1234 } (·.rxq) ∧ changes .rbPopRxq { small with rxq := full1234 } (·.rxq) ∧
    changes (.rbPopBulkRxq 1) { small with rxq := full1234 } (·.rxq) ∧
    changes .rxStart { small with spq := oneSpan 1 true } (·.spq) := by decide +kernel

/-- Results, trace and waiting: an instruction of each shape whose next state differs there, and rows with and without a result. -/
theorem test_witness_FieldsHaveOnlyTheirWriters_lists :
    emits (.rbPopBulkRxq 0) ∧ ¬ emits .txStop ∧
    changes (.rbPushTxq 5#8) { small with txq := full1234 } (·.trace) ∧
    changes (.rbPushBulkTxq [5#8]) { small with txq := { full1234 with tail := 2, full := true, buf := [1#8, 2#8] } } (·.trace) = false ∧
    changes .txStep (by_ .txa { small with draw := false, now := 100, tx := sending 0x41#8 0 100 }) (·.trace) ∧
    changes .btWait { small with tx := { small.tx with d := 1 } } (·.waiting) ∧
    changes .txStep (by_ .txa small) (·.waiting) ∧ changes .rxEdge (by_ .rxc small) (·.waiting) ∧
    changes .rxProcess (by_ .rxp small) (·.waiting) ∧
    changes .rxFlush { receiving with spq := oneSpan 1 true } (·.waiting) :=
  ⟨trivial, fun h => h, by decide +kernel⟩

/-! Rings. -/

theorem ringOk_examples :
    RingOk full1234 ∧ RingOk ring3456 ∧ RingOk ring345 ∧ RingOk (ringOf []) ∧ RingOk (ringOf [1#8, 2#8, 3#8]) ∧
    RingOk (RingBuf.ofCapacity 1 0#8) ∧ RingOk ({ buf := [8#8], start := 0, tail := 0, full := true } : RingBuf Byte) := by
  unfold RingOk
  decide

theorem test_witness_RbInitEmptiesRing :
    small.issuer = .host ∧ small.tx.phase = .stopped ∧ ({ small with tx := sending 0x41#8 0 0 } : State).tx.phase ≠ .stopped ∧
    small.rx.run = false ∧ receiving.issuer = .host ∧ receiving.rx.run = true := by decide +kernel

theorem test_witness_RbPushStoresAtTail :
    small.issuer = .host ∧ full1234.full = true ∧ ring3456.full = true ∧ (ringOf [1#8, 2#8, 3#8]).full = false := by
  decide +kernel

theorem test_witness_RingRefinesBoundedList :
    RingOk ring3456 ∧ RingOk (RingBuf.ofCapacity 1 0#8) ∧
    (ringRun [.push 7#8, .pop, .popBulk 9, .pushBulk [1#8, 2#8], .init] ring3456).1 =
      [[], [4#8], [5#8, 6#8, 7#8], [], []] :=
  ⟨ringOk_examples.2.1, ringOk_examples.2.2.2.2.2.1, by decide⟩

theorem test_witness_RbPushBulkFillsFreeSpace :
    ({ small with txq := ring345 } : State).issuer = .host ∧ RingOk ({ small with txq := ring345 } : State).txq ∧
    RingOk ({ small with txq := full1234 } : State).txq := ⟨rfl, ringOk_examples.2.2.1, ringOk_examples.1⟩

theorem test_witness_RbPopTakesOldest :
    ({ small with rxq := ring345 } : State).issuer = .host ∧ RingOk ring345 ∧ ringContents ring345 = [3#8, 4#8, 5#8] ∧
    RingOk full1234 ∧ ringContents full1234 = [1#8, 2#8, 3#8, 4#8] ∧
    RingOk (ringOf []) ∧ ringContents (ringOf []) = [] :=
  ⟨rfl, ringOk_examples.2.2.1, by decide, ringOk_examples.1, by decide, ringOk_examples.2.2.2.1, by decide⟩

theorem test_witness_RbPopBulkTakesPrefix :
    ({ small with rxq := ring345 } : State).issuer = .host ∧ RingOk ({ small with rxq := ring345 } : State).rxq ∧
    RingOk (ringOf []) ∧ ringContents (ringOf []) = [] :=
  ⟨rfl, ringOk_examples.2.2.1, ringOk_examples.2.2.2.1, by decide⟩

theorem test_witness_RbAvailableCountsElements :
    small.issuer = .host ∧ RingOk small.txq ∧ RingOk ({ small with rxq := full1234 } : State).rxq ∧
    (RingOk ring3456 ∧ ring3456.full = true) ∧
    (RingOk (ringOf []) ∧ (ringOf []).full = false ∧ (ringOf []).start = (ringOf []).tail) ∧
    (RingOk ring345 ∧ ring345.full = false ∧ availOf ring345 = 3 ∧ 2 < availOf ring345) :=
  ⟨rfl, ⟨by decide, by decide, by decide⟩, ringOk_examples.1, ⟨ringOk_examples.2.1, by decide⟩,
    ⟨ringOk_examples.2.2.2.1, by decide, by decide⟩, ringOk_examples.2.2.1, by decide, by decide, by decide⟩

/-! Bit timer and transmitter. -/

/-- BT_SYNC, BT_ADVANCE and BT_WAIT: TXA, HOST with the transmitter stopped, HOST with it running; and the deadline's two sides. -/
theorem test_witness_BitTimer :
    (by_ .txa small).issuer = .txa ∧ (small.issuer = .host ∧ small.tx.run = false) ∧
    (let s : State := { small with tx := sending 0x41#8 0 100 }
     s.issuer = .host ∧ s.tx.run = true) ∧
    (let s := by_ .txa { small with now := 100, tx := sending 0x41#8 0 100 }
     s.issuer = .txa ∧ s.tx.d ≤ s.now) ∧
    (let s := by_ .txa { small with now := 99, tx := sending 0x41#8 0 100 }
     s.issuer = .txa ∧ s.now < s.tx.d) := by decide +kernel

/-- R174: waits that end at 100, 237, 300 and 445. -/
theorem test_witness_TimerDoesNotDrift :
    (let s := by_ .txa { small with now := 90, tx := { small.tx with d := 100 } }
     s.issuer = .txa ∧ (timerRounds 100 [0, 37, 0, 45] s).1 = [100, 237, 300, 445] ∧
     (timerRounds 100 [0, 37, 0, 45] s).2.tx.d = 500) := by decide +kernel

theorem test_witness_FrameLevelsLayout :
    (0 < 8 ∧ 7 < 8) ∧ ({ cfg8n1 with parity := true } : Cfg).parity = true ∧
    (9 + parityBits cfg8n1 ≤ 9 ∧ 9 < frameBits cfg8n1) ∧
    (let c : Cfg := { cfg8n1 with parity := true, stop2 := true }
     9 + parityBits c ≤ 10 ∧ 11 < frameBits c) := by decide

theorem test_witness_TxStartEntersIdle :
    (small.issuer = .host ∧ small.cfg.valid = true ∧ small.tx.run = false ∧ small.tx.phase = .stopped ∧ small.draw = true) ∧
    ({ small with draw := false } : State).draw = false ∧
    ({ small with cfg := { cfg8n1 with valid := false } } : State).cfg.valid = false ∧
    ({ small with tx := sending 0x41#8 0 0 } : State).tx.run = true ∧
    ({ small with tx := { sending 0x41#8 0 0 with run := false } } : State).tx.phase ≠ .stopped := by decide +kernel

theorem test_witness_TxStopIsCooperative :
    small.issuer = .host ∧
    (let s := by_ .txa { small with now := 100, tx := sending 0x41#8 0 100 }
     s.tx.phase = .busy ∧ after (exec .txStep s) (fun t => (t.tx.idx, t.pin.tx)) = some (1, false)) := by decide +kernel

/-- An idle transmitter with this queue. -/
def idleWith (q : RingBuf Byte) (run : Bool) : State :=
  by_ .txa { small with now := 7, txq := q, tx := { run := run, d := 5, frame := [], phase := .idle, idx := 0 } }

theorem test_witness_TxStepInIdle :
    ((idleWith (ringOf []) false).issuer = .txa ∧ (idleWith (ringOf []) false).tx.phase = .idle ∧
      (idleWith (ringOf []) false).tx.run = false) ∧
    ((idleWith (ringOf []) true).tx.run = true ∧ ringContents (idleWith (ringOf []) true).txq = []) ∧
    ((idleWith full1234 true).tx.run = true ∧ ringContents (idleWith full1234 true).txq = [1#8, 2#8, 3#8, 4#8]) ∧
    RingOk (idleWith (ringOf []) true).txq ∧ RingOk (idleWith full1234 true).txq :=
  ⟨by decide +kernel, by decide +kernel, by decide +kernel, ringOk_examples.2.2.2.1, ringOk_examples.1⟩

/-- A transmitter about to write slot `i` at its deadline, with this draw. -/
def busyAt (i : Nat) (draw : Bool) : State := by_ .txa { small with now := 100, draw := draw, tx := sending 0x41#8 i 100 }

theorem test_witness_TxStepInBusy :
    ((busyAt 0 true).issuer = .txa ∧ (busyAt 0 true).tx.phase = .busy ∧ (busyAt 0 true).tx.d ≤ (busyAt 0 true).now ∧
      (busyAt 0 true).tx.frame[(busyAt 0 true).tx.idx]? = some false ∧ (busyAt 0 true).draw = true) ∧
    ((busyAt 9 false).tx.frame[(busyAt 9 false).tx.idx]? = some true ∧ (busyAt 9 false).draw = false) := by decide +kernel

/-- A transmitter at the end of its last stop bit, with this queue and this run flag. -/
def doneWith (q : RingBuf Byte) (run : Bool) : State :=
  by_ .txa { small with now := 1100, txq := q, tx := { sending 0x41#8 10 1100 with phase := .done, run := run } }

theorem test_witness_TxStepInDone :
    ((doneWith (ringOf []) false).issuer = .txa ∧ (doneWith (ringOf []) false).tx.phase = .done ∧
      (doneWith (ringOf []) false).tx.d ≤ (doneWith (ringOf []) false).now ∧ (doneWith (ringOf []) false).tx.run = false) ∧
    ((doneWith (ringOf []) true).tx.run = true ∧ ringContents (doneWith (ringOf []) true).txq = []) ∧
    ((doneWith full1234 true).tx.run = true ∧ ringContents (doneWith full1234 true).txq = [1#8, 2#8, 3#8, 4#8]) ∧
    RingOk (doneWith (ringOf []) true).txq ∧ RingOk (doneWith full1234 true).txq :=
  ⟨by decide +kernel, by decide +kernel, by decide +kernel, ringOk_examples.2.2.2.1, ringOk_examples.1⟩

theorem test_witness_FrameWaveform :
    (let s := busyAt 0 true
     s.issuer = .txa ∧ s.draw = true ∧ s.tx.phase = .busy ∧ s.tx.idx = 0 ∧ s.tx.frame = frameLevels s.cfg 0x41#8 ∧
     (List.replicate (frameBits s.cfg) 0).length = frameBits s.cfg ∧ s.now ≤ s.tx.d ∧
     (sendLevels [0, 42, 0, 0, 0, 0, 0, 0, 0, 9] s)[1]? = some (100 + 104167 + 42, true)) := by decide +kernel

theorem txOk_examples :
    TxOk small ∧ TxOk (idleWith (ringOf []) true) ∧ TxOk (busyAt 9 true) ∧ TxOk (doneWith (ringOf []) false) := by
  refine ⟨⟨by decide, by decide, by decide, by decide⟩, ⟨by decide, by decide, by decide, by decide⟩,
    ⟨by decide, by decide, fun _ => ⟨by decide, 0x41#8, rfl⟩, by decide⟩, ⟨by decide, by decide, by decide, by decide⟩⟩

/-- A state with this command next. -/
def next1 (a : Agent) (i : Instr) (s : State) : State := place [cmd a i] [a] s

theorem test_witness_StepKeepsTransmitterOk :
    TxOk (next1 .txa .txStep (busyAt 9 true)) ∧
    after (step (next1 .txa .txStep (busyAt 9 true))) (·.tx.phase) = some .done ∧
    TxOk (next1 .txa .txStep (doneWith (ringOf []) false)) ∧
    after (step (next1 .txa .txStep (doneWith (ringOf []) false))) (·.tx.phase) = some .stopped ∧
    TxOk (next1 .host .txStart small) ∧ after (step (next1 .host .txStart small)) (·.tx.phase) = some .idle :=
  ⟨txOk_examples.2.2.1, by decide +kernel, txOk_examples.2.2.2, by decide +kernel, txOk_examples.1, by decide +kernel⟩

theorem test_witness_PinFailuresAreCounted :
    after (exec .txStep (busyAt 0 false)) (·.pinErr) = some 1 ∧ after (exec .txStep (busyAt 0 true)) (·.pinErr) = some 0 ∧
    NoPinFail (next1 .txa .txStep (busyAt 0 true)) ∧
    after (step (next1 .txa .txStep (busyAt 0 true))) (·.pinErr) = some 0 :=
  ⟨by decide +kernel, by decide +kernel, ⟨by decide, by decide⟩, by decide +kernel⟩

/-! Receiver. -/

/-- R205's band, both ends included: 75 and 125 of 100, and 74 and 126 outside. -/
theorem test_witness_BlendTracksPeriod :
    (3 * 100 ≤ 4 * 75 ∧ 4 * 75 ≤ 5 * 100) ∧ (3 * 100 ≤ 4 * 125 ∧ 4 * 125 ≤ 5 * 100) ∧ 4 * 74 < 3 * 100 ∧ 5 * 100 < 4 * 126 ∧
    1 ≤ 1 := by decide

/-- R210: 78 lacks 22 and takes it; 487 lacks 13, which level 87 still moves and level 88 does not; 200 lacks nothing; a donor of 0. -/
theorem test_witness_RelaxKeepsTotal :
    (0 < 100 ∧ 1 ≤ 2 ∧ [0, 113, 78][2]? = some 78 ∧ [0, 113, 78][2 - 1]? = some 113 ∧ 78 < 100 ∧ 22 = 100 - 78 ∧ 0 < 22) ∧
    ([129, 487][1]? = some 487 ∧ 100 ≤ 487 ∧ 13 < 100 ∧ (487 + 13) % 100 = 0 ∧ 100 * 13 ≤ (100 - 87) * 100 ∧
      (100 - 88) * 100 < 100 * 13) ∧
    ([113, 200][1]? = some 200 ∧ 0 < 100 ∧ (200 + 0) % 100 = 0) ∧
    correct 100 100 1 [0, 40] = [0, 40] ∧ correct 100 87 1 [129, 487] = [116, 500] ∧ correct 100 88 1 [129, 487] = [129, 487] := by
  decide

theorem test_witness_RoundDivIsNearest : 0 < 1 ∧ 0 < 104167 := by decide

/-- A window of these bits, unscored. -/
def bits (l : List Level) : List BitEntry := l.map (fun v => { lvl := v, score := 0 })

theorem test_witness_FrameCodecRoundTrips :
    (bits ([true, false] ++ List.replicate (stopBits cfg8n1) true ++ frameLevels cfg8n1 0xA5#8 ++ [false])).map (·.lvl) =
      [true, false] ++ List.replicate (stopBits cfg8n1) true ++ frameLevels cfg8n1 0xA5#8 ++ [false] ∧
    0 + scoredBits cfg8n1 ≤ (bits (List.replicate 11 true)).length ∧
    (∀ e ∈ bits (List.replicate 11 true), e.lvl = true) := by decide +kernel

/-- RX-7: a low trailing stop bit, a low leading stop bit, and a wrong parity bit in 8E1, each make the frame check false. -/
theorem test_witness_FrameCodecRoundTrips_invalid :
    frameValid cfg8n1 (bits ([true] ++ frameLevels cfg8n1 0x41#8)) 0 = true ∧
    frameValid cfg8n1 (bits ([true] ++ (frameLevels cfg8n1 0x41#8).take 9 ++ [false])) 0 = false ∧
    frameValid cfg8n1 (bits ([false] ++ frameLevels cfg8n1 0x41#8)) 0 = false ∧
    frameValid { cfg8n1 with parity := true } (bits ([true] ++ frameLevels { cfg8n1 with parity := true } 0x80#8)) 0 = true ∧
    frameValid { cfg8n1 with parity := true }
      (bits ([true] ++ (frameLevels { cfg8n1 with parity := true } 0x80#8).take 9 ++ [false, true])) 0 = false := by
  decide +kernel

/-- RX-6's tie: positions 0 and 8 score 1, and the earlier is picked. -/
theorem test_witness_PickIsEarliestBest :
    pick (([1, 0, 0, 0, 0, 0, 0, 0, 1, 0] : List Int).map (fun n => { lvl := true, score := n })) 9 = some 0 ∧
    pick (([0, 1, 0, 2] : List Int).map (fun n => { lvl := true, score := n })) 3 = some 3 ∧
    pick (([0, -1] : List Int).map (fun n => { lvl := true, score := n })) 1 = none := by decide

/-- RX-6: at the 11th bit position 0 scores 1, and at the 21st position 10, which chains on it, scores 2. Also the hypotheses on a
window too short, on one long enough to extract, and on an entry already scored. -/
theorem test_witness_ExtractionDropsOldestBits :
    (let w := bits ([true] ++ frameLevels cfg8n1 0x41#8 ++ frameLevels cfg8n1 0x42#8)
     0 + scoredBits cfg8n1 = (w.take 11).length ∧ scoreAt (scoreNewest cfg8n1 (w.take 11)) 0 = 1 ∧
     10 + scoredBits cfg8n1 = w.length ∧ 0 + frameBits cfg8n1 = 10 ∧
     scoreAt (scoreNewest cfg8n1 (w.set 0 { lvl := true, score := 1 })) 10 = 2 ∧
     (w.take 10).length < scoredBits cfg8n1 ∧ w.length < 2 * frameBits cfg8n1 + scoredBits cfg8n1 - 1 ∧
     2 * frameBits cfg8n1 + scoredBits cfg8n1 - 1 ≤ (w ++ w).length ∧ pick (w.set 0 { lvl := true, score := 1 }) 9 = some 0 ∧
     pick w 9 = none ∧ ({ lvl := true, score := 1 } : BitEntry).score ≠ 0) := by decide +kernel

theorem test_witness_FirstFrameIsDelivered :
    37 ≤ vec.bitwinCap ∧ 37 ≤ 37 ∧ (List.replicate 19 true).length = 2 * frameBits cfg8n1 - 1 ∧
    (let c : Cfg := { cfg8n1 with parity := true, stop2 := true }
     (List.replicate 23 false).length = 2 * frameBits c - 1 ∧
     36 < (List.replicate (stopBits c) true ++ frameLevels c 0x03#8 ++ List.replicate 23 false).length) := by decide +kernel

theorem test_witness_RxStartInitialises :
    (small.issuer = .host ∧ small.cfg.valid = true ∧ small.rx.run = false ∧ small.draw = true) ∧
    ({ small with draw := false } : State).draw = false ∧
    ({ small with cfg := { cfg8n1 with valid := false } } : State).cfg.valid = false ∧
    (receiving.issuer = .host ∧ receiving.rx.run = true) := by decide +kernel

theorem test_witness_RxEdgeRecordsSpan :
    (let s := by_ .rxc { receiving with pin := { tx := true, rx := false } }
     s.issuer = .rxc ∧ s.rx.run = true ∧ (s.pin.rx ^^ s.cfg.invert) ≠ s.rx.lv ∧ s.draw = true) ∧
    (let s := by_ .rxc { receiving with pin := { tx := true, rx := false }, draw := false }
     s.issuer = .rxc ∧ s.rx.run = true ∧ (s.pin.rx ^^ s.cfg.invert) ≠ s.rx.lv ∧ s.draw = false) := by decide +kernel

/-- A receiver with one span to process and this window. -/
def processing (sw : List (Nat × Level)) : State :=
  by_ .rxp { small with spq := oneSpan 129 true, rx := rxAt 320 false 99 sw [] }

theorem oneSpan_ok : RingOk (oneSpan 129 true) := by
  unfold RingOk
  decide

theorem test_witness_RxProcessHandlesOneSpan :
    ((processing [(0, true)]).issuer = .rxp ∧ (processing [(0, true)]).rx.run = true ∧
      ringContents (processing [(0, true)]).spq = [{ dur := 129, lvl := true }] ∧
      (processing [(0, true)]).rx.sw.length + 1 ≠ 4) ∧
    RingOk (processing [(0, true)]).spq ∧
    ((processing [(0, true), (113, true), (78, false)]).issuer = .rxp ∧
      (processing [(0, true), (113, true), (78, false)]).rx.run = true ∧
      ringContents (processing [(0, true), (113, true), (78, false)]).spq = [{ dur := 129, lvl := true }] ∧
      (processing [(0, true), (113, true), (78, false)]).rx.sw.length + 1 = 4) ∧
    (let w : List SpanEntry := [{ orig := 0, lvl := true }, { orig := 113, lvl := true }, { orig := 78, lvl := false },
        { orig := 130, lvl := true }]
     (relax 100 w)[1]? = some 91 ∧ w[1]?.map (·.lvl) = some true) :=
  ⟨by decide +kernel, oneSpan_ok, by decide +kernel, by decide +kernel⟩

theorem test_witness_RxFlushDrainsReceiver_window :
    (let s : State := { small with now := 3000, rx := rxAt 1000 true 100 [(500, false), (100, true), (100, false)] [] }
     s.rx.e < s.now ∧ s.rx.sw.length + 1 = 4 ∧
     (relax 100 (s.rx.sw ++ [{ orig := 2000, lvl := true }]))[1]? = some 100 ∧
     (s.rx.sw ++ [{ orig := 2000, lvl := true }])[1]?.map (·.lvl) = some true) ∧
    (let s : State := { receiving with now := 10000 }
     s.rx.e < s.now ∧ s.rx.sw.length + 1 ≠ 4) ∧
    receiving.now ≤ receiving.rx.e := by decide +kernel

theorem test_witness_RxFlushDrainsReceiver :
    (let s : State := { receiving with now := 10000 }
     s.issuer = .host ∧ s.rx.run = true ∧ ringEmpty s.spq = true ∧ s.rx.e < s.now) ∧
    (receiving.now = receiving.rx.e ∧ ringEmpty receiving.spq = true) ∧
    small.issuer = .host ∧ small.rx.run = false := by decide +kernel

theorem test_witness_RxStopClearsRun : small.issuer = .host ∧ receiving.issuer = .host := by decide +kernel

/-- A receiver as every run keeps it. -/
def goodRx (bw : List Level) : State :=
  { small with now := 320, rx := rxAt 320 false 99 [(0, true), (113, true), (78, false)] bw }

theorem cfgOk_small : CfgOk small := by
  unfold CfgOk
  decide +kernel

/-- The most bits extraction can leave, 2B+L-2 = 29, and none. -/
theorem rxOk_examples : RxOk (goodRx []) ∧ RxOk (goodRx (List.replicate 29 true)) := by
  unfold RxOk
  decide +kernel

theorem test_witness_StepKeepsReceiverOk :
    (let s : State := { next1 .rxp .rxProcess (goodRx (List.replicate 29 true)) with spq := oneSpan 129 true }
     CfgOk s ∧ RxOk s ∧ (nextOf (step s)).isSome = true) :=
  ⟨cfgOk_small, rxOk_examples.2, by decide +kernel⟩

/-! AKP decoder. -/

/-- A decoder in this mode, with lookback "XL". -/
def parsing (m : ParseMode) : TagParse := { akpFresh with lb1 := 0x58#8, lb0 := 0x4C#8, mode := m, tag := (0x4C#8, 0x41#8) }

theorem test_witness_AkpInitCreatesInstance : small.issuer = .host ∧ akpGet? decoding.akp 0 = some akpFresh := by decide +kernel

theorem test_witness_AkpFeedActsOnItsInstance :
    decoding.issuer = .host ∧ akpGet? decoding.akp 0 = some akpFresh ∧ akpGet? decoding.akp 1 = none := by decide +kernel

theorem test_witness_TagStartPreempts :
    ((parsing .cs2).mode ≠ .ddpay ∧ isUpper (parsing .cs2).lb1 = true ∧ isUpper (parsing .cs2).lb0 = true) ∧
    ((parsing .between).mode = .between ∧ 0x41#8 ≠ (0x5E#8 : Byte)) ∧
    (akpFresh.mode = .between ∧ isUpper akpFresh.lb1 = false ∧ isUpper akpFresh.lb0 = false) := by decide

/-- A decoder in DATA with `n` bytes of data. -/
def dataOf (n : Nat) : TagParse := { parsing .data with data := List.replicate n 0x31#8 }

/-- R92: the ends of UPPER and LHEX, and the bytes beside them. -/
theorem test_byteClasses :
    [0x40#8, 0x41#8, 0x5A#8, 0x5B#8].map isUpper = [false, true, true, false] ∧
    [0x2F#8, 0x30#8, 0x39#8, 0x3A#8, 0x60#8, 0x61#8, 0x66#8, 0x67#8, 0x41#8].map hexVal? =
      [none, some 0#4, some 9#4, none, none, some 10#4, some 15#4, none, none] ∧
    tagStarts (parsing .cs1) 0x5E#8 = true := by decide

theorem test_witness_DataBytesAccumulate :
    (dataOf 31).mode = .data ∧ tagStarts (dataOf 31) 0x3A#8 = false ∧
    (tagStarts (dataOf 30) 0x32#8 = false ∧ 0x32#8 ≠ (0x3A#8 : Byte) ∧ (dataOf 30).data.length < vec.dataCap) ∧
    (tagStarts (dataOf 31) 0x32#8 = false ∧ vec.dataCap ≤ (dataOf 31).data.length ∧ vec.dataOverflow = .abort) ∧
    ({ vec with dataOverflow := .truncate } : Params).dataOverflow = .truncate := by decide +kernel

theorem test_witness_ChecksumDecidesRecord :
    (tagStarts (parsing .cs1) 0x36#8 = false ∧ (parsing .cs1).mode = .cs1 ∧ hexVal? 0x36#8 = some 6#4) ∧
    (tagStarts (parsing .cs2) 0x46#8 = false ∧ hexVal? 0x46#8 = none) ∧
    (let T := { parsing .cs2 with hi := 6#4 }
     tagStarts T 0x37#8 = false ∧ T.mode = .cs2 ∧ hexVal? 0x37#8 = some 7#4 ∧
     T.hi.toNat * 16 + (7#4 : BitVec 4).toNat =
       (crc8With vec.crc8Step T.data (crc8With vec.crc8Step [T.tag.1, T.tag.2] 0x00#8)).toNat ∧
     T.hi.toNat * 16 + (8#4 : BitVec 4).toNat ≠
       (crc8With vec.crc8Step T.data (crc8With vec.crc8Step [T.tag.1, T.tag.2] 0x00#8)).toNat) := by decide +kernel

theorem test_witness_DdPayloadIsVerbatim :
    (parsing .data).mode ≠ .ddpay ∧
    (([] : List Byte).length ≤ 65535 ∧ ([] : List Byte).length ≤ vec.ddCap) ∧
    ((ascii [0x41, 0x42, 0x5E]).length ≤ 65535 ∧ (ascii [0x41, 0x42, 0x5E]).length ≤ vec.ddCap) ∧
    hex4 65535 = ascii [0x66, 0x66, 0x66, 0x66] ∧ hex4 12 = ascii [0x30, 0x30, 0x30, 0x63] := by decide +kernel

theorem test_witness_DdLengthMismatchAborts :
    ((parsing .ddlen).mode ≠ .ddpay ∧ 5 ≤ 65535 ∧ 6 ≤ 65535 ∧ 5 ≠ 6 ∧ 65535 ≤ 65535) ∧
    (let p := { vec with ddCap := 4 }
     p.ddCap < 5 ∧ ¬ p.ddCap < 4 ∧ (akpFeedAll p akpFresh (ascii [0x44, 0x44, 0x5E] ++ hex4 5 ++ hex4 5)).1.mode = .between ∧
     (akpFeedAll p akpFresh (ascii [0x44, 0x44, 0x5E] ++ hex4 4 ++ hex4 4)).1.mode = .ddpay) ∧
    ((parsing .ddlen).mode = .ddlen ∧ tagStarts (parsing .ddlen) 0x41#8 = false ∧ hexVal? 0x41#8 = none ∧
      (akpFeed vec (parsing .ddlen) 0x41#8).1.mode = .between) := by decide +kernel

/-- S2's record, met from the middle of another record. -/
theorem test_witness_RecordResynchronises :
    (let data := ascii [0x2D, 0x33, 0x33, 0x30, 0x30, 0x30]
     (parsing .cs1).mode ≠ .ddpay ∧ isUpper 0x4C#8 = true ∧ isUpper 0x41#8 = true ∧ (0x4C#8, 0x41#8) ≠ ddTag ∧
     (∀ c ∈ data, c ≠ colon) ∧ data.length ≤ vec.dataCap ∧ hexVal? 0x38#8 = some 8#4 ∧ hexVal? 0x30#8 = some 0#4 ∧
     16 * (8#4 : BitVec 4).toNat + (0#4 : BitVec 4).toNat = (recordCrc vec.crc8Step (0x4C#8, 0x41#8) data).toNat) ∧
    noTagStartIn (ascii [0x2D, 0x33, 0x33, 0x30, 0x30, 0x30]) := by
  refine ⟨by decide +kernel, fun i a b h1 h2 h3 => ?_⟩
  have hi : i + 2 < 6 := by
    by_contra h
    rw [List.getElem?_eq_none (by simp [ascii]; omega)] at h3
    cases h3
  have h4 : i < 4 := by omega
  interval_cases i <;> simp_all [ascii, caret]

theorem akpOk_decoding : AkpOk decoding := by
  refine ⟨by decide +kernel, fun x hx => ?_⟩
  simp only [decoding, List.mem_singleton] at hx
  subst hx
  exact ⟨by decide, fun _ => rfl, by decide, by decide, by decide⟩

theorem test_witness_StepKeepsDecodersOk :
    AkpOk (next1 .host (.akpFeed 0 0x41#8) decoding) ∧
    (nextOf (step (next1 .host (.akpFeed 0 0x41#8) decoding))).isSome = true := ⟨akpOk_decoding, by decide +kernel⟩

/-! Configuration, environment, the whole machine. -/

theorem test_witness_CfgSetWritesConfiguration :
    (small.issuer = .host ∧ 115200 ∈ [300, 600, 1200, 2400, 4800, 9600, 19200, 38400, 57600, 115200] ∧ small.tx.run = false ∧
      small.tx.phase = .stopped ∧ small.rx.run = false) ∧
    9601 ∉ [300, 600, 1200, 2400, 4800, 9600, 19200, 38400, 57600, 115200] ∧
    (idleWith (ringOf []) true).tx.run = true ∧ (doneWith (ringOf []) false).tx.phase ≠ .stopped ∧
    receiving.rx.run = true := by decide +kernel

theorem test_witness_ConfigurationFrozenWhileRunning :
    (let s := next1 .env (.envTick 1) receiving
     s.rx.run = true ∧ (nextOf (step s)).isSome = true) ∧
    (let s := next1 .env (.envTick 1) (idleWith (ringOf []) true)
     s.tx.run = true ∧ (nextOf (step s)).isSome = true) ∧
    (let s := next1 .txa .txStep (doneWith (ringOf []) false)
     s.tx.run = false ∧ s.tx.phase ≠ .stopped ∧ (nextOf (step s)).isSome = true) := by decide +kernel

theorem test_witness_EnvironmentSteps :
    (by_ .env small).issuer = .env ∧ 1 ≤ 1 ∧
    after (step (next1 .env (.envTick 1) small)) (·.now) = some 1 := by decide +kernel

theorem test_witness_StepKeepsRingsConfigurationAndWaits :
    (let s := next1 .host (.rbPushTxq 1#8) small
     RingsOk s ∧ CfgOk s ∧ WaitOk s ∧ (nextOf (step s)).isSome = true) ∧
    (let s := next1 .txa .btWait { small with tx := { small.tx with d := 1 }, waiting := [waits .rxc .rxEdge] }
     WaitOk s ∧ after (step s) (fun t => t.waiting.length) = some 2) := by
  refine ⟨⟨⟨⟨by decide, by decide, by decide⟩, ⟨by decide, by decide, by decide⟩, ⟨by decide, by decide, by decide⟩⟩,
    cfgOk_small, ?_, by decide +kernel⟩, ?_, by decide +kernel⟩
  · unfold WaitOk
    decide
  · unfold WaitOk
    decide

/-! ## Runs (R309, R355) -/

/-- A run of these commands in this order, nothing yet refused. -/
def runOf (cs : List Issue) (s : State) : Run := { state := issueAll cs s, refused := false }

/-- A run of three commands, the second of them refused: it ends when HOST's last command is done, and is observed there. -/
theorem test_observeEnd :
    (observeEnd 5 (runOf [cmd .host (.rbPushTxq 1#8), noRow, cmd .host .rbPopRxq] small)).isNone ∧
    observeEnd 5 (runOf [cmd .host .rbPopRxq, noRow, cmd .env (.envTick 9)] { small with rxq := ringOf [7#8] }) =
      some { rxq := [], txq := [], hostResults := [.byteOpt (some 7#8)], pinErr := 0, refused := true } := by decide +kernel

/-- LOOPBACK at TX_START: the write is seen, and the step after it is ENV's copy of the tx pin. A refused TX_START writes nothing. -/
theorem test_loopback :
    (let s := issueAll [cmd .host .txStart, cmd .env (.envRxpin true)] small
     ((nextInstr s).map (fun x => (x.1, writesTxPin x.1 x.2)) = some (.txStart, true)) ∧
     ((nextOf (step s)).bind nextInstr).map (fun x => (x.1, x.2.issuer)) = some (.envRxpin true, .env)) ∧
    (nextInstr (next1 .txa .txStart small)).map (fun x => writesTxPin x.1 x.2) = some false := by decide +kernel

/-- R328: which agents have an enabled step; a refused command is none and hides none. -/
theorem test_agentEnabled :
    [Agent.host, .txa, .rxc, .rxp, .env].map (agentEnabled small) = [false, false, false, false, true] ∧
    agentEnabled (busyAt 0 true) .txa = true ∧ agentEnabled { receiving with pin := { tx := true, rx := false } } .rxc = true ∧
    agentEnabled (processing [(0, true)]) .rxp = true ∧ agentEnabled (queued (cmd .host .txStop)) .host = true ∧
    agentEnabled (queued noRow) .host = false ∧ agentEnabled (issueAll [noRow, cmd .host .txStop] small) .host = true ∧
    agentEnabled (queued noRow) .txa = true ∧ agentEnabled (queued noRow) .rxc = false := by decide +kernel

/-- R85, R309, R322: TXA in IDLE has a step, and its refused TX_START is not it; nor is a step into the wait. -/
theorem test_stepTaker :
    agentEnabled (next1 .txa .txStart (idleWith (ringOf []) true)) .txa = true ∧
    stepTaker (next1 .txa .txStart (idleWith (ringOf []) true)) = none ∧
    stepTaker (next1 .txa .txStep (idleWith (ringOf []) true)) = some .txa ∧
    stepTaker (next1 .rxc .rxEdge small) = none := by decide +kernel

/-- P4: the receiver starts at 0 with one stop bit, so the start bit that begins at 100 is no breach of IDLE_LINE, one at 99 is. -/
theorem test_idleLine :
    (let s := { small with now := 3 }
     nextInstr (next1 .host .rxStart s) = some (.rxStart, { s with issuer := .host, draw := true }) ∧ enabledStep .rxStart s = true) ∧
    ¬ (0 + 100 < 0 + stopBits cfg8n1 * pNom vec cfg8n1) ∧ 0 + 99 < 0 + stopBits cfg8n1 * pNom vec cfg8n1 := by decide +kernel

end Sys2Proof.Tests
end

section
/-! SUPPORT. The rules of the step (00_scope.md R10, R12, R14): what the agent whose turn is next takes, as a rule for each of the three
selections; the step into the wait, said once for the five commands whose rule has an `await`; and the obligations that follow. -/

namespace Sys2Proof.Scope

open Sys2Proof.Machine Sys2Proof.Claims

/-! ### What a turn takes -/

theorem select_of_takesNext {s : State} {c : Issue} {rest : List Issue} (ts : List Agent) (h : takesNext s c rest) :
    select { s with turns := c.agent :: ts } = .fetch c (atIssue s ts rest s.waiting c.agent c.draw) := by
  obtain ⟨hwait, front, back, hpend, rfl, hfirst⟩ := h
  exact select_fetch.mpr ⟨ts, front, back, rfl, hwait, hpend, hfirst, rfl⟩

/-- Whether an await holds is a matter of the block's fields, which the interleaving does not touch. -/
theorem ready_turns (i : Instr) (s : State) (ts : List Agent) : ready i { s with turns := ts } = ready i s := by
  cases i <;> rfl

theorem select_of_resumesNext {s : State} {w : Waiter} {rest : List Waiter} (ts : List Agent) (h : resumesNext s w rest) :
    select { s with turns := w.agent :: ts } = .resume w (atIssue s ts s.pending rest w.agent w.draw) := by
  obtain ⟨older, newer, hwait, rfl, hready, hfirst⟩ := h
  exact select_resume.mpr ⟨ts, older, newer, rfl, hwait, hfirst, (ready_turns ..).trans hready, rfl⟩

/-- A turn that takes neither a waiter nor a command passes; of an agent without a step it can take neither. -/
theorem select_of_hasNoStep {s : State} {a : Agent} (ts : List Agent) (h : hasNoStep s a) :
    select { s with turns := a :: ts } = .idle { s with turns := ts } := by
  rcases h with ⟨older, w, newer, hwait, rfl, hready, hfirst⟩ | ⟨hwait, hpend⟩
  · have htake : takeFirst (fun v => decide (v.agent = w.agent)) s.waiting = some (w, older ++ newer) :=
      takeFirst_some.mpr ⟨older, newer, hwait, rfl, by simp, by simpa using hfirst⟩
    simp [select, htake, ready_turns, hready]
  · have hnoWaiter : takeFirst (fun w => decide (w.agent = a)) s.waiting = none := takeFirst_none.mpr (by simpa using hwait)
    have hnoIssue : takeFirst (fun c => decide (c.agent = a)) s.pending = none := takeFirst_none.mpr (by simpa using hpend)
    simp [select, hnoWaiter, hnoIssue]

/-! ### The await conditions -/

theorem ready_btWait_eq_false {s : State} : ready .btWait s = false ↔ s.now < s.tx.d := by
  simp [ready, deadlineMet]

theorem ready_txStep_eq_false {s : State} : ready .txStep s = false ↔
    s.tx.phase = .stopped ∨ ((s.tx.phase = .busy ∨ s.tx.phase = .done) ∧ s.now < s.tx.d) := by
  cases hphase : s.tx.phase <;> simp [ready, txStepReady, deadlineMet, hphase]

theorem ready_rxEdge_eq_false {s : State} :
    ready .rxEdge s = false ↔ s.rx.run = false ∨ (s.pin.rx ^^ s.cfg.invert) = s.rx.lv := by
  simp only [ready, transitionPending, invertLevel, Bool.and_eq_false_iff, bne_eq_false_iff_eq]

theorem ready_rxProcess_eq_false {s : State} :
    ready .rxProcess s = false ↔ s.rx.run = false ∨ ringEmpty s.spq = true := by
  simp only [ready, Bool.and_eq_false_iff, Bool.not_eq_false']

/-- A command its agent may issue while the await of its rule does not hold only joins the waiters; RX_FLUSH has a refusal that comes
before its await (R231). A command without an await is always ready, so it is none of these. -/
theorem exec_of_not_ready {s : State} {i : Instr} (hissue : mayIssue s i) (hready : ready i s = false)
    (hflush : i = .rxFlush → s.rx.run = true) : exec i s = .next (await i s) := by
  cases i
  case btWait => simp [exec, execBtWait, byTimerAgent, bitTimerAllowed_iff.mpr hissue, hready]
  case txStep => simp [exec, execTxStep, byAgent_self hissue, hready]
  case rxEdge => simp [exec, execRxEdge, byAgent_self hissue, hready]
  case rxProcess => simp [exec, execRxProcess, byAgent_self hissue, hready]
  case rxFlush => simp [exec, execRxFlush, byAgent_self hissue, hflush rfl, hready]
  all_goals simp [ready] at hready

/-! ### The obligations of 00_scope.md -/

/-- Settles O6: the conditions are those of the five awaits, and a command that is not ready only joins the waiters. -/
theorem awaitHoldsOnlyTheAgent : Obligations.AwaitHoldsOnlyTheAgent := by
  intro s i hissue hcond
  rcases hcond with ⟨rfl, h⟩ | ⟨rfl, h⟩ | ⟨rfl, h⟩ | ⟨rfl, h⟩ | ⟨rfl, hrun, hspans⟩
  · exact exec_of_not_ready hissue (ready_btWait_eq_false.mpr h) (by simp)
  · exact exec_of_not_ready hissue (ready_txStep_eq_false.mpr h) (by simp)
  · exact exec_of_not_ready hissue (ready_rxEdge_eq_false.mpr h) (by simp)
  · exact exec_of_not_ready hissue (ready_rxProcess_eq_false.mpr h) (by simp)
  · exact exec_of_not_ready hissue hspans fun _ => hrun

/-- Settles O4: the turn selects the command, which decodes. -/
theorem stepRunsDecodedCommand : Obligations.StepRunsDecodedCommand := by
  intro s ts c rest i htakes hdecode
  simp [step, select_of_takesNext ts htakes, hdecode]

/-- Settles O5: the turn selects the waiter, or passes. -/
theorem waitingAgentResumes : Obligations.WaitingAgentResumes := by
  refine ⟨fun s ts w rest hresumes => ?_, fun s ts a hidle => ?_, fun s hturns => ?_⟩
  · simp [step, select_of_resumesNext ts hresumes]
  · simp [step, select_of_hasNoStep ts hidle]
  · simp [step, select, hturns]

end Sys2Proof.Scope
end

section
/-! SUPPORT. What each field of the state is written by (10_state.md R22 to R42): the settlement of the list of writers, and, for every
field an invariant speaks of, the short list of instructions after which it can differ. An invariant's proof looks at those
instructions only. -/

namespace Sys2Proof.StateRules

open Sys2Proof.Machine Sys2Proof.Claims

/-- Settles O9, instruction by instruction: the state each one answers is named by its inversion, and by the shape of the operation where
it calls one. Where the trace is an operation's, that it grows is the operation's own lemma. -/
theorem fieldsHaveOnlyTheirWriters : Obligations.FieldsHaveOnlyTheirWriters := by
  intro i s t h
  cases i <;> simp only [exec] at h
  case rbInitTxq => obtain ⟨-, -, rfl⟩ := execRbInitTxq_next h; simp [emits]
  case rbInitRxq => obtain ⟨-, -, rfl⟩ := execRbInitRxq_next h; simp [emits]
  case rbPushTxq b => obtain ⟨-, rfl⟩ := execRbPushTxq_next h; simp [emits, overflowTrace_grows]
  case rbPushBulkTxq bs =>
    obtain ⟨-, rfl⟩ := execRbPushBulkTxq_next h
    have hgrows := pushAllTxq_trace (bs.take (bulkCount bs s.txq)) s
    have hfits := pushAllTxq_trace_bulk bs (s := s)
    obtain ⟨q, tr, e⟩ := pushAllTxq_shape (bs.take (bulkCount bs s.txq)) s
    rw [e] at hgrows hfits ⊢
    simpa [emits, hgrows] using mt hfits
  case rbPopRxq => obtain ⟨-, rfl⟩ := execRbPopRxq_next h; simp [emits]
  case rbPopBulkRxq => obtain ⟨-, rfl⟩ := execRbPopBulkRxq_next h; simp [emits]
  case rbAvailableTxq => obtain ⟨-, rfl⟩ := execRbAvailableTxq_next h; simp [emits]
  case rbAvailableRxq => obtain ⟨-, rfl⟩ := execRbAvailableRxq_next h; simp [emits]
  case crc8Step => obtain rfl := execCrc8Step_next h; simp [emits]
  case crc8 => obtain rfl := execCrc8_next h; simp [emits]
  case btSync => obtain ⟨-, rfl⟩ := execBtSync_next h; simp [emits]
  case btAdvance => obtain ⟨-, rfl⟩ := execBtAdvance_next h; simp [emits]
  case btWait => obtain ⟨-, rfl | rfl⟩ := execBtWait_next h <;> simp [emits]
  case txStart =>
    obtain ⟨-, -, -, -, rfl⟩ := execTxStart_next h
    rcases pinWrite_cases (invertLevel s.cfg true) s with ⟨-, e⟩ | ⟨-, e⟩ <;> rw [txStart_eq, e] <;> simp [emits]
  case txStep =>
    obtain ⟨-, ⟨-, rfl⟩ | ⟨-, rfl⟩⟩ := execTxStep_next h
    · rcases txStep_shape Config.params s with ⟨q, d, f, ph, ix, e⟩ | ⟨-, e⟩
      · rw [e]; simp [emits]
      · rcases pinWrite_cases (invertLevel s.cfg (s.tx.frame.getD s.tx.idx true)) s with ⟨-, e'⟩ | ⟨-, e'⟩ <;>
          rw [e, txBusy, e'] <;> simp [emits]
    · simp [emits]
  case txStop => obtain ⟨-, rfl⟩ := execTxStop_next h; simp [emits]
  case rxStart =>
    obtain ⟨-, -, -, rfl⟩ := execRxStart_next h
    rcases rxStart_cases Config.params s with ⟨-, e⟩ | ⟨-, e⟩ <;> rw [e] <;> simp [emits]
  case rxEdge =>
    obtain ⟨-, ⟨-, rfl⟩ | ⟨-, rfl⟩⟩ := execRxEdge_next h
    · rcases rxEdge_cases s with ⟨-, e⟩ | ⟨-, e⟩ <;> rw [e] <;> simp [emits, overflowTrace_grows]
    · simp [emits]
  case rxProcess =>
    obtain ⟨-, ⟨-, -, rfl⟩ | rfl⟩ := execRxProcess_next h
    · have hgrows := rxProcess_trace Config.params s
      obtain ⟨q, k, w, pm, e⟩ := rxProcess_shape Config.params s
      rw [e] at hgrows ⊢
      simpa [emits] using hgrows
    · simp [emits]
  case rxFlush =>
    obtain ⟨-, -, ⟨-, rfl⟩ | ⟨-, rfl⟩⟩ := execRxFlush_next h
    · have hgrows := rxFlush_trace Config.params s
      obtain ⟨k, w, e⟩ := rxFlush_shape Config.params s
      rw [e] at hgrows ⊢
      simpa [emits] using hgrows
    · simp [emits]
  case rxStop => obtain ⟨-, rfl⟩ := execRxStop_next h; simp [emits]
  case akpInit => obtain ⟨-, rfl⟩ := execAkpInit_next h; simp [emits]
  case akpFeed => obtain ⟨-, T, -, rfl⟩ := execAkpFeed_next h; simp [emits]
  case cfgSet => obtain ⟨-, -, -, rfl⟩ := execCfgSet_next h; simp [emits]
  case envTick => obtain ⟨-, -, rfl⟩ := execEnvTick_next h; simp [emits]
  case envRxpin => obtain ⟨-, rfl⟩ := execEnvRxpin_next h; simp [emits]

variable {i : Instr} {s t : State}

/-- `now` never decreases (R24). -/
theorem exec_now_le (h : exec i s = .next t) : s.now ≤ t.now := by
  obtain ⟨hnow, -⟩ := fieldsHaveOnlyTheirWriters i s t h
  by_cases e : t.now = s.now
  · exact e.ge
  · obtain ⟨n, rfl⟩ := hnow e
    obtain ⟨-, -, rfl⟩ := execEnvTick_next h
    exact Nat.le_add_right ..

theorem exec_cfg_cases (h : exec i s = .next t) : t.cfg = s.cfg ∨ ∃ n p d v, i = .cfgSet n p d v := by
  obtain ⟨-, -, -, hcfg, -⟩ := fieldsHaveOnlyTheirWriters i s t h
  exact or_iff_not_imp_left.mpr hcfg

theorem exec_tx_cases (h : exec i s = .next t) :
    t.tx = s.tx ∨ i = .txStart ∨ i = .txStep ∨ i = .txStop ∨ i = .btSync ∨ ∃ d, i = .btAdvance d := by
  obtain ⟨-, -, -, -, hrun, hd, hseq, -⟩ := fieldsHaveOnlyTheirWriters i s t h
  by_contra hnone
  cases ht : t.tx
  cases hs : s.tx
  grind

theorem exec_rx_cases (h : exec i s = .next t) :
    t.rx = s.rx ∨ i = .rxStart ∨ i = .rxEdge ∨ i = .rxProcess ∨ i = .rxFlush ∨ i = .rxStop := by
  obtain ⟨-, -, -, -, -, -, -, hrun, he, hlv, hwindows, -⟩ := fieldsHaveOnlyTheirWriters i s t h
  by_contra hnone
  cases ht : t.rx
  cases hs : s.rx
  grind

theorem exec_txq_cases (h : exec i s = .next t) :
    t.txq = s.txq ∨ i = .rbInitTxq ∨ (∃ b, i = .rbPushTxq b) ∨ (∃ bs, i = .rbPushBulkTxq bs) ∨ i = .txStep := by
  obtain ⟨-, -, -, -, -, -, -, -, -, -, -, htxq, -⟩ := fieldsHaveOnlyTheirWriters i s t h
  exact or_iff_not_imp_left.mpr htxq

theorem exec_rxq_cases (h : exec i s = .next t) :
    t.rxq = s.rxq ∨ i = .rbInitRxq ∨ i = .rbPopRxq ∨ (∃ m, i = .rbPopBulkRxq m) ∨ i = .rxProcess ∨ i = .rxFlush := by
  obtain ⟨-, -, -, -, -, -, -, -, -, -, -, -, hrxq, -⟩ := fieldsHaveOnlyTheirWriters i s t h
  exact or_iff_not_imp_left.mpr hrxq

theorem exec_spq_cases (h : exec i s = .next t) : t.spq = s.spq ∨ i = .rxStart ∨ i = .rxEdge ∨ i = .rxProcess := by
  obtain ⟨-, -, -, -, -, -, -, -, -, -, -, -, -, hspq, -⟩ := fieldsHaveOnlyTheirWriters i s t h
  exact or_iff_not_imp_left.mpr hspq

theorem exec_akp_cases (h : exec i s = .next t) : t.akp = s.akp ∨ (∃ n, i = .akpInit n) ∨ ∃ n c, i = .akpFeed n c := by
  obtain ⟨-, -, -, -, -, -, -, -, -, -, -, -, -, -, hakp, -⟩ := fieldsHaveOnlyTheirWriters i s t h
  exact or_iff_not_imp_left.mpr hakp

end Sys2Proof.StateRules
end

section
/-! SUPPORT. Every step keeps the transmitter's sequencer good (10_state.md R30 to R33): one lemma for each phase TX_STEP begins in
(42_bit_timer_tx.md R181 to R183), then the writers of the transmitter and of CFG. -/

namespace Sys2Proof.StateRules

open Sys2Proof.Machine Sys2Proof.Claims

variable {i : Instr} {s t : State}

theorem frameBits_pos (c : Cfg) : 0 < frameBits c := by simp [frameBits]

/-! ### Good states by phase -/

theorem TxOk_of_eq (hcfg : t.cfg = s.cfg) (htx : t.tx = s.tx) (h : TxOk s) : TxOk t := by
  unfold TxOk at h ⊢
  rwa [hcfg, htx]

theorem TxOk_stopped (hrun : t.tx.run = false) (hphase : t.tx.phase = .stopped) : TxOk t := by
  simp [TxOk, hrun, hphase]

theorem TxOk_idle (hphase : t.tx.phase = .idle) (hvalid : t.cfg.valid = true) (hidx : t.tx.idx ≤ frameBits t.cfg) :
    TxOk t := by
  simp [TxOk, hphase, hvalid, hidx]

theorem TxOk_txBegin (b : Byte) (q : RingBuf Byte) (d : Nat) (hvalid : s.cfg.valid = true) : TxOk (txBegin b q d s) := by
  simp [TxOk, txBegin, hvalid, frameBits_pos]

/-! ### TX_STEP -/

theorem TxOk_txIdle (h : TxOk s) (hphase : s.tx.phase = .idle) : TxOk (txIdle s) := by
  obtain ⟨-, hout, -, -⟩ := id h
  obtain ⟨hvalid, -⟩ := hout (by simp [hphase])
  unfold txIdle
  split
  next hrun => exact TxOk_stopped (by simpa using hrun) rfl
  next =>
    split
    · exact h
    · exact TxOk_txBegin _ _ _ hvalid

/-- In BUSY the index reaches B exactly when the phase becomes DONE (R182). -/
theorem TxOk_txBusy (p : Params) (h : TxOk s) (hphase : s.tx.phase = .busy) : TxOk (txBusy p s) := by
  obtain ⟨-, hout, hbusy, -⟩ := h
  obtain ⟨hvalid, -⟩ := hout (by simp [hphase])
  obtain ⟨hidx, hframe⟩ := hbusy hphase
  by_cases hlast : s.tx.idx + 1 = frameBits s.cfg
  · simp [TxOk, txBusy, hvalid, hlast]
  · have hnext : s.tx.idx + 1 < frameBits s.cfg := by omega
    simp [TxOk, txBusy, hvalid, hlast, hnext, hnext.le, hframe]

theorem TxOk_txDone (h : TxOk s) (hphase : s.tx.phase = .done) : TxOk (txDone s) := by
  obtain ⟨-, hout, -, -⟩ := h
  obtain ⟨hvalid, hidx⟩ := hout (by simp [hphase])
  unfold txDone
  split
  next hrun => exact TxOk_stopped (by simpa using hrun) rfl
  next =>
    split
    · exact TxOk_idle rfl hvalid hidx
    · exact TxOk_txBegin _ _ _ hvalid

theorem TxOk_txStep (p : Params) (h : TxOk s) : TxOk (txStep p s) := by
  unfold txStep
  split
  next => exact h
  next hphase => exact TxOk_txIdle h hphase
  next hphase => exact TxOk_txBusy p h hphase
  next hphase => exact TxOk_txDone h hphase

/-! ### Every instruction, every step -/

/-- CFG_SET is the one writer of CFG, and it is refused out of STOPPED (R301). -/
theorem exec_keeps_TxOk (h : TxOk s) (he : exec i s = .next t) : TxOk t := by
  rcases exec_tx_cases he with htx | rfl | rfl | rfl | rfl | ⟨d, rfl⟩
  · rcases exec_cfg_cases he with hcfg | ⟨n, p, d, v, rfl⟩
    · exact TxOk_of_eq hcfg htx h
    · obtain ⟨-, -, hidle, rfl⟩ := execCfgSet_next he
      simp only [channelBusy, Bool.or_eq_false_iff, decide_eq_false_iff_not, not_not] at hidle
      obtain ⟨⟨hrun, hphase⟩, -⟩ := hidle
      exact TxOk_stopped hrun hphase
  · obtain ⟨-, hvalid, -, -, rfl⟩ := execTxStart_next he
    exact TxOk_idle rfl (by simpa [txStart] using hvalid) (Nat.zero_le _)
  · obtain ⟨-, ⟨-, rfl⟩ | ⟨-, rfl⟩⟩ := execTxStep_next he
    · exact TxOk_txStep _ h
    · exact h
  · obtain ⟨-, rfl⟩ := execTxStop_next he
    obtain ⟨-, hrest⟩ := h
    exact ⟨by simp, hrest⟩
  · obtain ⟨-, rfl⟩ := execBtSync_next he
    exact h
  · obtain ⟨-, rfl⟩ := execBtAdvance_next he
    exact h

/-- Settles O31: no queue is looked at, and every instruction keeps it. -/
theorem stepKeepsTransmitterOk : Obligations.StepKeepsTransmitterOk := by
  intro s s' hs h
  exact step_keeps (fun _ _ _ _ _ _ hu => hu) (fun _ _ _ => exec_keeps_TxOk) hs h

end Sys2Proof.StateRules
end

section
/-! SUPPORT. What the receiver's bit path keeps. RX_PROCESS and RX_FLUSH reach the BitWindow and RXQ through PUSH_BIT and EXTRACT_ONE only
(43_uart_rx.md R204 to R231), so a property of the bit path that these two keep is kept by both commands. The induction is made here
once, and is used for the ring's indices and for the BitWindow. -/

namespace Sys2Proof.StateRules

open Sys2Proof.Machine

variable {P : BitPath → Prop} {p : Params} {c : Cfg} {k : BitPath} {s : State}

/-! ### Loops -/

theorem extractLoop_keeps (hone : ∀ hi k, P k → P (extractOne c hi k)) (n : Nat) (hk : P k) : P (extractLoop c n k) := by
  induction n generalizing k with
  | zero => exact hk
  | succ n ih =>
    unfold extractLoop
    split
    · exact ih (hone _ _ hk)
    · exact hk

theorem extractFinalLoop_keeps (hone : ∀ hi k, P k → P (extractOne c hi k)) (n : Nat) (hk : P k) :
    P (extractFinalLoop c n k) := by
  induction n generalizing k with
  | zero => exact hk
  | succ n ih =>
    unfold extractFinalLoop
    split
    · exact ih (hone _ _ hk)
    · exact hk

theorem pushBits_keeps (hbit : ∀ l k, P k → P (pushBit p c l k)) (l : Level) (n : Nat) (hk : P k) :
    P (pushBits p c l n k) := by
  induction n generalizing k with
  | zero => exact hk
  | succ n ih => exact ih (hbit l k hk)

theorem spansToBits_keeps (hbit : ∀ l k, P k → P (pushBit p c l k)) (spans : List (Nat × Level)) (hk : P k) :
    P (spansToBits p c spans k) := by
  induction spans generalizing k with
  | nil => exact hk
  | cons x spans ih => exact ih (pushBits_keeps hbit _ _ hk)

/-! ### The fields of the bit path, and what ProcessSpan and RX_FLUSH leave of the state -/

@[simp] theorem bitPath_withBitPath (k : BitPath) (s : State) : bitPath (withBitPath k s) = k := rfl
@[simp] theorem bitPath_bw (s : State) : (bitPath s).bw = s.rx.bw := rfl
@[simp] theorem bitPath_rxq (s : State) : (bitPath s).rxq = s.rxq := rfl

theorem processSpan_cfg (p : Params) (d : Nat) (l : Level) (s : State) : (processSpan p d l s).cfg = s.cfg := by
  obtain ⟨k, w, e⟩ := processSpan_shape p d l s
  rw [e]

theorem processSpan_spq (p : Params) (d : Nat) (l : Level) (s : State) : (processSpan p d l s).spq = s.spq := by
  obtain ⟨k, w, e⟩ := processSpan_shape p d l s
  rw [e]

theorem processSpan_pmod (p : Params) (d : Nat) (l : Level) (s : State) :
    (processSpan p d l s).rx.pmod = blend s.rx.pmod d := by
  obtain ⟨k, w, e⟩ := processSpan_shape p d l s
  rw [e]

theorem closeSpan_cfg (p : Params) (s : State) : (closeSpan p s).cfg = s.cfg := by
  obtain ⟨k, w, e⟩ := closeSpan_shape p s
  rw [e]

/-! ### Commands -/

theorem processSpan_keeps (hbit : ∀ l k, P k → P (pushBit p s.cfg l k)) (d : Nat) (l : Level) (hs : P (bitPath s)) :
    P (bitPath (processSpan p d l s)) := by
  unfold processSpan convertSpan
  split
  · exact pushBits_keeps hbit _ _ hs
  · exact hs

theorem rxProcess_keeps (hbit : ∀ l k, P k → P (pushBit p s.cfg l k)) (hs : P (bitPath s)) :
    P (bitPath (rxProcess p s)) := by
  unfold rxProcess
  split
  next => exact hs
  next v q _ => exact processSpan_keeps (s := { s with spq := q }) hbit _ _ hs

theorem closeSpan_keeps (hbit : ∀ l k, P k → P (pushBit p s.cfg l k)) (hs : P (bitPath s)) :
    P (bitPath (closeSpan p s)) := by
  unfold closeSpan
  split
  · exact processSpan_keeps hbit _ _ hs
  · exact hs

theorem drainSpans_keeps (hone : ∀ hi k, P k → P (extractOne s.cfg hi k)) (hbit : ∀ l k, P k → P (pushBit p s.cfg l k))
    (hs : P (bitPath s)) : P (bitPath (drainSpans p s)) := by
  unfold drainSpans
  rw [bitPath_withBitPath]
  exact extractFinalLoop_keeps hone _ (spansToBits_keeps hbit _ hs)

theorem rxFlush_keeps (hone : ∀ hi k, P k → P (extractOne s.cfg hi k)) (hbit : ∀ l k, P k → P (pushBit p s.cfg l k))
    (hs : P (bitPath s)) : P (bitPath (rxFlush p s)) := by
  have hclosed := closeSpan_keeps hbit hs
  rw [← closeSpan_cfg p s] at hone hbit
  exact drainSpans_keeps hone hbit hclosed

end Sys2Proof.StateRules
end

section
/-! SUPPORT. Every step keeps the rings' indices in range (10_state.md R28), the baud rate legal (R22), and each agent in one await at
most (00_scope.md R12). Each ring is changed by RB_INIT, pushes and pops only. -/

namespace Sys2Proof.StateRules

open Sys2Proof.Machine Sys2Proof.Claims

variable {i : Instr} {s t : State}

/-! ### TXQ -/

theorem RingOk_of_ringPop {α : Type} {q r : RingBuf α} {o : Option α} (he : ringPop q = (o, r)) (h : RingOk q) : RingOk r := by
  have hpop := RingOk_pop h
  rwa [he] at hpop

theorem pushAllTxq_keeps_txqOk (bs : List Byte) (h : RingOk s.txq) : RingOk (pushAllTxq bs s).txq := by
  induction bs generalizing s with
  | nil => exact h
  | cons b bs ih => exact ih (s := pushTxq b s) (RingOk_push h b)

theorem txIdle_keeps_txqOk (h : RingOk s.txq) : RingOk (txIdle s).txq := by
  unfold txIdle
  split
  · exact h
  · split
    next => exact h
    next he => exact RingOk_of_ringPop he h

theorem txDone_keeps_txqOk (h : RingOk s.txq) : RingOk (txDone s).txq := by
  unfold txDone
  split
  · exact h
  · split
    next => exact h
    next he => exact RingOk_of_ringPop he h

theorem txStep_keeps_txqOk (p : Params) (h : RingOk s.txq) : RingOk (txStep p s).txq := by
  unfold txStep
  split
  · exact h
  · exact txIdle_keeps_txqOk h
  · simpa [txBusy] using h
  · exact txDone_keeps_txqOk h

theorem exec_keeps_txqOk (h : RingOk s.txq) (he : exec i s = .next t) : RingOk t.txq := by
  rcases exec_txq_cases he with htxq | rfl | ⟨b, rfl⟩ | ⟨bs, rfl⟩ | rfl
  · rwa [htxq]
  · obtain ⟨-, -, rfl⟩ := execRbInitTxq_next he
    exact RingOk_init (RingOk_cap_pos h)
  · obtain ⟨-, rfl⟩ := execRbPushTxq_next he
    exact RingOk_push h b
  · obtain ⟨-, rfl⟩ := execRbPushBulkTxq_next he
    exact pushAllTxq_keeps_txqOk _ h
  · obtain ⟨-, ⟨-, rfl⟩ | ⟨-, rfl⟩⟩ := execTxStep_next he
    · exact txStep_keeps_txqOk _ h
    · exact h

/-! ### RXQ -/

theorem extractOne_keeps_rxqOk (c : Cfg) (hi : Nat) (k : BitPath) (h : RingOk k.rxq) : RingOk (extractOne c hi k).rxq := by
  unfold extractOne
  split
  · exact RingOk_push h _
  · exact h

theorem pushBit_keeps_rxqOk (p : Params) (c : Cfg) (l : Level) (k : BitPath) (h : RingOk k.rxq) :
    RingOk (pushBit p c l k).rxq :=
  extractLoop_keeps (P := fun k => RingOk k.rxq) (extractOne_keeps_rxqOk c) _ h

theorem rxProcess_keeps_rxqOk (p : Params) (h : RingOk s.rxq) : RingOk (rxProcess p s).rxq := by
  rw [← bitPath_rxq] at h ⊢
  exact rxProcess_keeps (P := fun k => RingOk k.rxq) (pushBit_keeps_rxqOk p s.cfg) h

theorem rxFlush_keeps_rxqOk (p : Params) (h : RingOk s.rxq) : RingOk (rxFlush p s).rxq := by
  rw [← bitPath_rxq] at h ⊢
  exact rxFlush_keeps (P := fun k => RingOk k.rxq) (extractOne_keeps_rxqOk s.cfg) (pushBit_keeps_rxqOk p s.cfg) h

theorem exec_keeps_rxqOk (h : RingOk s.rxq) (he : exec i s = .next t) : RingOk t.rxq := by
  rcases exec_rxq_cases he with hrxq | rfl | rfl | ⟨m, rfl⟩ | rfl | rfl
  · rwa [hrxq]
  · obtain ⟨-, -, rfl⟩ := execRbInitRxq_next he
    exact RingOk_init (RingOk_cap_pos h)
  · obtain ⟨-, rfl⟩ := execRbPopRxq_next he
    exact RingOk_pop h
  · obtain ⟨-, rfl⟩ := execRbPopBulkRxq_next he
    exact RingOk_popMany _ h
  · obtain ⟨-, ⟨-, -, rfl⟩ | rfl⟩ := execRxProcess_next he
    · exact rxProcess_keeps_rxqOk _ h
    · exact h
  · obtain ⟨-, -, ⟨-, rfl⟩ | ⟨-, rfl⟩⟩ := execRxFlush_next he
    · exact rxFlush_keeps_rxqOk _ h
    · exact h

/-! ### SPQ -/

theorem rxStart_spq (p : Params) (s : State) : (rxStart p s).spq = ringInit s.spq := rfl

theorem rxEdge_keeps_spqOk (h : RingOk s.spq) : RingOk (rxEdge s).spq := by
  rcases rxEdge_cases s with ⟨-, e⟩ | ⟨-, e⟩ <;> rw [e]
  · exact h
  · exact RingOk_push h _

theorem rxProcess_keeps_spqOk (p : Params) (h : RingOk s.spq) : RingOk (rxProcess p s).spq := by
  unfold rxProcess
  split
  next => exact h
  next he =>
    rw [processSpan_spq]
    exact RingOk_of_ringPop he h

theorem exec_keeps_spqOk (h : RingOk s.spq) (he : exec i s = .next t) : RingOk t.spq := by
  rcases exec_spq_cases he with hspq | rfl | rfl | rfl
  · rwa [hspq]
  · obtain ⟨-, -, -, rfl⟩ := execRxStart_next he
    rw [rxStart_spq]
    exact RingOk_init (RingOk_cap_pos h)
  · obtain ⟨-, ⟨-, rfl⟩ | ⟨-, rfl⟩⟩ := execRxEdge_next he
    · exact rxEdge_keeps_spqOk h
    · exact h
  · obtain ⟨-, ⟨-, -, rfl⟩ | rfl⟩ := execRxProcess_next he
    · exact rxProcess_keeps_spqOk _ h
    · exact h

/-! ### Every instruction, every step -/

theorem exec_keeps_RingsOk (h : RingsOk s) (he : exec i s = .next t) : RingsOk t := by
  obtain ⟨htxq, hrxq, hspq⟩ := h
  exact ⟨exec_keeps_txqOk htxq he, exec_keeps_rxqOk hrxq he, exec_keeps_spqOk hspq he⟩

theorem exec_keeps_CfgOk (h : CfgOk s) (he : exec i s = .next t) : CfgOk t := by
  rcases exec_cfg_cases he with hcfg | ⟨n, p, d, v, rfl⟩
  · unfold CfgOk at h ⊢
    rwa [hcfg]
  · obtain ⟨-, hstd, -, rfl⟩ := execCfgSet_next he
    exact fun _ => hstd

/-- The agent whose step it is has left its await, or was in none, so it can enter one (log 3). -/
theorem step_keeps_WaitOk (h : WaitOk s) (he : step s = .next t) : WaitOk t := by
  rcases step_inversion he with rfl | ⟨i, ts, ps, ws, a, d, hexec, -, hsub, -, hfree⟩
  · exact h
  · have hws : (ws.map (·.agent)).Nodup := h.sublist (hsub.map _)
    obtain ⟨-, -, hwait | ⟨j, hwait⟩⟩ := exec_queues _ _ _ hexec <;> rw [WaitOk, hwait]
    · exact hws
    · simpa [List.nodup_append, hws] using hfree h

/-- Settles O60: the first two do not look at the queues and every instruction keeps them; the third is about a queue. -/
theorem stepKeepsRingsConfigurationAndWaits : Obligations.StepKeepsRingsConfigurationAndWaits :=
  ⟨fun _ _ => step_keeps (fun _ _ _ _ _ _ hu => hu) (fun _ _ _ => exec_keeps_RingsOk),
   fun _ _ => step_keeps (fun _ _ _ _ _ _ hu => hu) (fun _ _ _ => exec_keeps_CfgOk),
   fun _ _ => step_keeps_WaitOk⟩

end Sys2Proof.StateRules
end

section
/-! SUPPORT. Every step keeps the receiver good (10_state.md R34 to R39). What `RxOk` asks of a running receiver is split into the period,
the span window and the BitWindow; ProcessSpan and RX_FLUSH keep each of the three, for every value of the parameters. -/

namespace Sys2Proof.StateRules

open Sys2Proof.Machine Sys2Proof.Claims

/-! ### The period and the frame lengths -/

/-- A legal baud rate is far below TIME_HZ, so the nominal period is at least 1 (R6, R7). -/
theorem pNom_pos {c : Cfg} (h : c.baud ∈ stdBauds) : 1 ≤ pNom Config.params c := by
  have hrates : ∀ n ∈ stdBauds, 0 < n ∧ n ≤ 1000000000 := by decide
  obtain ⟨hpos, hle⟩ := hrates _ h
  exact Nat.div_pos (hle.trans (Nat.le_add_right ..)) hpos

theorem blend_pos {pmod : Nat} (d : Nat) (h : 1 ≤ pmod) : 1 ≤ blend pmod d := by
  unfold blend
  split <;> omega

theorem frameBits_le (c : Cfg) : frameBits c ≤ 12 := by
  simp only [frameBits, parityBits, stopBits]
  split <;> split <;> omega

theorem scoredBits_le (c : Cfg) : scoredBits c ≤ 14 := by
  simp only [scoredBits, frameBits, parityBits, stopBits]
  split <;> split <;> omega

theorem one_lt_spanWin : 1 < Config.params.spanWin := by decide

/-! ### The BitWindow -/

/-- No consumed score is left in the window (R39, R224). -/
def NoConsumed (bw : List BitEntry) : Prop := ∀ e ∈ bw, 0 ≤ e.score

/-- The BitWindow between two bits: no consumed score, and fewer than 2B+L-1 bits (R222, R229). -/
def BitsOk (c : Cfg) (k : BitPath) : Prop :=
  NoConsumed k.bw ∧ k.bw.length ≤ 2 * frameBits c + scoredBits c - 2

theorem NoConsumed_drop {bw : List BitEntry} (n : Nat) (h : NoConsumed bw) : NoConsumed (bw.drop n) :=
  fun e he => h e (List.mem_of_mem_drop he)

theorem NoConsumed_snoc {bw : List BitEntry} (l : Level) (h : NoConsumed bw) :
    NoConsumed (bw ++ [{ lvl := l, score := 0 }]) := by
  simpa [NoConsumed, or_imp, forall_and] using h

theorem chain_nonneg (c : Cfg) (bw : List BitEntry) (q : Nat) : 0 ≤ chain c bw q := by
  unfold chain
  split
  · exact le_max_right _ _
  · exact le_rfl

/-- SCORE writes a score of at least 1 (R217, R218). -/
theorem NoConsumed_scoreNewest {bw : List BitEntry} (c : Cfg) (h : NoConsumed bw) : NoConsumed (scoreNewest c bw) := by
  unfold scoreNewest
  split
  · dsimp only
    split
    · intro e he
      rcases List.mem_or_eq_of_mem_set he with he | rfl
      · exact h e he
      · exact Int.add_nonneg Int.one_nonneg (chain_nonneg ..)
    · exact h
  · exact h

theorem NoConsumed_extractOne {c : Cfg} (hi : Nat) (k : BitPath) (h : NoConsumed k.bw) :
    NoConsumed (extractOne c hi k).bw := by
  obtain ⟨n, -, e⟩ := extractOne_bw c hi k
  rw [e]
  exact NoConsumed_drop n h

/-- With fuel for every bit, EXTRACT ends with fewer than 2B+L-1 bits (R222). -/
theorem extractLoop_length {c : Cfg} (n : Nat) (k : BitPath) (h : k.bw.length ≤ n) :
    (extractLoop c n k).bw.length ≤ 2 * frameBits c + scoredBits c - 2 := by
  induction n generalizing k with
  | zero => simp only [extractLoop]; omega
  | succ n ih =>
    unfold extractLoop
    split
    · obtain ⟨j, hj, e⟩ := extractOne_bw c (frameBits c - 1) k
      apply ih
      rw [e, List.length_drop]
      omega
    · omega

theorem BitsOk_pushBit (p : Params) {c : Cfg} (l : Level) (k : BitPath) (h : BitsOk c k) : BitsOk c (pushBit p c l k) := by
  obtain ⟨hscores, -⟩ := h
  refine ⟨extractLoop_keeps (P := fun k => NoConsumed k.bw) NoConsumed_extractOne _ ?_, extractLoop_length _ _ le_rfl⟩
  refine NoConsumed_scoreNewest c (NoConsumed_snoc l ?_)
  split
  · exact NoConsumed_drop 1 hscores
  · exact hscores

theorem BitsOk_extractOne {c : Cfg} (hi : Nat) (k : BitPath) (h : BitsOk c k) : BitsOk c (extractOne c hi k) := by
  obtain ⟨hscores, hlen⟩ := h
  refine ⟨NoConsumed_extractOne hi k hscores, ?_⟩
  obtain ⟨n, -, e⟩ := extractOne_bw c hi k
  rw [e, List.length_drop]
  omega

/-! ### The span window -/

/-- The span window between two spans: not empty, and fewer than SPAN_WIN entries (R38, R208). -/
def WindowOk (p : Params) (w : List SpanEntry) : Prop := w.length < p.spanWin ∧ w ≠ []

/-- ProcessSpan appends a span to the window, and drops the oldest when the window has become full (R204, R208, R214). -/
theorem processSpan_sw (p : Params) (d : Nat) (l : Level) (s : State) : ∃ x, (processSpan p d l s).rx.sw =
    if s.rx.sw.length + 1 = p.spanWin then (s.rx.sw ++ [x]).drop 1 else s.rx.sw ++ [x] := by
  refine ⟨{ orig := normalize (pNom p s.cfg) d (blend s.rx.pmod d), lvl := l }, ?_⟩
  unfold processSpan convertSpan
  simp only [trackSpan, List.length_append, List.length_singleton]
  split <;> rfl

theorem WindowOk_processSpan {p : Params} {s : State} (d : Nat) (l : Level) (hp : 1 < p.spanWin) (h : WindowOk p s.rx.sw) :
    WindowOk p (processSpan p d l s).rx.sw := by
  obtain ⟨hlen, -⟩ := h
  obtain ⟨x, e⟩ := processSpan_sw p d l s
  rw [e, WindowOk, ← List.length_pos_iff]
  split <;> simp only [List.length_drop, List.length_append, List.length_singleton] <;> omega

theorem WindowOk_last {p : Params} {w : List SpanEntry} (hp : 1 < p.spanWin) (h : WindowOk p w) :
    WindowOk p w.getLast?.toList := by
  obtain ⟨-, hne⟩ := h
  simp [WindowOk, List.getLast?_eq_getLast_of_ne_nil hne, hp]

/-! ### A running receiver -/

/-- What `RxOk` asks of a running receiver's period and windows. -/
def TrackingOk (p : Params) (s : State) : Prop := 1 ≤ s.rx.pmod ∧ WindowOk p s.rx.sw ∧ BitsOk s.cfg (bitPath s)

section

variable {p : Params} {s : State} (hp : 1 < p.spanWin) (h : TrackingOk p s)
include hp h

theorem TrackingOk_processSpan (d : Nat) (l : Level) : TrackingOk p (processSpan p d l s) := by
  obtain ⟨hpmod, hwin, hbits⟩ := h
  refine ⟨?_, WindowOk_processSpan d l hp hwin, ?_⟩
  · rw [processSpan_pmod]
    exact blend_pos d hpmod
  · rw [processSpan_cfg]
    exact processSpan_keeps (BitsOk_pushBit p) d l hbits

theorem TrackingOk_rxProcess : TrackingOk p (rxProcess p s) := by
  unfold rxProcess
  split
  next => exact h
  next v q _ => exact TrackingOk_processSpan (s := { s with spq := q }) hp h v.dur v.lvl

theorem TrackingOk_closeSpan : TrackingOk p (closeSpan p s) := by
  unfold closeSpan
  split
  · exact TrackingOk_processSpan hp h _ _
  · exact h

theorem TrackingOk_drainSpans : TrackingOk p (drainSpans p s) := by
  obtain ⟨hpmod, hwin, hbits⟩ := h
  have hdrained := drainSpans_keeps BitsOk_extractOne (BitsOk_pushBit p) hbits
  obtain ⟨k, e⟩ := drainSpans_shape p s
  rw [e] at hdrained ⊢
  exact ⟨hpmod, WindowOk_last hp hwin, hdrained⟩

theorem TrackingOk_rxFlush : TrackingOk p (rxFlush p s) :=
  TrackingOk_drainSpans hp (TrackingOk_closeSpan hp h)

end

/-- BITWIN_CAP is no bound of its own here: 2B+L-2 is at most 36 (R229). -/
theorem RxOk_running {s : State} (hrun : s.rx.run = true) :
    RxOk s ↔ s.rx.e ≤ s.now ∧ s.cfg.valid = true ∧ TrackingOk Config.params s := by
  have hB := frameBits_le s.cfg
  have hL := scoredBits_le s.cfg
  have hcap : Config.params.bitwinCap = 64 := rfl
  simp only [RxOk, TrackingOk, WindowOk, BitsOk, NoConsumed, hrun, hcap, bitPath_bw, true_imp_iff]
  constructor
  · rintro ⟨he, hpmod, hsw, -, hscores, hvalid, hne, hlen⟩
    exact ⟨he, hvalid, hpmod, ⟨hsw, hne⟩, hscores, hlen⟩
  · rintro ⟨he, hvalid, hpmod, ⟨hsw, hne⟩, hscores, hlen⟩
    exact ⟨he, hpmod, hsw, by omega, hscores, hvalid, hne, hlen⟩

/-! ### Every instruction, every step -/

section

variable {i : Instr} {s t : State}

theorem RxOk_rxStart (hcfg : CfgOk s) (hvalid : s.cfg.valid = true) : RxOk (rxStart Config.params s) := by
  have hbits : BitsOk s.cfg (bitPath (rxStart Config.params s)) := ⟨by simp [NoConsumed, rxStart], by simp [rxStart]⟩
  refine (RxOk_running rfl).mpr ?_
  rcases rxStart_cases Config.params s with ⟨-, e⟩ | ⟨-, e⟩ <;> rw [e] at hbits ⊢ <;>
    exact ⟨le_rfl, hvalid, pNom_pos (hcfg hvalid), ⟨one_lt_spanWin, by simp⟩, hbits⟩

theorem RxOk_rxEdge (h : RxOk s) : RxOk (rxEdge s) := by
  obtain ⟨-, hrest⟩ := id h
  rcases rxEdge_cases s with ⟨-, e⟩ | ⟨-, e⟩ <;> rw [e]
  · exact h
  · exact ⟨le_rfl, hrest⟩

theorem RxOk_rxProcess (hrun : s.rx.run = true) (h : RxOk s) : RxOk (rxProcess Config.params s) := by
  obtain ⟨he, hvalid, htrack⟩ := (RxOk_running hrun).mp h
  have htrack := TrackingOk_rxProcess one_lt_spanWin htrack
  obtain ⟨q, k, w, pm, e⟩ := rxProcess_shape Config.params s
  rw [e] at htrack ⊢
  exact (RxOk_running (by exact hrun)).mpr ⟨he, hvalid, htrack⟩

theorem RxOk_rxFlush (hrun : s.rx.run = true) (h : RxOk s) : RxOk (rxFlush Config.params s) := by
  obtain ⟨he, hvalid, htrack⟩ := (RxOk_running hrun).mp h
  have htrack := TrackingOk_rxFlush one_lt_spanWin htrack
  obtain ⟨k, w, e⟩ := rxFlush_shape Config.params s
  rw [e] at htrack ⊢
  exact (RxOk_running (by exact hrun)).mpr ⟨max_le he le_rfl, hvalid, htrack⟩

/-- Time may pass, and CFG may change while the receiver is stopped. -/
theorem RxOk_of_rx_eq (hrx : t.rx = s.rx) (hnow : s.now ≤ t.now) (hcfg : s.rx.run = true → t.cfg = s.cfg) (h : RxOk s) :
    RxOk t := by
  obtain ⟨he, hpmod, hsw, hbw, hscores, hrunning⟩ := h
  rw [RxOk, hrx]
  refine ⟨he.trans hnow, hpmod, hsw, hbw, hscores, fun hrun => ?_⟩
  rw [hcfg hrun]
  exact hrunning hrun

theorem exec_keeps_RxOk (hcfg : CfgOk s) (h : RxOk s) (he : exec i s = .next t) : RxOk t := by
  rcases exec_rx_cases he with hrx | rfl | rfl | rfl | rfl | rfl
  · refine RxOk_of_rx_eq hrx (exec_now_le he) (fun hrun => ?_) h
    rcases exec_cfg_cases he with hsame | ⟨n, p, d, v, rfl⟩
    · exact hsame
    · obtain ⟨-, -, hidle, -⟩ := execCfgSet_next he
      simp [channelBusy, hrun] at hidle
  · obtain ⟨-, hvalid, -, rfl⟩ := execRxStart_next he
    exact RxOk_rxStart hcfg hvalid
  · obtain ⟨-, ⟨-, rfl⟩ | ⟨-, rfl⟩⟩ := execRxEdge_next he
    · exact RxOk_rxEdge h
    · exact h
  · obtain ⟨-, ⟨hrun, -, rfl⟩ | rfl⟩ := execRxProcess_next he
    · exact RxOk_rxProcess hrun h
    · exact h
  · obtain ⟨-, hrun, ⟨-, rfl⟩ | ⟨-, rfl⟩⟩ := execRxFlush_next he
    · exact RxOk_rxFlush hrun h
    · exact h
  · obtain ⟨-, rfl⟩ := execRxStop_next he
    obtain ⟨hle, hpmod, hsw, hbw, hscores, -⟩ := h
    exact ⟨hle, hpmod, hsw, hbw, hscores, by simp⟩

end

/-- Settles O45: RX_START needs the legal baud rate for its period, so `CfgOk` is carried along. -/
theorem stepKeepsReceiverOk : Obligations.StepKeepsReceiverOk := by
  intro s s' hcfg hrx h
  have hboth : CfgOk s' ∧ RxOk s' := step_keeps (P := fun u => CfgOk u ∧ RxOk u) (fun _ _ _ _ _ _ hu => hu)
    (fun _ _ _ ⟨hc, hr⟩ he => ⟨exec_keeps_CfgOk hc he, exec_keeps_RxOk hc hr he⟩) ⟨hcfg, hrx⟩ h
  exact hboth.2

end Sys2Proof.StateRules
end

section
/-! SUPPORT. Every step keeps every decoder good (10_state.md R43, R45): one lemma for each mode AKP_FEED finds the decoder in
(44_akp_decoder.md R261 to R271), for every value of the parameters. -/

namespace Sys2Proof.StateRules

open Sys2Proof.Machine Sys2Proof.Claims

variable {p : Params} {T : TagParse} {c : Byte}

/-! ### A length digit moves the digit count and one length only (R268) -/

@[simp] theorem takeDigit_mode (T : TagParse) (v : BitVec 4) : (takeDigit T v).mode = T.mode := by
  unfold takeDigit; split <;> rfl
@[simp] theorem takeDigit_tag (T : TagParse) (v : BitVec 4) : (takeDigit T v).tag = T.tag := by
  unfold takeDigit; split <;> rfl
@[simp] theorem takeDigit_data (T : TagParse) (v : BitVec 4) : (takeDigit T v).data = T.data := by
  unfold takeDigit; split <;> rfl
@[simp] theorem takeDigit_colon (T : TagParse) (v : BitVec 4) : (takeDigit T v).colon = T.colon := by
  unfold takeDigit; split <;> rfl
@[simp] theorem takeDigit_k (T : TagParse) (v : BitVec 4) : (takeDigit T v).k = T.k + 1 := by
  unfold takeDigit; split <;> rfl

/-! ### The decoder's byte steps -/

theorem TagOk_fresh (p : Params) : TagOk p akpFresh := by
  simp [TagOk, akpFresh, akpClear]

theorem TagOk_clear (p : Params) (T : TagParse) : TagOk p (akpClear T) := by
  simp [TagOk, akpFresh, akpClear]

/-- `TagOk` does not look at the lookback. -/
theorem TagOk_lookback (a b : Byte) (h : TagOk p T) : TagOk p { T with lb1 := a, lb0 := b } := by
  obtain ⟨hcolon, hbetween, hrest⟩ := h
  refine ⟨hcolon, fun hm => ?_, hrest⟩
  rw [hbetween hm]
  rfl

theorem TagOk_beginTag (h : tagStarts T c = true) : TagOk p (beginTag T) := by
  simp only [tagStarts, Bool.and_eq_true] at h
  obtain ⟨⟨-, hfirst⟩, hsecond⟩ := h
  by_cases hdd : (T.lb1, T.lb0) = ddTag
  · simp [TagOk, beginTag, hdd, akpClear, akpFresh]
  · simp [TagOk, beginTag, hdd, akpClear, akpFresh, hfirst, hsecond]

theorem TagOk_feedData (h : TagOk p T) (hm : T.mode = .data) : TagOk p (feedData p T c) := by
  obtain ⟨hcolon, -, hrecord, -⟩ := id h
  obtain ⟨hfirst, hsecond, hnotDd, hcap⟩ := hrecord (.inl hm)
  unfold feedData
  split
  · simp [TagOk, hfirst, hsecond, hnotDd, hcap]
  · split
    next hroom => simp [TagOk, hm, hcolon, hfirst, hsecond, hnotDd, Nat.succ_le_of_lt hroom]
    next =>
      unfold dataOverflow
      split
      · exact TagOk_clear p T
      · exact h

theorem TagOk_feedCs1 (h : TagOk p T) (hm : T.mode = .cs1) : TagOk p (feedCs1 T c) := by
  obtain ⟨hcolon, -, hrecord, -⟩ := h
  unfold feedCs1
  split
  · simpa [TagOk, hcolon, hm] using hrecord
  · exact TagOk_clear p T

/-- CS2 clears in every case (R267). -/
theorem TagOk_feedCs2 : TagOk p (feedCs2 p T c).1 := by
  unfold feedCs2
  split
  · split <;> exact TagOk_clear p T
  · exact TagOk_clear p T

theorem TagOk_ddCheck (hcolon : T.colon = false) (hdata : T.data = []) : TagOk p (ddCheck p T).1 := by
  unfold ddCheck
  split
  next => exact TagOk_clear p T
  next hlen =>
    split
    next => exact TagOk_clear p T
    next hpos =>
      simp only [ne_eq, not_or, not_not, not_lt] at hlen
      obtain ⟨heq, hcap⟩ := hlen
      simp [TagOk, hcolon, hdata, ← heq, hcap, Nat.pos_of_ne_zero hpos]

theorem TagOk_ddDigit (h : TagOk p T) (hm : T.mode = .ddlen) : TagOk p (ddDigit p T c).1 := by
  obtain ⟨hcolon, -, -, hdd, -⟩ := h
  obtain ⟨htag, hdata, hk⟩ := hdd hm
  have hcolon : T.colon = false := by simpa [hm] using hcolon
  unfold ddDigit
  split
  · exact TagOk_clear p T
  · split
    next => exact TagOk_ddCheck (by simpa using hcolon) (by simpa using hdata)
    next hlast =>
      have hk : T.k + 1 < 8 := by omega
      simp [TagOk, hm, hcolon, hdata, htag, hk]

theorem TagOk_feedPayload (h : TagOk p T) (hm : T.mode = .ddpay) : TagOk p (feedPayload T c).1 := by
  obtain ⟨hcolon, -, -, -, hpayload⟩ := h
  obtain ⟨hlen, hcap, hcnt, hlt⟩ := hpayload hm
  unfold feedPayload
  dsimp only
  split
  next => exact TagOk_clear p T
  next hlast =>
    have hlt : T.cnt + 1 < T.len1.toNat := by omega
    simp [TagOk, hcolon, hm, ← hlen, hcap, ← hcnt, hlt]

theorem TagOk_feedByMode (h : TagOk p T) : TagOk p (feedByMode p T c).1 := by
  unfold feedByMode
  split
  next => exact h
  next hm => exact TagOk_feedData h hm
  next hm => exact TagOk_feedCs1 h hm
  next => exact TagOk_feedCs2
  next hm => exact TagOk_ddDigit h hm
  next hm => exact TagOk_feedPayload h hm

theorem TagOk_akpFeed (h : TagOk p T) : TagOk p (akpFeed p T c).1 := by
  refine TagOk_lookback _ _ ?_
  unfold feedCore
  split
  next hstart => exact TagOk_beginTag hstart
  next => exact TagOk_feedByMode h

/-! ### Every instruction, every step -/

section

variable {i : Instr} {s t : State}

theorem AkpOk_akpPut (n : Nat) (hT : TagOk Config.params T) (ht : t.akp = akpPut s.akp n T) (h : AkpOk s) : AkpOk t := by
  obtain ⟨hrising, hall⟩ := h
  rw [AkpOk, ht]
  refine ⟨akpPut_rising n T hrising, fun x hx => ?_⟩
  rcases akpPut_mem hx with rfl | hx
  · exact hT
  · exact hall x hx

theorem exec_keeps_AkpOk (h : AkpOk s) (he : exec i s = .next t) : AkpOk t := by
  rcases exec_akp_cases he with hakp | ⟨n, rfl⟩ | ⟨n, c, rfl⟩
  · unfold AkpOk at h ⊢
    rwa [hakp]
  · obtain ⟨-, rfl⟩ := execAkpInit_next he
    exact AkpOk_akpPut n (TagOk_fresh _) rfl h
  · obtain ⟨-, T, hget, rfl⟩ := execAkpFeed_next he
    obtain ⟨-, hall⟩ := id h
    exact AkpOk_akpPut n (TagOk_akpFeed (hall _ (akpGet?_mem hget))) rfl h

end

/-- Settles O54: no queue is looked at, and every instruction keeps it. -/
theorem stepKeepsDecodersOk : Obligations.StepKeepsDecodersOk := by
  intro s s' hs h
  exact step_keeps (fun _ _ _ _ _ _ hu => hu) (fun _ _ _ => exec_keeps_AkpOk) hs h

end Sys2Proof.StateRules
end

section
/-! SUPPORT. The DD tag up to DdCheck (44_akp_decoder.md R263, R268, R269): "DD^" and eight digits lead, from every state outside a
payload, to DdCheck on the two lengths the digits spell. -/

namespace Sys2Proof.StateRules

open Sys2Proof.Machine Sys2Proof.Claims

variable {p : Params} {T : TagParse} {c : Byte}

/-! ### Digits -/

/-- The values of the four digits of a length, most significant first (R62, R95). -/
def digits4 (n : Nat) : List Nat := [n / 4096 % 16, n / 256 % 16, n / 16 % 16, n % 16]

theorem hex4_eq (n : Nat) : hex4 n = (digits4 n).map hexByte := rfl

theorem digits4_lt (n : Nat) : ∀ v ∈ digits4 n, v < 16 := by
  simp only [digits4, List.mem_cons, List.not_mem_nil, or_false]
  omega

theorem hexVal?_hexByte : ∀ v < 16, hexVal? (hexByte v) = some (BitVec.ofNat 4 v) := by decide

/-- Length digits taken in turn, whatever the lookback. -/
def takeDigits (T : TagParse) (vs : List Nat) : TagParse := vs.foldl (fun u v => takeDigit u (BitVec.ofNat 4 v)) T

theorem takeDigits_snoc (T : TagParse) (vs : List Nat) (v : Nat) :
    takeDigits T (vs ++ [v]) = takeDigit (takeDigits T vs) (BitVec.ofNat 4 v) := by
  simp [takeDigits]

theorem takeDigits_mode (T : TagParse) (vs : List Nat) : (takeDigits T vs).mode = T.mode := by
  induction vs generalizing T with
  | nil => rfl
  | cons v vs ih => exact (ih _).trans (takeDigit_mode _ _)

theorem takeDigits_k (T : TagParse) (vs : List Nat) : (takeDigits T vs).k = T.k + vs.length := by
  induction vs generalizing T with
  | nil => rfl
  | cons v vs ih => exact (ih _).trans (by rw [takeDigit_k, List.length_cons]; omega)

/-- Eight digits spell two lengths below 2^16 (R268). -/
theorem takeDigits_lengths (hk : T.k = 0) (hlen1 : T.len1 = 0#16) (hlen2 : T.len2 = 0#16) {n m : Nat} (hn : n ≤ 65535)
    (hm : m ≤ 65535) :
    (takeDigits T (digits4 n ++ digits4 m)).len1.toNat = n ∧ (takeDigits T (digits4 n ++ digits4 m)).len2.toNat = m := by
  simp [takeDigits, digits4, takeDigit, hk, hlen1, hlen2]
  omega

/-! ### The lookback is no matter to the digits -/

theorem takeDigit_lookback (T : TagParse) (v : BitVec 4) (a b : Byte) :
    takeDigit { T with lb1 := a, lb0 := b } v = { takeDigit T v with lb1 := a, lb0 := b } := by
  unfold takeDigit
  dsimp only
  split <;> rfl

theorem takeDigits_lookback (T : TagParse) (vs : List Nat) (a b : Byte) :
    takeDigits { T with lb1 := a, lb0 := b } vs = { takeDigits T vs with lb1 := a, lb0 := b } := by
  induction vs generalizing T with
  | nil => rfl
  | cons v vs ih =>
    simp only [takeDigits, List.foldl_cons, takeDigit_lookback]
    exact ih _

theorem ddCheck_lookback (p : Params) (T : TagParse) (a b : Byte) :
    ddCheck p { T with lb1 := a, lb0 := b } = ({ (ddCheck p T).1 with lb1 := a, lb0 := b }, (ddCheck p T).2) := by
  unfold ddCheck
  dsimp only
  split
  · rfl
  · split <;> rfl

/-! ### Feeding the digits -/

theorem tagStarts_of_ne_caret (h : c ≠ caret) : tagStarts T c = false := by simp [tagStarts, h]

theorem akpFeed_ddlen (hm : T.mode = .ddlen) (hstart : tagStarts T c = false) :
    akpFeed p T c = ({ (ddDigit p T c).1 with lb1 := T.lb0, lb0 := c }, (ddDigit p T c).2) := by
  simp [akpFeed, feedCore, hstart, feedByMode, hm]

theorem ddDigit_nonHex (h : hexVal? c = none) : ddDigit p T c = (akpClear T, none) := by
  simp only [ddDigit, h]

/-- A length digit: DdCheck decides at the eighth (R268). -/
theorem akpFeed_hexByte (hm : T.mode = .ddlen) {v : Nat} (hv : v < 16) :
    akpFeed p T (hexByte v) =
      if T.k + 1 = 8 then
        ({ (ddCheck p (takeDigit T (BitVec.ofNat 4 v))).1 with lb1 := T.lb0, lb0 := hexByte v },
          (ddCheck p (takeDigit T (BitVec.ofNat 4 v))).2)
      else ({ takeDigit T (BitVec.ofNat 4 v) with lb1 := T.lb0, lb0 := hexByte v }, none) := by
  have hval := hexVal?_hexByte v hv
  have hne : hexByte v ≠ caret := hex_facts _ (by simp [hval])
  rw [akpFeed_ddlen hm (tagStarts_of_ne_caret hne)]
  simp only [ddDigit, hval]
  split <;> rfl

/-- Digits before the eighth are only taken. -/
theorem akpFeedAll_digits {vs : List Nat} (hm : T.mode = .ddlen) (hvs : ∀ v ∈ vs, v < 16) (hk : T.k + vs.length < 8) :
    ∃ a b, akpFeedAll p T (vs.map hexByte) =
      ({ takeDigits T vs with lb1 := a, lb0 := b }, List.replicate vs.length none) := by
  induction vs generalizing T with
  | nil => exact ⟨T.lb1, T.lb0, rfl⟩
  | cons v vs ih =>
    rw [List.length_cons] at hk
    obtain ⟨a, b, e⟩ := ih (T := { takeDigit T (BitVec.ofNat 4 v) with lb1 := T.lb0, lb0 := hexByte v })
      (by simpa using hm) (fun w hw => hvs w (by simp [hw])) (by simp; omega)
    refine ⟨a, b, ?_⟩
    rw [List.map_cons, akpFeedAll, akpFeed_hexByte hm (hvs v (by simp)), if_neg (by omega), e, takeDigits_lookback]
    rfl

/-- Eight digits from the first on: DdCheck decides at the last, on the lengths they spell. -/
theorem akpFeedAll_eightDigits {vs : List Nat} (hm : T.mode = .ddlen) (hk : T.k = 0) (hlen : vs.length = 8)
    (hvs : ∀ w ∈ vs, w < 16) : ∃ a b, akpFeedAll p T (vs.map hexByte) =
      ({ (ddCheck p (takeDigits T vs)).1 with lb1 := a, lb0 := b },
        List.replicate 7 none ++ [(ddCheck p (takeDigits T vs)).2]) := by
  rcases List.eq_nil_or_concat vs with rfl | ⟨init, v, rfl⟩
  · simp at hlen
  have hinit : init.length = 7 := by simpa using hlen
  obtain ⟨a, b, e⟩ := akpFeedAll_digits (p := p) hm (fun w hw => hvs w (by simp [hw])) (show T.k + init.length < 8 by omega)
  refine ⟨b, hexByte v, ?_⟩
  rw [List.concat_eq_append, List.map_append, akpFeedAll_append, e, takeDigits_snoc, hinit]
  simp only [List.map_singleton, akpFeedAll]
  rw [akpFeed_hexByte (by simpa [takeDigits_mode] using hm) (hvs v (by simp)), if_pos (by simp [takeDigits_k, hk, hinit]),
    takeDigit_lookback, ddCheck_lookback]

/-! ### From "DD^" on -/

/-- The decoder after "DD^" (R263): at the first length digit. -/
def ddStart : TagParse := { akpFresh with tag := ddTag, mode := .ddlen, lb1 := 0x44#8, lb0 := caret }

theorem akpFeedAll_ddStart (p : Params) (hm : T.mode ≠ .ddpay) :
    akpFeedAll p T [0x44#8, 0x44#8, 0x5E#8] = (ddStart, List.replicate 3 none) := by
  have hD : isUpper 0x44#8 = true := by decide
  obtain ⟨hfirst, hm1⟩ := akpFeed_upper p T 0x44#8 hm hD
  obtain ⟨hsecond, hm2⟩ := akpFeed_upper p _ 0x44#8 hm1 hD
  have hcaret := akpFeed_caret p _ hm2 hD hD
  rw [caret] at hcaret
  simp only [akpFeedAll, hfirst, hsecond, hcaret]
  rfl

/-- "DD^" and two lengths: DdCheck decides at the last byte, on the two lengths (R268, R269). -/
theorem akpFeedAll_ddLengths (p : Params) (hm : T.mode ≠ .ddpay) (n m : Nat) :
    ∃ a b, akpFeedAll p T ([0x44#8, 0x44#8, 0x5E#8] ++ hex4 n ++ hex4 m) =
      ({ (ddCheck p (takeDigits ddStart (digits4 n ++ digits4 m))).1 with lb1 := a, lb0 := b },
        List.replicate 10 none ++ [(ddCheck p (takeDigits ddStart (digits4 n ++ digits4 m))).2]) := by
  have hdigits : ∀ v ∈ digits4 n ++ digits4 m, v < 16 := by
    simpa [or_imp, forall_and] using ⟨digits4_lt n, digits4_lt m⟩
  obtain ⟨a, b, e⟩ := akpFeedAll_eightDigits (p := p) (T := ddStart) rfl rfl rfl hdigits
  refine ⟨a, b, ?_⟩
  rw [List.append_assoc, hex4_eq, hex4_eq, ← List.map_append, akpFeedAll_append, akpFeedAll_ddStart p hm]
  simp only [e]
  rw [← List.append_assoc, List.replicate_append_replicate]

theorem ddCheck_abort (h : T.len1.toNat ≠ T.len2.toNat ∨ p.ddCap < T.len1.toNat) : ddCheck p T = (akpClear T, none) := by
  have hlen : T.len1 ≠ T.len2 ∨ p.ddCap < T.len1.toNat := h.imp_left (mt (congrArg BitVec.toNat))
  simp only [ddCheck, if_pos hlen]

/-- Settles O52: the digits spell the two lengths, and DdCheck aborts on them; a byte that is no digit clears. -/
theorem ddLengthMismatchAborts : Obligations.DdLengthMismatchAborts := by
  refine ⟨fun p T n m hmode hn hm hbad => ?_, fun p T c hmode hstart hc => ?_, fun T => ?_⟩
  · obtain ⟨hlen1, hlen2⟩ := takeDigits_lengths (T := ddStart) rfl rfl rfl hn hm
    obtain ⟨a, b, e⟩ := akpFeedAll_ddLengths p hmode n m
    rw [e, ddCheck_abort (by rwa [hlen1, hlen2])]
    exact ⟨rfl, rfl⟩
  · rw [akpFeed_ddlen hmode hstart, ddDigit_nonHex hc]
  · simp [akpClear, akpFresh]

end Sys2Proof.StateRules
end

section
/-! SUPPORT. The operation map as a bijection (30_encoding.md R80 to R85): decoding inverts encoding, unit by unit; what the encoder gives
then says of every other command that it is refused, and under which name. -/

namespace Sys2Proof.Encoding

open Sys2Proof.Machine Sys2Proof.Claims

variable {code : Byte} {ops : List Operand} {i : Instr} {s t : State}

/-! ### A unit's decoder answers only what is encoded so -/

section

variable {c : Byte} {f : Nat}

theorem encode_of_decodeTxq (h : decodeTxq c f ops = .ok i) : encode i = (BitVec.ofNat 8 f, ops) := by
  unfold decodeTxq at h; split at h <;> cases h <;> rfl

theorem encode_of_decodeRxq (h : decodeRxq c f ops = .ok i) : encode i = (BitVec.ofNat 8 (8 + f), ops) := by
  unfold decodeRxq at h; split at h <;> cases h <;> rfl

theorem encode_of_decodeCrc (h : decodeCrc c f ops = .ok i) : encode i = (BitVec.ofNat 8 (16 * 1 + f), ops) := by
  unfold decodeCrc at h; split at h <;> cases h <;> rfl

theorem encode_of_decodeBt (h : decodeBt c f ops = .ok i) : encode i = (BitVec.ofNat 8 (16 * 2 + f), ops) := by
  unfold decodeBt at h; split at h <;> cases h <;> rfl

theorem encode_of_decodeTx (h : decodeTx c f ops = .ok i) : encode i = (BitVec.ofNat 8 (16 * 3 + f), ops) := by
  unfold decodeTx at h; split at h <;> cases h <;> rfl

theorem encode_of_decodeRx (h : decodeRx c f ops = .ok i) : encode i = (BitVec.ofNat 8 (16 * 4 + f), ops) := by
  unfold decodeRx at h; split at h <;> cases h <;> rfl

theorem encode_of_decodeAkp (h : decodeAkp c f ops = .ok i) : encode i = (BitVec.ofNat 8 (16 * 5 + f), ops) := by
  unfold decodeAkp at h; split at h <;> cases h <;> rfl

theorem encode_of_decodeCfg (h : decodeCfg c f ops = .ok i) : encode i = (BitVec.ofNat 8 (16 * 6 + f), ops) := by
  unfold decodeCfg at h; split at h <;> cases h; rfl

theorem encode_of_decodeEnv (h : decodeEnv c f ops = .ok i) : encode i = (BitVec.ofNat 8 (16 * 7 + f), ops) := by
  unfold decodeEnv at h; split at h <;> cases h <;> rfl

end

/-! ### The fields of a code make it up (R80) -/

theorem ofNat_unitField_funcField (code : Byte) : BitVec.ofNat 8 (16 * unitField code + funcField code) = code := by
  rw [unitField, funcField, Nat.div_add_mod, BitVec.ofNat_toNat, BitVec.setWidth_eq]

theorem ofNat_fField_of_rxq (hunit : unitField code = 0) (hq : qField code = true) :
    BitVec.ofNat 8 (8 + fField code) = code := by
  have hfields : 8 + fField code = 16 * unitField code + funcField code := by
    simp only [unitField, qField, decide_eq_true_eq, funcField, fField] at *
    omega
  rw [hfields, ofNat_unitField_funcField]

theorem ofNat_fField_of_txq (hunit : unitField code = 0) (hq : qField code ≠ true) :
    BitVec.ofNat 8 (fField code) = code := by
  have hfields : fField code = 16 * unitField code + funcField code := by
    simp only [unitField, qField, ne_eq, decide_eq_true_eq, funcField, fField] at *
    omega
  rw [hfields, ofNat_unitField_funcField]

/-! ### Decoding and encoding are inverse -/

theorem decode_encode (i : Instr) : decode (encode i).1 (encode i).2 = .ok i := by
  cases i <;>
    simp [encode, decode, unitField, funcField, qField, fField, decodeTxq, decodeRxq, decodeCrc, decodeBt, decodeTx, decodeRx,
      decodeAkp, decodeCfg, decodeEnv]

theorem encode_of_decode (h : decode code ops = .ok i) : encode i = (code, ops) := by
  have hcode := ofNat_unitField_funcField code
  unfold decode at h
  split at h
  next hunit =>
    split at h
    next hq => rw [encode_of_decodeRxq h, ofNat_fField_of_rxq hunit hq]
    next hq => rw [encode_of_decodeTxq h, ofNat_fField_of_txq hunit hq]
  next hunit => rw [encode_of_decodeCrc h, ← hunit, hcode]
  next hunit => rw [encode_of_decodeBt h, ← hunit, hcode]
  next hunit => rw [encode_of_decodeTx h, ← hunit, hcode]
  next hunit => rw [encode_of_decodeRx h, ← hunit, hcode]
  next hunit => rw [encode_of_decodeAkp h, ← hunit, hcode]
  next hunit => rw [encode_of_decodeCfg h, ← hunit, hcode]
  next hunit => rw [encode_of_decodeEnv h, ← hunit, hcode]
  next => cases h

/-- Settles O1: the two directions are `encode_of_decode` and `decode_encode`. -/
theorem decodeAcceptsExactlyEncodings : Obligations.DecodeAcceptsExactlyEncodings := by
  intro code ops i
  refine ⟨encode_of_decode, fun h => ?_⟩
  have hdecode := decode_encode i
  rwa [h] at hdecode

/-- Settles O2: each word is the encoding of its instruction. -/
theorem specCommandsDecode : Obligations.SpecCommandsDecode :=
  ⟨decode_encode (.cfgSet 9600 false false false), decode_encode (.rbPushTxq 0x41#8), decode_encode (.rbPopBulkRxq 8),
    decode_encode (.crc8 [0x4C#8, 0x41#8] 0x00#8), decode_encode .btWait, decode_encode .txStep, decode_encode .rxFlush,
    decode_encode (.akpFeed 0 0x4C#8), decode_encode (.envTick 100)⟩

/-! ### The commands that are no encoding (R85) -/

/-- Every instruction's code fixes its operand tuple, and is no refused role's (R80, R84). -/
theorem shape_encode : ∀ i, Laws.Shape.Statement i
  | .rbInitTxq => Laws.Shape.rbInitTxq
  | .rbPushTxq b => Laws.Shape.rbPushTxq b
  | .rbPushBulkTxq bs => Laws.Shape.rbPushBulkTxq bs
  | .rbAvailableTxq => Laws.Shape.rbAvailableTxq
  | .rbInitRxq => Laws.Shape.rbInitRxq
  | .rbPopRxq => Laws.Shape.rbPopRxq
  | .rbPopBulkRxq m => Laws.Shape.rbPopBulkRxq m
  | .rbAvailableRxq => Laws.Shape.rbAvailableRxq
  | .crc8Step c b => Laws.Shape.crc8Step c b
  | .crc8 bs seed => Laws.Shape.crc8 bs seed
  | .btSync => Laws.Shape.btSync
  | .btAdvance d => Laws.Shape.btAdvance d
  | .btWait => Laws.Shape.btWait
  | .txStart => Laws.Shape.txStart
  | .txStep => Laws.Shape.txStep
  | .txStop => Laws.Shape.txStop
  | .rxStart => Laws.Shape.rxStart
  | .rxEdge => Laws.Shape.rxEdge
  | .rxProcess => Laws.Shape.rxProcess
  | .rxFlush => Laws.Shape.rxFlush
  | .rxStop => Laws.Shape.rxStop
  | .akpInit n => Laws.Shape.akpInit n
  | .akpFeed n c => Laws.Shape.akpFeed n c
  | .cfgSet n p d v => Laws.Shape.cfgSet n p d v
  | .envTick n => Laws.Shape.envTick n
  | .envRxpin v => Laws.Shape.envRxpin v

theorem operandTypes_of_decode (h : decode code ops = .ok i) : operandTypes code = some (ops.map operandType) := by
  obtain ⟨hshape, -⟩ := shape_encode i
  rwa [encode_of_decode h] at hshape

/-- A command whose operands are not those its code takes is refused under the code's name. -/
theorem decode_eq_refusalOf (h : operandTypes code ≠ some (ops.map operandType)) :
    decode code ops = .error (refusalOf code) := by
  rcases decode_cases with ⟨i, hok⟩ | hrefused
  · exact absurd (operandTypes_of_decode hok) h
  · exact hrefused

theorem operandTypes_isSome_iff : ∀ code, (operandTypes code).isSome = true ↔ code ∈ listedCodes := by
  decide +kernel

theorem operandTypes_of_roleRefused : ∀ code ∈ roleRefusedCodes, operandTypes code = none := by
  decide

/-! ### The name of the refusal of a code (R85; log 14) -/

theorem refusalOf_role (h : code ∈ roleRefusedCodes) : refusalOf code = .roleRefused code := if_pos h

theorem refusalOf_unlisted (hrole : code ∉ roleRefusedCodes) (h : operandTypes code = none) :
    refusalOf code = .unlistedCode code := by
  simp [refusalOf, hrole, h]

theorem refusalOf_listed {tys : List OperandType} (h : operandTypes code = some tys) : refusalOf code = .badOperands code := by
  have hrole : code ∉ roleRefusedCodes := fun hmem => by simp [operandTypes_of_roleRefused code hmem] at h
  simp [refusalOf, hrole, h]

/-! ### Refused steps -/

/-- At the turn of its agent a command the decoder refuses is refused by that name (R85). -/
theorem step_of_decode_error {ts : List Agent} {c : Issue} {rest : List Issue} {r : DecodeRefusal} (htakes : takesNext s c rest)
    (hdecode : decode c.code c.operands = .error r) : step { s with turns := c.agent :: ts } = .refused (.noCommand r) := by
  simp only [step, Scope.select_of_takesNext ts htakes, hdecode]

theorem byTimerAgent_other {k : Out} (h : ¬(s.issuer = .txa ∨ (s.issuer = .host ∧ s.tx.run = false))) :
    byTimerAgent s k = .refused (.wrongAgent s.issuer) :=
  if_neg (mt bitTimerAllowed_iff.mp h)

/-- Each row looks at the issuer before all else, so an agent the row does not name is refused as such (R84, R85). -/
theorem exec_of_not_mayIssue (h : ¬ mayIssue s i) : exec i s = .refused (.wrongAgent s.issuer) := by
  cases i
  case crc8Step | crc8 => exact absurd trivial h
  case btSync | btAdvance | btWait => exact byTimerAgent_other h
  all_goals exact byAgent_other h

/-- Settles O3: a command that is no encoding has operands other than its code takes, or a code that takes none. -/
theorem commandsOutsideTheMapAreRefused : Obligations.CommandsOutsideTheMapAreRefused := by
  refine ⟨operandTypes_isSome_iff, fun code ops hrole => ?_, fun code ops hunlisted hrole => ?_,
    fun code ops tys htypes hshape => ?_, fun s ts c rest r => step_of_decode_error, fun i s => exec_of_not_mayIssue⟩
  · have hnone := operandTypes_of_roleRefused code hrole
    rw [decode_eq_refusalOf (by simp [hnone]), refusalOf_role hrole]
  · have hnone : operandTypes code = none := by simpa using mt (operandTypes_isSome_iff code).mp hunlisted
    rw [decode_eq_refusalOf (by simp [hnone]), refusalOf_unlisted hrole hnone]
  · rw [decode_eq_refusalOf (by simpa [htypes] using hshape.symm), refusalOf_listed htypes]

end Sys2Proof.Encoding
end

section
/-! SUPPORT. Admitted commands (30_encoding.md R84; R322, R323, R363): each completes, by its next state or by the wait of its rule; a fault
is RB_INIT's alone. -/

namespace Sys2Proof.Encoding

open Sys2Proof.Machine Sys2Proof.Claims

variable {i : Instr} {s : State}

/-- A command completes whether its await holds or not (R12, R328; log 3). -/
theorem ite_next (b : Bool) (t u : State) : ∃ v, (if b then (.next t : Out) else .next u) = .next v := by
  cases b
  · exact ⟨u, rfl⟩
  · exact ⟨t, rfl⟩

theorem exists_byAgent_next {a : Agent} {k : Out} (ha : s.issuer = a) (hk : ∃ t, k = .next t) :
    ∃ t, byAgent a s k = .next t := by
  rwa [byAgent_self ha]

theorem exists_byTimerAgent_next {k : Out} (ha : s.issuer = .txa ∨ (s.issuer = .host ∧ s.tx.run = false))
    (hk : ∃ t, k = .next t) : ∃ t, byTimerAgent s k = .next t := by
  rwa [byTimerAgent, if_pos (bitTimerAllowed_iff.mpr ha)]

/-- A command of the right agent, with none of its rule's grounds of refusal, completes. -/
theorem exists_exec_next (hissue : mayIssue s i) (hadm : admitted s i) : ∃ t, exec i s = .next t := by
  cases i
  case crc8Step | crc8 => exact ⟨_, rfl⟩
  case btSync | btAdvance => exact exists_byTimerAgent_next hissue ⟨_, rfl⟩
  case btWait => exact exists_byTimerAgent_next hissue (ite_next ..)
  case txStep | rxEdge | rxProcess => exact exists_byAgent_next hissue (ite_next ..)
  case rbInitTxq => exact exists_byAgent_next hissue ⟨_, if_neg (not_not.mpr hadm)⟩
  case rbInitRxq =>
    have hrun : s.rx.run = false := hadm
    exact exists_byAgent_next hissue (by simp [hrun])
  case txStart =>
    obtain ⟨hvalid, hrun, hphase⟩ := hadm
    exact exists_byAgent_next hissue (by simp [hvalid, hrun, hphase])
  case rxStart =>
    obtain ⟨hvalid, hrun⟩ := hadm
    exact exists_byAgent_next hissue (by simp [hvalid, hrun])
  case rxFlush =>
    have hrun : s.rx.run = true := hadm
    exact exists_byAgent_next hissue (by simpa [hrun] using ite_next ..)
  case akpFeed t c =>
    obtain ⟨T, hT⟩ := Option.ne_none_iff_exists'.mp hadm
    exact exists_byAgent_next hissue (by simp [hT])
  case cfgSet n p d v =>
    obtain ⟨hbaud, htx, hphase, hrx⟩ := hadm
    exact exists_byAgent_next hissue (by simp [hbaud, channelBusy, htx, hphase, hrx])
  case envTick n =>
    have hpos : n ≠ 0 := Nat.one_le_iff_ne_zero.mp hadm
    exact exists_byAgent_next hissue ⟨_, if_neg hpos⟩
  all_goals exact exists_byAgent_next hissue ⟨_, rfl⟩

/-- A command that faults is issued by the right agent, in a state the rules leave out. -/
theorem mayIssue_of_fault {f : Fault} (h : exec i s = .fault f) : mayIssue s i ∧ ¬ admitted s i := by
  have hissue : mayIssue s i := by
    by_contra hwrong
    simp [exec_of_not_mayIssue hwrong] at h
  refine ⟨hissue, fun hadm => ?_⟩
  obtain ⟨t, ht⟩ := exists_exec_next hissue hadm
  simp [ht] at h

/-- Settles O8: of the commands the rules leave out, all but RB_INIT are refused. -/
theorem admittedCommandsComplete : Obligations.AdmittedCommandsComplete := by
  refine ⟨fun i s => exists_exec_next, fun i s f h => ?_⟩
  obtain ⟨hissue, hnot⟩ := mayIssue_of_fault h
  cases i
  case rbInitTxq => exact ⟨hissue, .inl ⟨rfl, hnot⟩⟩
  case rbInitRxq => exact ⟨hissue, .inr ⟨rfl, eq_true_of_ne_false hnot⟩⟩
  case txStart | rxStart | rxFlush | cfgSet | envTick =>
    obtain ⟨-, hk⟩ := byAgent_fault.mp h
    split_ifs at hk
  case akpFeed =>
    obtain ⟨-, hk⟩ := byAgent_fault.mp h
    split at hk <;> cases hk
  all_goals exact absurd trivial hnot

end Sys2Proof.Encoding
end

section
/-! SUPPORT. The frame on the wire (30_encoding.md R86, R89): the layout FrameLevels gives a byte, slot by slot; the frame check as R215's
conditions on the levels; and what the check and DecodeByte make of a transmitted frame. -/

namespace Sys2Proof.Encoding

open Sys2Proof.Machine Sys2Proof.Claims

variable {c : Cfg} {b : Byte} {bw : List BitEntry} {q : Nat}

/-! ### Slots of FrameLevels -/

theorem dataBits_getElem? {i : Nat} (h : i < 8) : (dataBits b)[i]? = some (b.getLsbD i) := by
  simp [dataBits, h]

@[simp] theorem dataBits_length : (dataBits b).length = 8 := rfl

/-- The stop bits are a run of ones. -/
theorem frameLevels_eq (c : Cfg) (b : Byte) : frameLevels c b =
    false :: (dataBits b ++ ((if c.parity then [parityOf b] else []) ++ List.replicate (stopBits c) true)) := by
  cases h : c.stop2 <;> simp [frameLevels, stopBits, h, List.replicate]

theorem frameLevels_data {i : Nat} (h : i < 8) : (frameLevels c b)[i + 1]? = some (b.getLsbD i) := by
  rw [frameLevels_eq, List.getElem?_cons_succ, List.getElem?_append_left (by simpa using h), dataBits_getElem? h]

theorem frameLevels_after_data (c : Cfg) (b : Byte) (k : Nat) : (frameLevels c b)[9 + k]? =
    ((if c.parity then [parityOf b] else []) ++ List.replicate (stopBits c) true)[k]? := by
  rw [frameLevels_eq, ← List.cons_append, List.getElem?_append_right (by simp)]
  simp

theorem frameLevels_parity (h : c.parity = true) : (frameLevels c b)[9]? = some (parityOf b) := by
  rw [← Nat.add_zero 9, frameLevels_after_data, if_pos h]
  rfl

theorem frameLevels_stop {j : Nat} (hlow : 9 + parityBits c ≤ j) (hhigh : j < frameBits c) :
    (frameLevels c b)[j]? = some true := by
  obtain ⟨k, rfl⟩ := Nat.exists_eq_add_of_le hlow
  have hk : k < stopBits c := by simpa [frameBits] using hhigh
  have hparity : (if c.parity then [parityOf b] else []).length = parityBits c := by
    cases h : c.parity <;> simp [parityBits, h]
  rw [Nat.add_assoc, frameLevels_after_data, ← hparity, List.getElem?_append_right (Nat.le_add_right ..),
    Nat.add_sub_cancel_left, List.getElem?_replicate, if_pos hk]

theorem parityOf_eq (b : Byte) : parityOf b =
    (b.getLsbD 0 ^^ b.getLsbD 1 ^^ b.getLsbD 2 ^^ b.getLsbD 3 ^^ b.getLsbD 4 ^^ b.getLsbD 5 ^^ b.getLsbD 6 ^^ b.getLsbD 7) := by
  simp [parityOf, dataBits, List.range_succ, xorAll]

/-- Settles O24, a slot at a time. -/
theorem frameLevelsLayout : Obligations.FrameLevelsLayout := by
  refine fun c b => ⟨frameLevels_length c b, rfl, fun i => frameLevels_data, fun h => ?_, fun j => frameLevels_stop⟩
  rw [frameLevels_parity h, parityOf_eq]

/-! ### Levels of the BitWindow -/

theorem levels_getElem?_eq_some {i : Nat} {v : Level} (h : i < bw.length) :
    (bw.map (·.lvl))[i]? = some v ↔ bitAt bw i = v := by
  simp [bitAt, List.getElem?_eq_getElem h]

theorem levels_getD (bw : List BitEntry) (i : Nat) : (bw.map (·.lvl)).getD i false = bitAt bw i := by
  rw [List.getD_eq_getElem?_getD, List.getElem?_map, bitAt]

theorem foldl_xor_eq (v : Level) (l : List Level) : l.foldl (· ^^ ·) v = (v ^^ xorAll l) := by
  induction l generalizing v with
  | nil => simp [xorAll]
  | cons x l ih => rw [List.foldl_cons, ih, xorAll, Bool.xor_assoc]

/-- The parity R215 asks for, as R176 computes it. -/
theorem foldl_xor_levels (c : Cfg) (bw : List BitEntry) (q : Nat) :
    ((List.range 8).map (fun i => (bw.map (·.lvl)).getD (q + stopBits c + 1 + i) false)).foldl (· ^^ ·) false =
      xorAll (frameData c bw q) := by
  simp only [levels_getD, foldl_xor_eq, Bool.false_xor, frameData]

/-! ### The frame check -/

/-- R215's four conditions, on the levels of the bits. -/
theorem frameValid_iff : frameValid c bw q = true ↔
    (∀ j, j < stopBits c → bitAt bw (q + j) = true) ∧ bitAt bw (q + stopBits c) = false ∧
      (c.parity = true → bitAt bw (q + stopBits c + 9) = xorAll (frameData c bw q)) ∧
      (∀ j, j < stopBits c → bitAt bw (q + frameBits c + j) = true) := by
  simp [frameValid, and_assoc, imp_iff_not_or]

/-- The trailing stop bits are the offsets B to L-1 (R16, R215). -/
theorem forall_trailing_iff {P : Nat → Prop} :
    (∀ j, frameBits c ≤ j → j < scoredBits c → P (q + j)) ↔ ∀ j, j < stopBits c → P (q + frameBits c + j) := by
  constructor
  · intro h j hj
    rw [Nat.add_assoc]
    exact h _ (Nat.le_add_right ..) (Nat.add_lt_add_left hj _)
  · intro h j hlow hhigh
    obtain ⟨k, rfl⟩ := Nat.exists_eq_add_of_le hlow
    rw [← Nat.add_assoc]
    exact h k (Nat.lt_of_add_lt_add_left hhigh)

/-- The check of a frame that lies in the window, in R215's own words. -/
theorem frameValid_iff_levels (hlen : q + scoredBits c ≤ bw.length) : frameValid c bw q = true ↔
    (∀ j, j < stopBits c → (bw.map (·.lvl))[q + j]? = some true) ∧
    (bw.map (·.lvl))[q + stopBits c]? = some false ∧
    (c.parity = true → (bw.map (·.lvl))[q + stopBits c + 9]? = some (xorAll (frameData c bw q))) ∧
    (∀ j, frameBits c ≤ j → j < scoredBits c → (bw.map (·.lvl))[q + j]? = some true) := by
  have hL : scoredBits c = 9 + parityBits c + stopBits c + stopBits c := rfl
  rw [frameValid_iff, ← forall_trailing_iff (P := fun i => bitAt bw i = true)]
  refine and_congr (forall₂_congr fun j hj => ?_) (and_congr ?_ (and_congr (forall_congr' fun hparity => ?_)
    (forall₃_congr fun j _ hj => ?_)))
  · exact (levels_getElem?_eq_some (by omega)).symm
  · exact (levels_getElem?_eq_some (by omega)).symm
  · have hp : parityBits c = 1 := if_pos hparity
    exact (levels_getElem?_eq_some (by omega)).symm
  · exact (levels_getElem?_eq_some (by omega)).symm

theorem bitAt_of_high (hhigh : ∀ e ∈ bw, e.lvl = true) {i : Nat} (hi : i < bw.length) : bitAt bw i = true :=
  bitAt_of_map (by simp [List.getElem?_eq_getElem hi, hhigh])

/-- A run of high bits has no start bit (R215). -/
theorem frameValid_of_high (hlen : q + scoredBits c ≤ bw.length) (hhigh : ∀ e ∈ bw, e.lvl = true) :
    frameValid c bw q = false := by
  rw [Bool.eq_false_iff]
  intro hvalid
  obtain ⟨-, hstart, -⟩ := frameValid_iff.mp hvalid
  have hin : q + stopBits c < bw.length := by
    simp only [scoredBits, frameBits] at hlen
    omega
  simp [bitAt_of_high hhigh hin] at hstart

/-! ### A transmitted frame -/

/-- The byte is the sum of its bits, the first received lowest (R60, R220). -/
theorem ofNat_sum_bits : ∀ b : Byte,
    BitVec.ofNat 8 ((List.range 8).map (fun i => (b.getLsbD i).toNat <<< i)).sum = b := by
  decide +kernel

section

variable {pre post : List Level}
  (h : bw.map (·.lvl) = pre ++ List.replicate (stopBits c) true ++ frameLevels c b ++ post)
include h

theorem bitAt_leading {j : Nat} (hj : j < stopBits c) : bitAt bw (pre.length + j) = true := by
  apply bitAt_of_map
  rw [h, List.append_assoc, List.append_assoc, List.getElem?_append_right (by simp), Nat.add_sub_cancel_left,
    List.getElem?_append_left (by simpa using hj), List.getElem?_replicate, if_pos hj]

/-- After the leading stop bits stand the frame's own levels. -/
theorem bitAt_frame {j : Nat} {v : Level} (hv : (frameLevels c b)[j]? = some v) :
    bitAt bw (pre.length + stopBits c + j) = v := by
  obtain ⟨hj, -⟩ := List.getElem?_eq_some_iff.mp hv
  apply bitAt_of_map
  rw [h, List.append_assoc, List.getElem?_append_right (by simp), List.length_append, List.length_replicate,
    Nat.add_sub_cancel_left, List.getElem?_append_left hj, hv]

theorem bitAt_data {i : Nat} (hi : i < 8) : bitAt bw (pre.length + stopBits c + 1 + i) = b.getLsbD i := by
  rw [Nat.add_assoc, Nat.add_comm 1]
  exact bitAt_frame h (frameLevels_data hi)

theorem frameData_of_levels : frameData c bw pre.length = dataBits b :=
  List.map_congr_left fun _ hi => bitAt_data h (List.mem_range.mp hi)

theorem frameValid_of_levels : frameValid c bw pre.length = true := by
  obtain ⟨-, hstart, -, -, hstop⟩ := frameLevelsLayout c b
  refine frameValid_iff.mpr ⟨fun j => bitAt_leading h, bitAt_frame h hstart, fun hparity => ?_, fun j hj => ?_⟩
  · rw [frameData_of_levels h]
    exact bitAt_frame h (frameLevels_parity hparity)
  · have hslot := hstop (9 + parityBits c + j) (Nat.le_add_right ..) (Nat.add_lt_add_left hj _)
    convert bitAt_frame h hslot using 2
    simp only [frameBits]
    omega

theorem decodeByte_of_levels : decodeByte c bw pre.length = b := by
  have hbits : (List.range 8).map (fun i => (bitAt bw (pre.length + stopBits c + 1 + i)).toNat <<< i) =
      (List.range 8).map (fun i => (b.getLsbD i).toNat <<< i) :=
    List.map_congr_left fun i hi => by rw [bitAt_data h (List.mem_range.mp hi)]
  rw [decodeByte, hbits, ofNat_sum_bits]

end

/-- Settles O36: a transmitted frame is laid out as the check and DecodeByte read it. -/
theorem frameCodecRoundTrips : Obligations.FrameCodecRoundTrips := by
  refine ⟨fun c b pre post bw h => ⟨frameValid_of_levels h, decodeByte_of_levels h⟩, fun c bw q hlen => ?_,
    fun c bw q => frameValid_of_high⟩
  rw [foldl_xor_levels]
  exact frameValid_iff_levels hlen

end Sys2Proof.Encoding
end

section
/-! SUPPORT. The byte classes of the AKP decoder and what a byte does in the modes that read a tag's letters and its checksum
(30_encoding.md R92; 44_akp_decoder.md R261 to R267). -/

namespace Sys2Proof.Encoding

open Sys2Proof.Machine Sys2Proof.Claims

variable {p : Params} {T : TagParse} {c b : Byte}

/-! ### Byte classes (R92) -/

theorem isUpper_iff : isUpper b = true ↔ 0x41 ≤ b.toNat ∧ b.toNat ≤ 0x5A := by
  simp [isUpper]

/-- A number below 16 is a half-byte's value in one way. -/
theorem ofNat_eq_iff_of_lt {n : Nat} {v : BitVec 4} (h : n < 16) : BitVec.ofNat 4 n = v ↔ v.toNat = n := by
  rw [← BitVec.toNat_inj, BitVec.toNat_ofNat, Nat.mod_eq_of_lt h, eq_comm]

theorem hexVal?_eq_some {v : BitVec 4} : hexVal? b = some v ↔
    (0x30 ≤ b.toNat ∧ b.toNat ≤ 0x39 ∧ v.toNat = b.toNat - 0x30) ∨
    (0x61 ≤ b.toNat ∧ b.toNat ≤ 0x66 ∧ v.toNat = b.toNat - 0x57) := by
  unfold hexVal?
  split
  next hdigit =>
    rw [Option.some_inj, ofNat_eq_iff_of_lt (by omega)]
    omega
  next hdigit =>
    split
    next hletter =>
      rw [Option.some_inj, ofNat_eq_iff_of_lt (by omega)]
      omega
    next hletter =>
      simp only [reduceCtorEq, false_iff]
      omega

/-! ### One byte -/

theorem tagStarts_iff : tagStarts T c = true ↔
    T.mode ≠ .ddpay ∧ c = caret ∧ isUpper T.lb1 = true ∧ isUpper T.lb0 = true := by
  simp [tagStarts, and_assoc]

/-- A byte that starts no tag is its mode's; the lookback moves on (R261, R272). -/
theorem akpFeed_of_mode (h : tagStarts T c = false) :
    akpFeed p T c = ({ (feedByMode p T c).1 with lb1 := T.lb0, lb0 := c }, (feedByMode p T c).2) := by
  simp only [akpFeed, feedCore, h, Bool.false_eq_true, if_false]

theorem akpFeed_between (hstart : tagStarts T c = false) (hm : T.mode = .between) :
    akpFeed p T c = ({ T with lb1 := T.lb0, lb0 := c }, none) := by
  simp only [akpFeed_of_mode hstart, feedByMode, hm]

/-- In CS1 a digit is kept (R266). -/
theorem akpFeed_cs1_digit (hstart : tagStarts T c = false) (hm : T.mode = .cs1) {v : BitVec 4} (hv : hexVal? c = some v) :
    akpFeed p T c = ({ T with lb1 := T.lb0, lb0 := c, hi := v, mode := .cs2 }, none) := by
  simp only [akpFeed_of_mode hstart, feedByMode, hm, feedCs1, hv]

/-- In place of a checksum digit any other byte clears (R266, R267). -/
theorem akpFeed_checksum_nonHex (hstart : tagStarts T c = false) (hm : T.mode = .cs1 ∨ T.mode = .cs2) (hc : hexVal? c = none) :
    akpFeed p T c = ({ akpClear T with lb1 := T.lb0, lb0 := c }, none) := by
  rcases hm with hm | hm
  · simp only [akpFeed_of_mode hstart, feedByMode, hm, feedCs1, hc]
  · simp only [akpFeed_of_mode hstart, feedByMode, hm, feedCs2, hc]

/-- In CS2 a digit clears, and the record it ends stands exactly when the two digits are its checksum (R267). -/
theorem akpFeed_cs2_digit (hstart : tagStarts T c = false) (hm : T.mode = .cs2) {v : BitVec 4} (hv : hexVal? c = some v) :
    akpFeed p T c = ({ akpClear T with lb1 := T.lb0, lb0 := c },
      if T.hi.toNat * 16 + v.toNat = (recordCrc p.crc8Step T.tag T.data).toNat then
        some { tag := T.tag, data := T.data, len := T.data.length }
      else none) := by
  simp only [akpFeed_of_mode hstart, feedByMode, hm, feedCs2, hv, Nat.mul_comm 16]
  split <;> rfl

/-- Settles O48: a tag start is taken before the mode is looked at, and BETWEEN looks at no byte. -/
theorem tagStartPreempts : Obligations.TagStartPreempts := by
  refine ⟨fun b => isUpper_iff, fun T c => tagStarts_iff, fun p T hm h1 h0 => ?_, fun p T c hm hnot => ?_⟩
  · rw [← caret, akpFeed_caret p T hm h1 h0]
    simp [beginTag, akpClear, akpFresh, ddTag]
  · refine akpFeed_between ?_ hm
    rw [Bool.eq_false_iff, ne_eq, tagStarts_iff]
    rintro ⟨-, hcaret, h1, h0⟩
    rcases hnot with h | h | h
    · exact h hcaret
    · simp [h1] at h
    · simp [h0] at h

/-- Settles O50: the two checksum modes, by what the byte is. -/
theorem checksumDecidesRecord : Obligations.ChecksumDecidesRecord := by
  refine ⟨fun b v => hexVal?_eq_some, fun p T c hstart => ⟨fun hm v => akpFeed_cs1_digit hstart hm,
    akpFeed_checksum_nonHex hstart, fun hm v hv => ⟨fun hcrc => ?_, fun hcrc => ?_⟩⟩⟩
  · rw [akpFeed_cs2_digit hstart hm hv, recordCrc, if_pos hcrc]
  · rw [akpFeed_cs2_digit hstart hm hv, recordCrc, if_neg hcrc]

end Sys2Proof.Encoding
end

section
/-! SUPPORT. The crc8 primitive (40_crc8.md R121 to R126): what the two commands answer, from every agent and state, and how checksums
chain. -/

namespace Sys2Proof.Crc

open Sys2Proof.Machine

/-! ### The checksum as a fold -/

/-- A checksum carries over from one list to the next as its seed, whatever the first seed (R121). -/
theorem crc8With_append (f : Byte → Byte → Byte) (t d : List Byte) (seed : Byte) :
    crc8With f (t ++ d) seed = crc8With f d (crc8With f t seed) := by
  simp only [crc8With_eq_foldl, List.foldl_append]

/-- A record's checksum is the one checksum of its tag bytes and its data (R125). -/
theorem recordCrc_eq_crc8With (f : Byte → Byte → Byte) (tag : Byte × Byte) (data : List Byte) :
    recordCrc f tag data = crc8With f ([tag.1, tag.2] ++ data) 0x00#8 :=
  (crc8With_append f [tag.1, tag.2] data 0x00#8).symm

/-! ### The two commands -/

theorem exec_crc8Step (c b : Byte) (s : State) : exec (.crc8Step c b) s = .next (emit (.byte (Config.crc8Step c b)) s) := rfl

theorem exec_crc8 (bs : List Byte) (seed : Byte) (s : State) :
    exec (.crc8 bs seed) s = .next (emit (.byte (bs.foldl Config.crc8Step seed)) s) := by
  rw [← crc8With_eq_foldl]
  rfl

/-- Settles O10: the command is one `emit`, which writes the results alone. -/
theorem crc8StepEmitsUpdate : Obligations.Crc8StepEmitsUpdate :=
  ⟨fun c b => Encoding.decode_encode (.crc8Step c b), exec_crc8Step, by decide⟩

/-- Settles O11: the command is one `emit`, of the fold. -/
theorem crc8EmitsFold : Obligations.Crc8EmitsFold :=
  ⟨fun bs seed => Encoding.decode_encode (.crc8 bs seed), exec_crc8, by decide +kernel, by decide +kernel⟩

/-- Settles O12: both clauses are the checksum of an append. -/
theorem crcChains : Obligations.CrcChains := by
  intro f
  exact ⟨fun t d => (crc8With_append f t d 0x00#8).symm, fun a b => recordCrc_eq_crc8With f (a, b)⟩

end Sys2Proof.Crc
end

section
/-! SUPPORT. A ring and the bounded list it stands for (41_ring_buffer.md R141, R150 to R152): the relation between the two, that every
operation keeps it and answers what the list answers, and the count and the slots as the indices give them. -/

namespace Sys2Proof.Rings

open Sys2Proof.Machine Sys2Proof.Claims

variable {α : Type} {q : RingBuf α} {N : Nat} {C : List α}

/-! ### What an operation does to a ring -/

/-- A bulk push takes as many elements as the free slots, or all of them where there are fewer (R144). -/
theorem take_bulkCount (h : RingOk q) (vs : List α) :
    vs.take (bulkCount vs q) = vs.take (ringCap q - (ringContents q).length) := by
  rw [bulkCount, ringContents_length h, Nat.min_comm, ← List.take_eq_take_min]

theorem ringContents_pushBulk (h : RingOk q) (vs : List α) :
    ringContents (ringAct q (.pushBulk vs)).2 = ringContents q ++ vs.take (ringCap q - (ringContents q).length) ∧
    RingOk (ringAct q (.pushBulk vs)).2 ∧ ringCap (ringAct q (.pushBulk vs)).2 = ringCap q := by
  rw [ringAct, take_bulkCount h]
  apply ringContents_pushes _ h
  have hle := ringAvail_le h
  rw [List.length_take, ringContents_length h]
  omega

/-- A bulk pop takes the oldest `n` elements, or all of them where there are fewer (R146). -/
theorem ringContents_popBulk (h : RingOk q) (n : Nat) :
    (ringAct q (.popBulk n)).1 = (ringContents q).take n ∧
    ringContents (ringAct q (.popBulk n)).2 = (ringContents q).drop n := by
  rw [ringAct, ← ringContents_length h, List.take_eq_take_min, List.drop_eq_drop_min]
  exact ringContents_popMany _ h

theorem ringPop_eq_of_cons (h : RingOk q) {v : α} {rest : List α} (hc : ringContents q = v :: rest) :
    ringPop q = (some v, { q with start := (q.start + 1) % q.buf.length, full := false }) := by
  have hne : ringEmpty q = false := by
    rw [Bool.eq_false_iff, ne_eq, ← ringContents_nil_iff h, hc]
    exact List.cons_ne_nil v rest
  refine Prod.ext (ringContents_pop h hc).1 ?_
  simp [ringPop, hne, ringNext, ringCap]

/-! ### Refinement (R152) -/

/-- The ring is in range, has `N` slots and stands for the list `C`. -/
def Holds (N : Nat) (C : List α) (q : RingBuf α) : Prop := RingOk q ∧ ringCap q = N ∧ ringContents q = C

theorem Holds.length_le (h : Holds N C q) : C.length ≤ N := by
  obtain ⟨hok, rfl, rfl⟩ := h
  exact (ringContents_length hok).trans_le (ringAvail_le hok)

/-- One operation answers what the list answers, and leaves the ring standing for the list's next content. -/
theorem ringAct_refines (o : RingOp α) (h : Holds N C q) :
    (ringAct q o).1 = (listAct N C o).1 ∧ Holds N (listAct N C o).2 (ringAct q o).2 := by
  obtain ⟨hok, rfl, rfl⟩ := h
  cases o with
  | init =>
    have hinit := RingOk_init (RingOk_cap_pos hok)
    exact ⟨rfl, hinit, rfl, (ringContents_nil_iff hinit).mpr rfl⟩
  | push v => exact ⟨rfl, RingOk_push hok v, ringPush_cap q v, ringContents_push hok v⟩
  | pushBulk vs =>
    obtain ⟨hc, hok', hcap⟩ := ringContents_pushBulk hok vs
    exact ⟨rfl, hok', hcap, hc⟩
  | pop =>
    obtain ⟨hr, hc⟩ := ringContents_popMany 1 hok
    simp only [ringPopMany, List.append_nil] at hr hc
    exact ⟨hr, RingOk_pop hok, ringPop_cap q, hc⟩
  | popBulk n =>
    obtain ⟨hr, hc⟩ := ringContents_popBulk hok n
    exact ⟨hr, RingOk_popMany _ hok, ringPopMany_cap _ q, hc⟩

theorem ringRun_refines (ops : List (RingOp α)) (h : Holds N C q) :
    (ringRun ops q).1 = (listRun N ops C).1 ∧ Holds N (listRun N ops C).2 (ringRun ops q).2 := by
  induction ops generalizing q C with
  | nil => exact ⟨rfl, h⟩
  | cons o ops ih =>
    obtain ⟨hr, hnext⟩ := ringAct_refines o h
    obtain ⟨hrs, hend⟩ := ih hnext
    exact ⟨congrArg₂ List.cons hr hrs, hend⟩

/-- Settles O15: `Holds` is a simulation, and the bounds are facts of it. -/
theorem ringRefinesBoundedList : Obligations.RingRefinesBoundedList := by
  intro α ops q hok
  obtain ⟨hresults, hend⟩ := ringRun_refines ops ⟨hok, rfl, rfl⟩
  have hlen := hend.length_le
  obtain ⟨hok', hcap, hc⟩ := hend
  exact ⟨hresults, hc, (ringContents_length hok').symm, hc ▸ hlen, hok', hcap⟩

/-! ### The count and the slots (R141, R152) -/

theorem availOf_eq_ringAvail (h : RingOk q) : availOf q = ringAvail q := by
  cases hf : q.full
  · rw [ringAvail_notFull h hf]
    simp [availOf, hf, ringCap]
  · simp [availOf, ringAvail, hf, ringCap]

theorem availOf_of_full (hf : q.full = true) : availOf q = q.buf.length := by
  simp [availOf, hf]

theorem availOf_of_empty (hf : q.full = false) (he : q.start = q.tail) : availOf q = 0 := by
  simp [availOf, hf, he]

/-- The remainder is over the integers: where the tail has gone round the end, the difference is negative. -/
theorem availOf_eq_emod (h : RingOk q) (hf : q.full = false) :
    (availOf q : Int) = ((q.tail : Int) - q.start) % q.buf.length := by
  obtain ⟨hstart, htail, -⟩ := h
  rw [ringCap] at hstart htail
  simp only [availOf, hf, Bool.false_eq_true, if_false]
  split
  next hle => rw [Int.emod_eq_of_lt (by omega) (by omega), Nat.cast_sub hle]
  next hgt =>
    rw [← Int.add_emod_right, Int.emod_eq_of_lt (by omega) (by omega)]
    omega

theorem ringContents_getElem? (h : RingOk q) {i : Nat} (hi : i < ringAvail q) :
    (ringContents q)[i]? = q.buf[(q.start + i) % ringCap q]? := by
  have hslot := congrArg (·[i]?) (ringContents_slots h)
  simp only [List.getElem?_map, List.getElem?_range hi, Option.map_some] at hslot
  obtain ⟨v, hv, hslot⟩ := Option.map_eq_some_iff.mp hslot
  rw [hv, hslot]

end Sys2Proof.Rings
end

section
/-! SUPPORT. The ring-buffer commands (41_ring_buffer.md R142 to R148), by HOST: what each one answers, by the ring operation it is. -/

namespace Sys2Proof.Rings

open Sys2Proof.Machine Sys2Proof.Claims

variable {s : State}

/-! ### The commands as ring operations -/

theorem exec_rbInitTxq (hhost : s.issuer = .host) : exec .rbInitTxq s =
    if s.tx.phase ≠ .stopped then .fault .liveRingInit else .next { s with txq := ringInit s.txq } := byAgent_self hhost

theorem exec_rbInitRxq (hhost : s.issuer = .host) : exec .rbInitRxq s =
    if s.rx.run then .fault .liveRingInit else .next { s with rxq := ringInit s.rxq } := byAgent_self hhost

theorem exec_rbPushTxq (b : Byte) (hhost : s.issuer = .host) : exec (.rbPushTxq b) s = .next (pushTxq b s) := byAgent_self hhost

theorem exec_rbPushBulkTxq (bs : List Byte) (hhost : s.issuer = .host) : exec (.rbPushBulkTxq bs) s =
    .next (emit (.count (bulkCount bs s.txq)) (pushAllTxq (bs.take (bulkCount bs s.txq)) s)) := byAgent_self hhost

theorem exec_rbPopRxq (hhost : s.issuer = .host) : exec .rbPopRxq s =
    .next (emit (.byteOpt (ringPop s.rxq).1) { s with rxq := (ringPop s.rxq).2 }) := byAgent_self hhost

theorem exec_rbPopBulkRxq (n : Nat) (hhost : s.issuer = .host) : exec (.rbPopBulkRxq n) s =
    .next (emit (.bytes (ringAct s.rxq (.popBulk n)).1) { s with rxq := (ringAct s.rxq (.popBulk n)).2 }) := byAgent_self hhost

theorem exec_rbAvailableTxq (hhost : s.issuer = .host) :
    exec .rbAvailableTxq s = .next (emit (.count (ringAvail s.txq)) s) := byAgent_self hhost

theorem exec_rbAvailableRxq (hhost : s.issuer = .host) :
    exec .rbAvailableRxq s = .next (emit (.count (ringAvail s.rxq)) s) := byAgent_self hhost

/-- What HOST is given stands in the results as HOST's (R12). -/
theorem emit_host (r : Result) (hhost : s.issuer = .host) : emit r s = { s with results := s.results ++ [(.host, r)] } := by
  rw [emit, hhost]

/-! ### RB_INIT -/

/-- Settles O13: HOST's command comes to its one guard, whether the ring's other agent runs. -/
theorem rbInitEmptiesRing : Obligations.RbInitEmptiesRing := by
  intro s hhost
  refine ⟨fun hstopped => ?_, fun hlive => ?_, fun hstopped => ?_, fun hlive => ?_⟩
  · rw [exec_rbInitTxq hhost, if_neg (not_not.mpr hstopped), ringInit]
  · rw [exec_rbInitTxq hhost, if_pos hlive]
  · rw [exec_rbInitRxq hhost, if_neg (Bool.eq_false_iff.mp hstopped), ringInit]
  · rw [exec_rbInitRxq hhost, if_pos hlive]

/-! ### RB_PUSH and RB_PUSH_BULK -/

theorem pushTxq_of_full (b : Byte) (hf : s.txq.full = true) : pushTxq b s = { s with
    txq := { buf := s.txq.buf.set s.txq.tail b, start := ringNext s.txq s.txq.tail, tail := ringNext s.txq s.txq.tail, full := true }
    trace := s.trace ++ [.note .ringOverflow] } := by
  simp [pushTxq, ringPush, hf, overflowTrace]

theorem pushTxq_of_notFull (b : Byte) (hf : s.txq.full = false) : pushTxq b s = { s with
    txq := { buf := s.txq.buf.set s.txq.tail b, start := s.txq.start, tail := ringNext s.txq s.txq.tail,
             full := decide (ringNext s.txq s.txq.tail = s.txq.start) } } := by
  simp [pushTxq, ringPush, hf, overflowTrace]

/-- Settles O14: the command is one push, on a full ring or on another. -/
theorem rbPushStoresAtTail : Obligations.RbPushStoresAtTail := by
  intro s b hhost
  rw [exec_rbPushTxq b hhost]
  exact ⟨fun hf => congrArg _ (pushTxq_of_full b hf), fun hf => congrArg _ (pushTxq_of_notFull b hf)⟩

theorem pushAllTxq_txq (bs : List Byte) (s : State) :
    (pushAllTxq bs s).txq = bs.foldl (fun r v => (ringPush r v).1) s.txq := by
  induction bs generalizing s with
  | nil => rfl
  | cons b bs ih => exact ih (pushTxq b s)

/-- What fits overwrites nothing, so a bulk push writes the ring alone (R144). -/
theorem pushAllTxq_bulk (bs : List Byte) (h : RingOk s.txq) :
    pushAllTxq (bs.take (bulkCount bs s.txq)) s = { s with txq := (ringAct s.txq (.pushBulk bs)).2 } := by
  have htrace := pushAllTxq_trace_bulk bs h
  have htxq := pushAllTxq_txq (bs.take (bulkCount bs s.txq)) s
  obtain ⟨q, tr, hshape⟩ := pushAllTxq_shape (bs.take (bulkCount bs s.txq)) s
  rw [hshape] at htrace htxq ⊢
  obtain rfl : tr = s.trace := htrace
  obtain rfl : q = (ringAct s.txq (.pushBulk bs)).2 := htxq
  rfl

/-- Settles O16: the command is the ring's bulk push, and a ring is full when it holds as many elements as it has slots. -/
theorem rbPushBulkFillsFreeSpace : Obligations.RbPushBulkFillsFreeSpace := by
  refine ⟨fun bs => Encoding.decode_encode (.rbPushBulkTxq bs), fun s bs hhost hok => ?_⟩
  obtain ⟨hc, hok', hcap⟩ := ringContents_pushBulk hok bs
  refine ⟨_, ?_, hok', hcap, hc, ringFull_iff hok'⟩
  rw [exec_rbPushBulkTxq bs hhost, pushAllTxq_bulk bs hok, emit_host _ (by exact hhost), bulkCount, ringContents_length hok]

/-! ### RB_POP and RB_POP_BULK -/

/-- Settles O17: the command is the ring's pop, on a ring that holds something or on an empty one. -/
theorem rbPopTakesOldest : Obligations.RbPopTakesOldest := by
  intro s hhost hok
  rw [exec_rbPopRxq hhost, emit_host _ (by exact hhost)]
  refine ⟨fun v rest hc => ?_, fun hc => ?_⟩
  · obtain ⟨-, hrest⟩ := ringContents_pop hok hc
    rw [ringPop_eq_of_cons hok hc] at hrest ⊢
    exact ⟨rfl, hrest⟩
  · rw [ringPop_empty ((ringContents_nil_iff hok).mp hc)]

/-- Settles O18: the command is the ring's bulk pop, of no element where `max` is 0 or the ring holds none. -/
theorem rbPopBulkTakesPrefix : Obligations.RbPopBulkTakesPrefix := by
  refine ⟨fun max => Encoding.decode_encode (.rbPopBulkRxq max), fun s max hhost hok => ?_⟩
  obtain ⟨hr, hc⟩ := ringContents_popBulk hok max
  refine ⟨(ringAct s.rxq (.popBulk max)).2, ?_, RingOk_popMany _ hok, ringPopMany_cap _ _, hc, fun hnone => ?_⟩
  · rw [exec_rbPopBulkRxq max hhost, hr, emit_host _ (by exact hhost)]
  · have hzero : min max (ringAvail s.rxq) = 0 := by
      rw [← ringContents_length hok]
      rcases hnone with rfl | hnil
      · exact Nat.zero_min _
      · rw [hnil, List.length_nil, Nat.min_zero]
    rw [ringAct, hzero, ringPopMany]

/-! ### RB_AVAILABLE -/

/-- Settles O19: the two commands are one `emit` of the count, which the ring's laws tie to the elements. -/
theorem rbAvailableCountsElements : Obligations.RbAvailableCountsElements := by
  refine ⟨Encoding.decode_encode .rbAvailableTxq, Encoding.decode_encode .rbAvailableRxq, fun s hhost hok => ?_,
    fun s hhost hok => ?_, fun q hok => ⟨availOf_of_full, availOf_of_empty, availOf_eq_emod hok, ?_, fun i hi => ?_⟩⟩
  · rw [exec_rbAvailableTxq hhost, emit_host _ hhost, availOf_eq_ringAvail hok]
  · rw [exec_rbAvailableRxq hhost, emit_host _ hhost, availOf_eq_ringAvail hok]
  · rw [ringContents_length hok, availOf_eq_ringAvail hok]
  · rw [availOf_eq_ringAvail hok] at hi
    exact ringContents_getElem? hok hi

end Sys2Proof.Rings
end

section
/-! SUPPORT. The bit timer (42_bit_timer_tx.md R171 to R174): what each of its three commands answers to the agents it admits, and the
deadlines of a sequence of waits and advances. -/

namespace Sys2Proof.BitTimer

open Sys2Proof.Machine Sys2Proof.Claims

variable {s : State}

/-! ### The commands -/

theorem byTimerAgent_self {k : Out} (h : s.issuer = .txa ∨ (s.issuer = .host ∧ s.tx.run = false)) : byTimerAgent s k = k :=
  if_pos (bitTimerAllowed_iff.mpr h)

theorem exec_btSync (h : s.issuer = .txa ∨ (s.issuer = .host ∧ s.tx.run = false)) :
    exec .btSync s = .next { s with tx := { s.tx with d := s.now } } := byTimerAgent_self h

theorem exec_btAdvance (d : Nat) (h : s.issuer = .txa ∨ (s.issuer = .host ∧ s.tx.run = false)) :
    exec (.btAdvance d) s = .next { s with tx := { s.tx with d := s.tx.d + d } } := byTimerAgent_self h

theorem exec_btWait_of_le (h : s.issuer = .txa ∨ (s.issuer = .host ∧ s.tx.run = false)) (hd : s.tx.d ≤ s.now) :
    exec .btWait s = .next s :=
  (byTimerAgent_self h).trans (if_pos (decide_eq_true hd))

theorem exec_btWait_of_lt (h : s.issuer = .txa ∨ (s.issuer = .host ∧ s.tx.run = false)) (hd : s.now < s.tx.d) :
    exec .btWait s = .next (await .btWait s) :=
  Scope.exec_of_not_ready h (Scope.ready_btWait_eq_false.mpr hd) (by simp)

/-- While TX.run = 1 the timer's rows are TXA's alone (R84, R85). -/
theorem byTimerAgent_hostRunning {k : Out} (hhost : s.issuer = .host) (hrun : s.tx.run = true) :
    byTimerAgent s k = .refused (.wrongAgent .host) := by
  rw [Encoding.byTimerAgent_other (by simp [hhost, hrun]), hhost]

/-- Settles O20: the command is one write of the deadline, for the agents its row admits. -/
theorem btSyncSetsDeadline : Obligations.BtSyncSetsDeadline :=
  ⟨Encoding.decode_encode .btSync, fun _ => exec_btSync, fun _ => byTimerAgent_hostRunning⟩

/-- Settles O21: the command is one addition to the deadline, for the agents its row admits. -/
theorem btAdvanceAddsPeriod : Obligations.BtAdvanceAddsPeriod :=
  ⟨fun d => Encoding.decode_encode (.btAdvance d), fun _ => exec_btAdvance, fun _ _ => byTimerAgent_hostRunning⟩

/-- Settles O22, on the two sides of the deadline. -/
theorem btWaitEndsAtDeadline : Obligations.BtWaitEndsAtDeadline :=
  ⟨Encoding.decode_encode .btWait, fun _ h => ⟨exec_btWait_of_le h, exec_btWait_of_lt h⟩, fun _ => byTimerAgent_hostRunning⟩

/-! ### Rounds of the timer (R174) -/

/-- The state after one round: time has passed to the end of the wait, and the deadline has moved by the period. -/
def roundEnd (P late : Nat) (s : State) : State :=
  { s with now := max s.now s.tx.d + late, tx := { s.tx with d := s.tx.d + P } }

/-- A wait taken at its deadline or later ends at once, so no round stops short. -/
theorem timerRounds_cons (P late : Nat) (r : List Nat) (htxa : s.issuer = .txa) :
    timerRounds P (late :: r) s =
      ((max s.now s.tx.d + late) :: (timerRounds P r (roundEnd P late s)).1, (timerRounds P r (roundEnd P late s)).2) := by
  have hwait : exec .btWait { s with now := max s.now s.tx.d + late } = .next { s with now := max s.now s.tx.d + late } :=
    exec_btWait_of_le (.inl htxa) ((le_max_right ..).trans (Nat.le_add_right ..))
  have hadvance : exec (.btAdvance P) { s with now := max s.now s.tx.d + late } = .next (roundEnd P late s) :=
    exec_btAdvance P (.inl htxa)
  simp only [timerRounds, hwait, hadvance]

/-- After `k` rounds only the time has moved, and the deadline by `k * P`. -/
theorem timerRounds_end (P : Nat) (lates : List Nat) (htxa : s.issuer = .txa) : ∃ n, (timerRounds P lates s).2 =
    { s with now := n, tx := { s.tx with d := s.tx.d + lates.length * P } } := by
  induction lates generalizing s with
  | nil => exact ⟨s.now, by simp [timerRounds]⟩
  | cons late r ih =>
    obtain ⟨n, hn⟩ := ih (s := roundEnd P late s) htxa
    refine ⟨n, ?_⟩
    rw [timerRounds_cons P late r htxa, hn, roundEnd, List.length_cons, Nat.succ_mul, Nat.add_comm (r.length * P), Nat.add_assoc]

theorem timerRounds_length (P : Nat) (lates : List Nat) (htxa : s.issuer = .txa) :
    (timerRounds P lates s).1.length = lates.length := by
  induction lates generalizing s with
  | nil => rfl
  | cons late r ih =>
    rw [timerRounds_cons P late r htxa, List.length_cons, List.length_cons, ih (s := roundEnd P late s) htxa]

/-- The wait of round `j` is for the deadline that `j` advances have moved. -/
theorem le_timerRounds_getElem? (P : Nat) {lates : List Nat} (htxa : s.issuer = .txa) {j t : Nat}
    (ht : (timerRounds P lates s).1[j]? = some t) : s.tx.d + j * P ≤ t := by
  induction lates generalizing s j with
  | nil => simp [timerRounds] at ht
  | cons late r ih =>
    rw [timerRounds_cons P late r htxa] at ht
    cases j with
    | zero =>
      obtain rfl : max s.now s.tx.d + late = t := by simpa using ht
      omega
    | succ j =>
      have hle : s.tx.d + P + j * P ≤ t := ih (s := roundEnd P late s) htxa (by simpa using ht)
      rw [Nat.succ_mul]
      omega

/-- Settles O23: the deadline at the end is the advances' alone, and each wait ends no earlier than its own. -/
theorem timerDoesNotDrift : Obligations.TimerDoesNotDrift := by
  intro P lates s htxa
  obtain ⟨n, hend⟩ := timerRounds_end P lates htxa
  refine ⟨?_, timerRounds_length P lates htxa, fun j t => le_timerRounds_getElem? P htxa, ?_⟩ <;> rw [hend]

end Sys2Proof.BitTimer
end

section
/-! SUPPORT. The transmitter (42_bit_timer_tx.md R178 to R186): what its commands answer, TX_STEP phase by phase; that TX_STOP is no
matter to a frame in progress; and the levels and times of a whole frame. -/

namespace Sys2Proof.Transmitter

open Sys2Proof.Machine Sys2Proof.Claims

variable {s t : State}

/-! ### The pin write -/

theorem pinWrite_of_ok (v : Level) (h : s.draw = true) : pinWrite v s = { s with pin := { s.pin with tx := v } } := if_pos h

theorem pinWrite_of_fail (v : Level) (h : s.draw = false) : pinWrite v s = logError .pinWriteFail s :=
  if_neg (Bool.eq_false_iff.mp h)

/-! ### TX_START and TX_STOP -/

theorem exec_txStart (hhost : s.issuer = .host) : exec .txStart s =
    if !s.cfg.valid then .refused .notConfigured
    else if s.tx.run then .refused .alreadyRunning
    else if s.tx.phase ≠ .stopped then .refused .frameInFlight
    else .next (txStart Config.params s) := byAgent_self hhost

theorem exec_txStop (hhost : s.issuer = .host) :
    exec .txStop s = .next { s with tx := { s.tx with run := false } } := byAgent_self hhost

theorem exec_txStart_of_admitted (hhost : s.issuer = .host) (hvalid : s.cfg.valid = true) (hrun : s.tx.run = false)
    (hstopped : s.tx.phase = .stopped) : exec .txStart s = .next (txStart Config.params s) := by
  simp [exec_txStart hhost, hvalid, hrun, hstopped]

theorem exec_txStart_of_not_admitted (hhost : s.issuer = .host)
    (h : s.cfg.valid = false ∨ s.tx.run = true ∨ s.tx.phase ≠ .stopped) : ∃ r, exec .txStart s = .refused r := by
  rw [exec_txStart hhost]
  split_ifs with hvalid hrun hphase
  · exact ⟨_, rfl⟩
  · exact ⟨_, rfl⟩
  · exact ⟨_, rfl⟩
  · simp_all

/-- Settles O25: TX_START is one pin write, which succeeds or is logged, beside the transmitter's new state. -/
theorem txStartEntersIdle : Obligations.TxStartEntersIdle := by
  refine fun s hhost => ⟨fun hvalid hrun hstopped => ?_, exec_txStart_of_not_admitted hhost⟩
  rw [exec_txStart_of_admitted hhost hvalid hrun hstopped, txStart_eq]
  refine ⟨fun hok => ?_, fun hfail => ?_⟩
  · rw [pinWrite_of_ok _ hok, invertLevel]
  · rw [pinWrite_of_fail _ hfail, logError]

/-! ### TX_STEP by phase -/

theorem exec_txStep_of_ready (htxa : s.issuer = .txa) (hready : ready .txStep s = true) :
    exec .txStep s = .next (txStep Config.params s) :=
  (byAgent_self htxa).trans (if_pos hready)

theorem exec_txStep_idle (htxa : s.issuer = .txa) (hidle : s.tx.phase = .idle) : exec .txStep s = .next (txIdle s) := by
  rw [exec_txStep_of_ready htxa (by simp [ready, txStepReady, hidle]), txStep, hidle]

theorem exec_txStep_busy (htxa : s.issuer = .txa) (hbusy : s.tx.phase = .busy) (hd : s.tx.d ≤ s.now) :
    exec .txStep s = .next (txBusy Config.params s) := by
  rw [exec_txStep_of_ready htxa (by simp [ready, txStepReady, deadlineMet, hbusy, hd]), txStep, hbusy]

theorem exec_txStep_done (htxa : s.issuer = .txa) (hdone : s.tx.phase = .done) (hd : s.tx.d ≤ s.now) :
    exec .txStep s = .next (txDone s) := by
  rw [exec_txStep_of_ready htxa (by simp [ready, txStepReady, deadlineMet, hdone, hd]), txStep, hdone]

/-- Settles O27: the stop flag, then the pop of TXQ, which answers none or its first byte. -/
theorem txStepInIdle : Obligations.TxStepInIdle := by
  intro s htxa hidle hok
  rw [exec_txStep_idle htxa hidle, txIdle]
  refine ⟨fun hrun => ?_, fun hrun hnil => ?_, fun b rest hrun hcons => ?_⟩
  · simp [hrun]
  · simp [hrun, ringPop_empty ((ringContents_nil_iff hok).mp hnil)]
  · simp [hrun, Rings.ringPop_eq_of_cons hok hcons, txBegin]

/-- Settles O29: as in IDLE, but with the deadline kept. -/
theorem txStepInDone : Obligations.TxStepInDone := by
  intro s htxa hdone hd hok
  rw [exec_txStep_done htxa hdone hd, txDone]
  refine ⟨fun hrun => ?_, fun hrun hnil => ?_, fun b rest hrun hcons => ?_⟩
  · simp [hrun]
  · simp [hrun, ringPop_empty ((ringContents_nil_iff hok).mp hnil)]
  · simp [hrun, Rings.ringPop_eq_of_cons hok hcons, txBegin]

/-- Settles O28: a BUSY step is one pin write, which succeeds or is logged, beside the transmitter's advance. -/
theorem txStepInBusy : Obligations.TxStepInBusy := by
  intro s v htxa hbusy hd hv
  have hlevel : s.tx.frame.getD s.tx.idx true = v := by simp [hv]
  rw [exec_txStep_busy htxa hbusy hd, txBusy, hlevel]
  refine ⟨fun hok => ?_, fun hfail => ?_⟩
  · rw [pinWrite_of_ok _ hok, invertLevel]
  · rw [pinWrite_of_fail _ hfail, logError]

/-! ### The run flag in BUSY (R184) -/

/-- A BUSY step reads no run flag, and keeps it. -/
theorem txBusy_stop (p : Params) (s : State) : txBusy p { s with tx := { s.tx with run := false } } =
    { txBusy p s with tx := { (txBusy p s).tx with run := false } } := by
  cases hdraw : s.draw <;> simp [txBusy, pinWrite, hdraw, logError]

/-- Settles O26: a BUSY step is the frame's next level or the wait for its deadline, and neither depends on the run flag. -/
theorem txStopIsCooperative : Obligations.TxStopIsCooperative := by
  refine ⟨fun s => exec_txStop, fun s t hbusy hstep => ?_⟩
  obtain ⟨htxa, ⟨hready, rfl⟩ | ⟨hnot, rfl⟩⟩ := execTxStep_next hstep
  · have hd : s.tx.d ≤ s.now := by simpa [txStepReady, hbusy, deadlineMet] using hready
    rw [exec_txStep_busy (by exact htxa) (by exact hbusy) (by exact hd), txBusy_stop, txStep, hbusy]
  · exact Scope.exec_of_not_ready htxa hnot (by simp)

/-! ### A frame on the wire (R186) -/

/-- A transmitter with `n` slots of its frame still to write, the environment granting its pin writes. -/
structure Sending (n : Nat) (s : State) : Prop where
  issuer : s.issuer = .txa
  draw : s.draw = true
  phase : n ≠ 0 → s.tx.phase = .busy
  frame : s.tx.frame.length = s.tx.idx + n
  bits : s.tx.idx + n = frameBits s.cfg

/-- The state after one slot, written `late` ticks after its deadline. -/
def slotEnd (late : Nat) (s : State) : State := txBusy Config.params { s with now := max s.now s.tx.d + late }

@[simp] theorem slotEnd_cfg (late : Nat) (s : State) : (slotEnd late s).cfg = s.cfg := by simp [slotEnd, txBusy]
@[simp] theorem slotEnd_now (late : Nat) (s : State) : (slotEnd late s).now = max s.now s.tx.d + late := by simp [slotEnd, txBusy]
@[simp] theorem slotEnd_frame (late : Nat) (s : State) : (slotEnd late s).tx.frame = s.tx.frame := rfl
@[simp] theorem slotEnd_idx (late : Nat) (s : State) : (slotEnd late s).tx.idx = s.tx.idx + 1 := rfl
@[simp] theorem slotEnd_d (late : Nat) (s : State) : (slotEnd late s).tx.d = s.tx.d + pNom Config.params s.cfg := rfl

variable {n : Nat}

theorem Sending.next (h : Sending (n + 1) s) (late : Nat) : Sending n (slotEnd late s) where
  issuer := by simp [slotEnd, txBusy, h.issuer]
  draw := by simp [slotEnd, txBusy, h.draw]
  phase hn := if_neg (by have := h.bits; simp only; omega)
  frame := by simp [h.frame]; omega
  bits := by simp [← h.bits]; omega

/-- A slot taken at its deadline or later is written at once. -/
theorem sendLevels_cons (h : Sending (n + 1) s) (late : Nat) (r : List Nat) : sendLevels (late :: r) s =
    (max s.now s.tx.d + late, s.tx.frame.getD s.tx.idx true ^^ s.cfg.invert) :: sendLevels r (slotEnd late s) := by
  have hstep : exec .txStep { s with now := max s.now s.tx.d + late } = .next (slotEnd late s) :=
    exec_txStep_busy (by exact h.issuer) (by exact h.phase n.succ_ne_zero)
      ((le_max_right ..).trans (Nat.le_add_right ..))
  have hpin : (slotEnd late s).pin.tx = (s.tx.frame.getD s.tx.idx true ^^ s.cfg.invert) := by
    simp [slotEnd, txBusy, h.draw, invertLevel]
  simp only [sendLevels, hstep, hpin, slotEnd_now]

theorem sendLevels_levels (lates : List Nat) (h : Sending lates.length s) :
    (sendLevels lates s).map (·.2) = (s.tx.frame.drop s.tx.idx).map (· ^^ s.cfg.invert) := by
  induction lates generalizing s with
  | nil =>
    rw [List.drop_eq_nil_of_le (by simp [h.frame])]
    rfl
  | cons late r ih =>
    have hidx : s.tx.idx < s.tx.frame.length := by simp [h.frame]
    rw [sendLevels_cons h, List.map_cons, ih (h.next late), List.drop_eq_getElem_cons hidx, List.map_cons]
    simp [hidx]

/-- A late slot moves no later slot's deadline (R174). -/
theorem le_sendLevels_time {lates : List Nat} (h : Sending lates.length s) {i t : Nat} {v : Level}
    (hi : (sendLevels lates s)[i]? = some (t, v)) : s.tx.d + i * pNom Config.params s.cfg ≤ t := by
  induction lates generalizing s i with
  | nil => simp [sendLevels] at hi
  | cons late r ih =>
    rw [sendLevels_cons h] at hi
    cases i with
    | zero =>
      obtain ⟨rfl, -⟩ : max s.now s.tx.d + late = t ∧ _ := by simpa using hi
      omega
    | succ i =>
      have hle := ih (h.next late) (by simpa using hi)
      rw [slotEnd_d, slotEnd_cfg] at hle
      rw [Nat.succ_mul]
      omega

/-- With no lateness each slot is written at its deadline, so the next deadline is never past. -/
theorem sendLevels_times (h : Sending n s) (hd : s.now ≤ s.tx.d) : (sendLevels (List.replicate n 0) s).map (·.1) =
    (List.range n).map (fun i => s.tx.d + i * pNom Config.params s.cfg) := by
  induction n generalizing s with
  | zero => rfl
  | succ n ih =>
    have hnext : (slotEnd 0 s).now ≤ (slotEnd 0 s).tx.d := by simp [hd]
    rw [List.replicate_succ, sendLevels_cons h, List.map_cons, ih (h.next 0) hnext, List.range_succ_eq_map]
    simp [hd, Nat.succ_mul, Nat.add_assoc, Nat.add_comm (pNom _ _)]

/-- Settles O30: at slot 0 all B slots are to be written. -/
theorem frameWaveform : Obligations.FrameWaveform := by
  intro s b lates htxa hdraw hbusy hidx hframe hlen
  have h : Sending (frameBits s.cfg) s :=
    { issuer := htxa, draw := hdraw, phase := fun _ => hbusy
      frame := by rw [hframe, frameLevels_length, hidx, Nat.zero_add]
      bits := by rw [hidx, Nat.zero_add] }
  refine ⟨?_, fun i t v => le_sendLevels_time (hlen ▸ h), fun hd hlates => ?_⟩
  · rw [sendLevels_levels lates (hlen ▸ h), hidx, hframe, List.drop_zero]
  · rw [hlates, sendLevels_times h hd]

end Sys2Proof.Transmitter
end

section
/-! SUPPORT. The receiver's arithmetic on durations (43_uart_rx.md R205 to R212): the tracked period, the relaxation of the span window,
and the rounding of a duration to bits. -/

namespace Sys2Proof.Receiver

open Sys2Proof.Machine Sys2Proof.Claims

/-! ### The period and the rounding -/

/-- Settles O33: BLEND is one test of the band, whose lower end keeps the period positive. -/
theorem blendTracksPeriod : Obligations.BlendTracksPeriod :=
  ⟨fun _ _ hlow hhigh => if_pos ⟨hlow, hhigh⟩, fun _ _ hout => if_neg (by omega), fun _ d => StateRules.blend_pos d⟩

/-- Settles O35: RoundDiv is the quotient of 2x + P by 2P. -/
theorem roundDivIsNearest : Obligations.RoundDivIsNearest :=
  fun _ _ hP => ⟨Nat.mul_div_le _ _, Nat.lt_mul_div_succ _ (Nat.mul_pos Nat.two_pos hP)⟩

/-! ### CORRECT -/

/-- R210's shortfall is the least time that makes a duration a whole multiple of the period, and of at least one. -/
theorem shortfall_eq {P x short : Nat} (hshort : x < P → short = P - x)
    (hlong : P ≤ x → short < P ∧ (x + short) % P = 0) : shortfall P x = short := by
  unfold shortfall
  split
  next hlt => exact (hshort hlt).symm
  next hge =>
    obtain ⟨hlt, hmod⟩ := hlong (Nat.le_of_not_lt hge)
    have hrem : x % P < P := Nat.mod_lt _ (Nat.zero_lt_of_lt hlt)
    obtain ⟨m, hm⟩ : P ∣ x % P + short := Nat.dvd_of_mod_eq_zero (by rwa [Nat.mod_add_mod])
    have hm2 : m < 2 := Nat.lt_of_mul_lt_mul_left (a := P) (by omega)
    interval_cases m
    · rw [show x % P = 0 by omega, Nat.sub_zero, Nat.mod_self]
      omega
    · rw [show P - x % P = short by omega, Nat.mod_eq_of_lt hlt]

section

variable {P level i x donor : Nat} {w : List Nat} (hx : w[i]? = some x)
include hx

theorem correct_of_short (hshort : 0 < shortfall P x) (hbound : x < P ∨ 100 * shortfall P x ≤ (100 - level) * P)
    (hdonor : w[i - 1]? = some donor) : correct P level i w =
      (w.set (i - 1) (donor - min (shortfall P x) donor)).set i (x + min (shortfall P x) donor) := by
  simp only [correct, List.getD_eq_getElem?_getD, hx, hdonor, Option.getD_some]
  exact if_pos ⟨hshort, hbound⟩

theorem correct_of_not_short (h : ¬(0 < shortfall P x ∧ (x < P ∨ 100 * shortfall P x ≤ (100 - level) * P))) :
    correct P level i w = w := by
  simp only [correct, List.getD_eq_getElem?_getD, hx, Option.getD_some]
  exact if_neg h

end

/-! ### RELAX -/

/-- Working durations `v` of the same window as `w`, time having moved from older entries to newer ones (R209, R210). -/
structure Relaxes (w v : List Nat) : Prop where
  sum : v.sum = w.sum
  length : v.length = w.length
  oldest : v.getD 0 0 ≤ w.getD 0 0

theorem Relaxes.refl (w : List Nat) : Relaxes w w := ⟨rfl, rfl, le_rfl⟩

theorem Relaxes.trans {w v u : List Nat} (h : Relaxes w v) (h' : Relaxes v u) : Relaxes w u :=
  ⟨h'.sum.trans h.sum, h'.length.trans h.length, h'.oldest.trans h.oldest⟩

/-- Time moved between neighbours stays in the window. -/
theorem sum_transfer {w : List Nat} {j t : Nat} (hlen : j + 1 < w.length) (ht : t ≤ w.getD j 0) :
    ((w.set j (w.getD j 0 - t)).set (j + 1) (w.getD (j + 1) 0 + t)).sum = w.sum := by
  induction w generalizing j with
  | nil => simp at hlen
  | cons a w ih =>
    cases j with
    | succ j => simpa using ih (by simpa using hlen) (by simpa using ht)
    | zero =>
      cases w with
      | nil => simp at hlen
      | cons b w =>
        simp only [List.getD_cons_zero, List.getD_cons_succ, List.set_cons_zero, List.set_cons_succ, List.sum_cons] at ht ⊢
        omega

theorem correct_relaxes {i : Nat} {w : List Nat} (P level : Nat) (hlen : i + 1 < w.length) :
    Relaxes w (correct P level (i + 1) w) := by
  rcases correct_cases P level (i + 1) w with e | ⟨t, ht, e⟩
  · rw [e]
    exact .refl w
  · rw [e]
    refine ⟨sum_transfer hlen ht, by simp, ?_⟩
    cases i <;> cases w <;> simp

theorem relaxPass_relaxes {n : Nat} {w : List Nat} (P level : Nat) (hn : n ≤ w.length - 1) :
    Relaxes w (relaxPass P level n w) := by
  induction n generalizing w with
  | zero => exact .refl w
  | succ n ih =>
    have hstep := correct_relaxes P level (i := n) (w := w) (by omega)
    exact hstep.trans (ih (by rw [hstep.length]; omega))

theorem relaxAt_relaxes (P : Nat) (levels w : List Nat) : Relaxes w (relaxAt P levels w) := by
  induction levels generalizing w with
  | nil => exact .refl w
  | cons level levels ih => exact (relaxPass_relaxes P level le_rfl).trans (ih _)

theorem relaxAt_eq_foldl (P : Nat) (levels w : List Nat) : relaxAt P levels w =
    levels.foldl (fun w level => (List.range (w.length - 1)).foldl (fun v j => correct P level (w.length - 1 - j) v) w) w := by
  induction levels generalizing w with
  | nil => rfl
  | cons level levels ih => rw [relaxAt, relaxPass_eq_foldl, ih, List.foldl_cons]

/-- Settles O34: the schedule is the model's own recursion, the total is kept by each CORRECT, and the shortfall has one value. -/
theorem relaxKeepsTotal : Obligations.RelaxKeepsTotal := by
  refine ⟨fun P sw => ?_, fun P level i w x donor short hP hi hx hdonor hlow hhigh => ?_, by decide⟩
  · have h : Relaxes (sw.map (·.orig)) (relax P sw) := relaxAt_relaxes P relaxLevels _
    exact ⟨relaxAt_eq_foldl P relaxLevels _, h.sum, relax_length P sw, h.oldest⟩
  · obtain rfl := shortfall_eq hlow hhigh
    exact ⟨fun hshort hbound => correct_of_short hx hshort hbound hdonor, fun h => correct_of_not_short hx (by omega)⟩

end Sys2Proof.Receiver
end

section
/-! SUPPORT. The bit path (43_uart_rx.md R213 to R229): what SCORE does to a score, which position Pick answers, and what EXTRACT and
EXTRACT_FINAL leave of the BitWindow. -/

namespace Sys2Proof.Receiver

open Sys2Proof.Machine Sys2Proof.Claims

variable {c : Cfg} {bw : List BitEntry} {k : BitPath}

theorem scoredBits_pos (c : Cfg) : 0 < scoredBits c := Nat.add_pos_left (StateRules.frameBits_pos c) _

/-! ### SCORE and Chain (R217, R218) -/

theorem bitAt_of_getElem? {q : Nat} {e : BitEntry} (h : bw[q]? = some e) : bitAt bw q = e.lvl := by
  simp [bitAt, h]

theorem scoreAt_of_getElem? {q : Nat} {e : BitEntry} (h : bw[q]? = some e) : scoreAt bw q = e.score := by
  simp [scoreAt, h]

theorem chain_of_lt {q : Nat} (h : q < frameBits c) : chain c bw q = 0 := if_neg (Nat.not_le_of_lt h)

theorem chain_add (j : Nat) : chain c bw (j + frameBits c) = max (scoreAt bw j) 0 := by
  simp [chain]

theorem scoreNewest_of_short (h : bw.length < scoredBits c) : scoreNewest c bw = bw := if_neg (Nat.not_le_of_lt h)

/-- The newest L bits begin at `q`. -/
theorem scoreNewest_eq {q : Nat} (hq : q + scoredBits c = bw.length) : scoreNewest c bw =
    if scoreAt bw q = 0 ∧ frameValid c bw q = true then bw.set q { lvl := bitAt bw q, score := 1 + chain c bw q } else bw := by
  obtain rfl : q = bw.length - scoredBits c := by omega
  exact if_pos (by omega)

/-- SCORE changes no level. -/
@[simp] theorem map_lvl_scoreNewest (c : Cfg) (bw : List BitEntry) : (scoreNewest c bw).map (·.lvl) = bw.map (·.lvl) := by
  rcases Nat.lt_or_ge bw.length (scoredBits c) with h | h
  · rw [scoreNewest_of_short h]
  · rw [scoreNewest_eq (Nat.sub_add_cancel h)]
    split
    · exact map_lvl_set bw _ _
    · rfl

/-- SCORE and the scores: at most the one that begins the newest L bits changes. -/
theorem scoreAt_scoreNewest (c : Cfg) (bw : List BitEntry) (i : Nat) : scoreAt (scoreNewest c bw) i =
    if i + scoredBits c = bw.length ∧ scoreAt bw i = 0 ∧ frameValid c bw i = true then 1 + chain c bw i else scoreAt bw i := by
  have hL := scoredBits_pos c
  rcases Nat.lt_or_ge bw.length (scoredBits c) with h | h
  · rw [scoreNewest_of_short h, if_neg (by omega)]
  · obtain ⟨q, hq⟩ : ∃ q, q + scoredBits c = bw.length := ⟨_, Nat.sub_add_cancel h⟩
    rw [scoreNewest_eq hq]
    rcases eq_or_ne i q with rfl | hne
    · split
      next hvalid => rw [scoreAt_set _ _ _ _ (by omega), if_pos rfl, if_pos ⟨hq, hvalid⟩]
      next hvalid => rw [if_neg (fun hi => hvalid hi.2)]
    · have hi : ¬(i + scoredBits c = bw.length ∧ scoreAt bw i = 0 ∧ frameValid c bw i = true) := by omega
      rw [if_neg hi]
      split
      · rw [scoreAt_set _ _ _ _ (by omega), if_neg hne]
      · rfl

/-! ### Pick (R221) -/

/-- The answer `o` is the earliest of the best scores among the first `n` positions, or none where no score there is at least 1. -/
def EarliestBest (bw : List BitEntry) (n : Nat) : Option Nat → Prop
  | none => ∀ i, i < n → scoreAt bw i < 1
  | some q => q < n ∧ 1 ≤ scoreAt bw q ∧ (∀ i, i < n → scoreAt bw i ≤ scoreAt bw q) ∧ ∀ i, i < q → scoreAt bw i < scoreAt bw q

theorem EarliestBest_pickStep {n : Nat} {o : Option Nat} (h : EarliestBest bw n o) :
    EarliestBest bw (n + 1) (pickStep bw o n) := by
  cases o with
  | none =>
    simp only [pickStep]
    split
    next hn =>
      have hbetter : ∀ i, i < n → scoreAt bw i < scoreAt bw n := fun i hi => (h i hi).trans_le hn
      exact ⟨Nat.lt_succ_self n, hn, Nat.forall_lt_succ_right.mpr ⟨fun i hi => (hbetter i hi).le, le_rfl⟩, hbetter⟩
    next hn => exact Nat.forall_lt_succ_right.mpr ⟨h, Int.not_le.mp hn⟩
  | some q =>
    obtain ⟨hq, hone, hbest, hearliest⟩ := h
    simp only [pickStep]
    split
    next hn =>
      have hbetter : ∀ i, i < n → scoreAt bw i < scoreAt bw n := fun i hi => (hbest i hi).trans_lt hn
      exact ⟨Nat.lt_succ_self n, hone.trans hn.le,
        Nat.forall_lt_succ_right.mpr ⟨fun i hi => (hbetter i hi).le, le_rfl⟩, hbetter⟩
    next hn =>
      exact ⟨Nat.lt_succ_of_lt hq, hone, Nat.forall_lt_succ_right.mpr ⟨hbest, Int.not_lt.mp hn⟩, hearliest⟩

theorem EarliestBest_foldl (bw : List BitEntry) (n : Nat) :
    EarliestBest bw n ((List.range n).foldl (pickStep bw) none) := by
  induction n with
  | zero => exact fun i hi => absurd hi (Nat.not_lt_zero i)
  | succ n ih =>
    rw [List.range_succ, List.foldl_append]
    exact EarliestBest_pickStep ih

theorem EarliestBest_pick (bw : List BitEntry) (hi : Nat) : EarliestBest bw (hi + 1) (pick bw hi) :=
  EarliestBest_foldl bw (hi + 1)

/-- There is one such answer. -/
theorem EarliestBest.unique {n : Nat} {o o' : Option Nat} (h : EarliestBest bw n o) (h' : EarliestBest bw n o') : o = o' := by
  cases o with
  | none =>
    cases o' with
    | none => rfl
    | some q' => exact absurd (h q' h'.1) (Int.not_lt.mpr h'.2.1)
  | some q =>
    cases o' with
    | none => exact absurd (h' q h.1) (Int.not_lt.mpr h.2.1)
    | some q' =>
      obtain ⟨hq, -, hbest, hearliest⟩ := h
      obtain ⟨hq', -, hbest', hearliest'⟩ := h'
      rcases Nat.lt_trichotomy q q' with hlt | rfl | hlt
      · exact absurd (hearliest' q hlt) (Int.not_lt.mpr (hbest q' hq'))
      · rfl
      · exact absurd (hearliest q' hlt) (Int.not_lt.mpr (hbest' q hq))

theorem pick_eq_iff {hi : Nat} {o : Option Nat} : pick bw hi = o ↔ EarliestBest bw (hi + 1) o :=
  ⟨fun h => h ▸ EarliestBest_pick bw hi, (EarliestBest_pick bw hi).unique⟩

/-- Settles O37: Pick's fold keeps the earliest best position so far, and that position is unique. -/
theorem pickIsEarliestBest : Obligations.PickIsEarliestBest := by
  intro bw hi
  simp only [pick_eq_iff, EarliestBest, Nat.lt_succ_iff, implies_true, and_self]

/-! ### EXTRACT and EXTRACT_FINAL (R222 to R224) -/

theorem extractOne_of_some {hi q : Nat} (h : pick k.bw hi = some q) : extractOne c hi k = consume c q k := by
  rw [extractOne, h]

theorem extractOne_of_none {hi : Nat} (h : pick k.bw hi = none) :
    extractOne c hi k = { k with bw := k.bw.drop (hi + 1) } := by
  rw [extractOne, h]

theorem length_extractOne_lt {hi : Nat} (h : 0 < k.bw.length) : (extractOne c hi k).bw.length < k.bw.length := by
  obtain ⟨n, hn, e⟩ := extractOne_bw c hi k
  rw [e, List.length_drop]
  omega

theorem extractLoop_of_short (n : Nat) (h : k.bw.length < 2 * frameBits c + scoredBits c - 1) : extractLoop c n k = k := by
  cases n with
  | zero => rfl
  | succ n => exact if_neg (Nat.not_le_of_lt h)

theorem extract_of_short (h : k.bw.length < 2 * frameBits c + scoredBits c - 1) : extract c k = k := extractLoop_of_short _ h

theorem extract_of_long (h : 2 * frameBits c + scoredBits c - 1 ≤ k.bw.length) :
    extract c k = extract c (extractOne c (frameBits c - 1) k) := by
  have hB := StateRules.frameBits_pos c
  have hlt : (extractOne c (frameBits c - 1) k).bw.length < k.bw.length := length_extractOne_lt (by omega)
  calc extract c k
      = extractLoop c (k.bw.length + 1) k := extractLoop_fuel c _ _ k le_rfl (Nat.le_succ _)
    _ = extractLoop c k.bw.length (extractOne c (frameBits c - 1) k) := if_pos h
    _ = extract c (extractOne c (frameBits c - 1) k) := extractLoop_fuel c _ _ _ hlt.le le_rfl

theorem length_extract (c : Cfg) (k : BitPath) : (extract c k).bw.length < 2 * frameBits c + scoredBits c - 1 := by
  have hB := StateRules.frameBits_pos c
  have hle := StateRules.extractLoop_length (c := c) k.bw.length k le_rfl
  rw [extract]
  omega

theorem extractFinalLoop_of_short (n : Nat) (h : k.bw.length < scoredBits c) : extractFinalLoop c n k = k := by
  cases n with
  | zero => rfl
  | succ n => exact if_neg (Nat.not_le_of_lt h)

theorem extractFinal_of_short (h : k.bw.length < scoredBits c) : extractFinal c k = k := extractFinalLoop_of_short _ h

theorem extractFinal_of_long (h : scoredBits c ≤ k.bw.length) :
    extractFinal c k = extractFinal c (extractOne c (min (frameBits c - 1) (k.bw.length - scoredBits c)) k) := by
  have hlt : (extractOne c (min (frameBits c - 1) (k.bw.length - scoredBits c)) k).bw.length < k.bw.length :=
    length_extractOne_lt ((scoredBits_pos c).trans_le h)
  calc extractFinal c k
      = extractFinalLoop c (k.bw.length + 1) k := extractFinalLoop_fuel c _ _ k le_rfl (Nat.le_succ _)
    _ = extractFinalLoop c k.bw.length (extractOne c (min (frameBits c - 1) (k.bw.length - scoredBits c)) k) := if_pos h
    _ = extractFinal c (extractOne c (min (frameBits c - 1) (k.bw.length - scoredBits c)) k) :=
      extractFinalLoop_fuel c _ _ _ hlt.le le_rfl

theorem length_extractFinal (c : Cfg) (k : BitPath) : (extractFinal c k).bw.length < scoredBits c := by
  induction hn : k.bw.length using Nat.strong_induction_on generalizing k with
  | _ n ih =>
    subst hn
    rcases Nat.lt_or_ge k.bw.length (scoredBits c) with h | h
    · rwa [extractFinal_of_short h]
    · rw [extractFinal_of_long h]
      exact ih _ (length_extractOne_lt ((scoredBits_pos c).trans_le h)) _ rfl

/-- The BitWindow `k'.bw` is the one of `k` without some of its oldest bits. -/
def DropsOldest (k k' : BitPath) : Prop := ∃ n, k'.bw = k.bw.drop n

theorem DropsOldest_refl (k : BitPath) : DropsOldest k k := ⟨0, rfl⟩

theorem DropsOldest_extractOne {k' : BitPath} (hi : Nat) (h : DropsOldest k k') : DropsOldest k (extractOne c hi k') := by
  obtain ⟨n, e⟩ := h
  obtain ⟨m, -, e'⟩ := extractOne_bw c hi k'
  exact ⟨n + m, by rw [e', e, List.drop_drop]⟩

theorem DropsOldest_extract (c : Cfg) (k : BitPath) : DropsOldest k (extract c k) :=
  StateRules.extractLoop_keeps (fun hi _ => DropsOldest_extractOne hi) _ (DropsOldest_refl k)

theorem DropsOldest_extractFinal (c : Cfg) (k : BitPath) : DropsOldest k (extractFinal c k) :=
  StateRules.extractFinalLoop_keeps (fun hi _ => DropsOldest_extractOne hi) _ (DropsOldest_refl k)

theorem consume_eq (c : Cfg) (q : Nat) (k : BitPath) : consume c q k =
    { bw := k.bw.drop (q + frameBits c)
      rxq := (ringPush k.rxq (decodeByte c k.bw q)).1
      trace := overflowTrace k.trace (ringPush k.rxq (decodeByte c k.bw q)).2 } := by
  rw [consume, markConsumed_drop]

/-- What SCORE writes at the bit that begins the newest L bits, with Chain read off the entry B bits further back. -/
theorem scoreNewest_at {q : Nat} {e : BitEntry} (hq : q + scoredBits c = bw.length) (he : bw[q]? = some e) :
    (e.score = 0 → frameValid c bw q = true → scoreNewest c bw = bw.set q { lvl := e.lvl, score := 1 + chain c bw q }) ∧
    (e.score ≠ 0 ∨ frameValid c bw q = false → scoreNewest c bw = bw) := by
  rw [scoreNewest_eq hq, scoreAt_of_getElem? he, bitAt_of_getElem? he]
  exact ⟨fun hzero hvalid => if_pos ⟨hzero, hvalid⟩, fun hnot => if_neg (by simpa [imp_iff_not_or] using hnot)⟩

/-- Settles O38, a clause a lemma. -/
theorem extractionDropsOldestBits : Obligations.ExtractionDropsOldestBits := by
  refine fun c k => ⟨fun _ _ => rfl, fun _ _ _ => rfl, fun _ _ => rfl, scoreNewest_of_short, fun q e hq he => ?_,
    extract_of_short, extract_of_long, extractFinal_of_short, extractFinal_of_long, fun _ _ => extractOne_of_some,
    fun _ => extractOne_of_none, DropsOldest_extract c k, length_extract c k, DropsOldest_extractFinal c k,
    length_extractFinal c k, fun q => consume_eq c q k⟩
  obtain ⟨hscored, hkept⟩ := scoreNewest_at hq he
  refine ⟨fun hzero hvalid hlt => ?_, fun hzero hvalid j f hj hf => ?_, hkept⟩
  · rw [hscored hzero hvalid, chain_of_lt hlt, Int.add_zero]
  · rw [hscored hzero hvalid, ← hj, chain_add, scoreAt_of_getElem? hf]

end Sys2Proof.Receiver
end

section
/-! SUPPORT. The first frame (43_uart_rx.md R216 to R228): while fewer than 2B+L-1 bits have been pushed into an empty BitWindow, PUSH_BIT
only appends and scores; of the first B positions a frame at position 0 is then the earliest best, and the next bit delivers it. -/

namespace Sys2Proof.Receiver

open Sys2Proof.Machine Sys2Proof.Claims

variable {p : Params} {c : Cfg} {k : BitPath}

/-! ### PUSH_BIT before anything is extracted -/

/-- The BitWindow after these bits, none of them extracted. -/
def scoredWindow (c : Cfg) (bits : List Level) : List BitEntry :=
  bits.foldl (fun bw l => scoreNewest c (bw ++ [{ lvl := l, score := 0 }])) []

theorem scoredWindow_snoc (c : Cfg) (bits : List Level) (l : Level) :
    scoredWindow c (bits ++ [l]) = scoreNewest c (scoredWindow c bits ++ [{ lvl := l, score := 0 }]) := by
  simp only [scoredWindow, List.foldl_append, List.foldl_cons, List.foldl_nil]

@[simp] theorem map_lvl_scoredWindow (c : Cfg) (bits : List Level) : (scoredWindow c bits).map (·.lvl) = bits := by
  induction bits using List.reverseRecOn with
  | nil => rfl
  | append_singleton bits l ih => rw [scoredWindow_snoc, map_lvl_scoreNewest, List.map_append, ih, List.map_singleton]

@[simp] theorem length_scoredWindow (c : Cfg) (bits : List Level) : (scoredWindow c bits).length = bits.length := by
  rw [← congrArg List.length (map_lvl_scoredWindow c bits), List.length_map]

theorem pushLevels_append (p : Params) (c : Cfg) (bits bits' : List Level) (k : BitPath) :
    pushLevels p c (bits ++ bits') k = pushLevels p c bits' (pushLevels p c bits k) := by
  induction bits generalizing k with
  | nil => rfl
  | cons l bits ih => exact ih _

/-- One more bit on a window in which nothing has been extracted, below BITWIN_CAP. -/
theorem pushBit_scoredWindow {bits : List Level} (l : Level) (hcap : bits.length < p.bitwinCap)
    (hk : k.bw = scoredWindow c bits) :
    pushBit p c l k = extract c { k with bw := scoredWindow c (bits ++ [l]) } := by
  have hroom : ¬k.bw.length = p.bitwinCap := by
    rw [hk, length_scoredWindow]
    exact hcap.ne
  rw [pushBit, if_neg hroom, hk, scoredWindow_snoc]

/-- Fewer than 2B+L-1 bits only fill the window (R222, R229). -/
theorem pushLevels_scoredWindow {bits : List Level} (q : RingBuf Byte) (tr : List TraceEntry) (hcap : bits.length ≤ p.bitwinCap)
    (hshort : bits.length < 2 * frameBits c + scoredBits c - 1) :
    pushLevels p c bits { bw := [], rxq := q, trace := tr } = { bw := scoredWindow c bits, rxq := q, trace := tr } := by
  induction bits using List.reverseRecOn with
  | nil => rfl
  | append_singleton bits l ih =>
    rw [List.length_append, List.length_singleton] at hcap hshort
    rw [pushLevels_append, ih (by omega) (by omega), pushLevels, pushLevels, pushBit_scoredWindow l hcap rfl]
    exact extract_of_short (by simpa using hshort)

/-! ### The scores of the first B positions (R217 to R219) -/

theorem scoreAt_scoredWindow_snoc (c : Cfg) (bits : List Level) (l : Level) (i : Nat) :
    scoreAt (scoredWindow c (bits ++ [l])) i =
      if i + scoredBits c = bits.length + 1 ∧ scoreAt (scoredWindow c bits) i = 0 ∧
          frameValid c (scoredWindow c bits ++ [{ lvl := l, score := 0 }]) i = true then
        1 + chain c (scoredWindow c bits ++ [{ lvl := l, score := 0 }]) i
      else scoreAt (scoredWindow c bits) i := by
  rw [scoredWindow_snoc, scoreAt_scoreNewest, scoreAt_snoc, List.length_append, length_scoredWindow, List.length_singleton]

/-- A position is scored with the last bit of its L bits, and not before (R219). -/
theorem scoreAt_of_incomplete {bits : List Level} {i : Nat} (h : bits.length < i + scoredBits c) :
    scoreAt (scoredWindow c bits) i = 0 := by
  induction bits using List.reverseRecOn with
  | nil => rfl
  | append_singleton bits l ih =>
    rw [List.length_append, List.length_singleton] at h
    rw [scoreAt_scoredWindow_snoc, if_neg (by omega), ih (by omega)]

/-- The first B positions have no predecessor in the window to chain to (R218). -/
theorem scoreAt_le_one (bits : List Level) {i : Nat} (hi : i < frameBits c) : scoreAt (scoredWindow c bits) i ≤ 1 := by
  induction bits using List.reverseRecOn with
  | nil => exact Int.zero_le_ofNat 1
  | append_singleton bits l ih =>
    rw [scoreAt_scoredWindow_snoc]
    split
    · rw [chain_of_lt hi, Int.add_zero]
    · exact ih

theorem length_firstFrame (c : Cfg) (b : Byte) :
    (List.replicate (stopBits c) true ++ frameLevels c b).length = scoredBits c := by
  rw [List.length_append, List.length_replicate, frameLevels_length, scoredBits, Nat.add_comm]

/-- A frame at the start of the window scores 1, whatever follows it. -/
theorem scoreAt_firstFrame (c : Cfg) (b : Byte) (post : List Level) :
    scoreAt (scoredWindow c (List.replicate (stopBits c) true ++ frameLevels c b ++ post)) 0 = 1 := by
  have hlen := length_firstFrame c b
  induction post using List.reverseRecOn with
  | nil =>
    have hne : List.replicate (stopBits c) true ++ frameLevels c b ≠ [] :=
      List.ne_nil_of_length_pos (hlen ▸ scoredBits_pos c)
    obtain ⟨init, l, hbits⟩ := (List.eq_nil_or_concat' _).resolve_left hne
    have hvalid : frameValid c (scoredWindow c init ++ [{ lvl := l, score := 0 }]) 0 = true :=
      Encoding.frameValid_of_levels (pre := []) (b := b) (post := []) (by simp [hbits])
    rw [hbits, List.length_append, List.length_singleton] at hlen
    rw [List.append_nil, hbits, scoreAt_scoredWindow_snoc,
      if_pos ⟨by omega, scoreAt_of_incomplete (by omega), hvalid⟩, chain_of_lt (StateRules.frameBits_pos c), Int.add_zero]
  | append_singleton post l ih =>
    have hlater : ¬0 + scoredBits c = (List.replicate (stopBits c) true ++ frameLevels c b ++ post).length + 1 := by
      rw [List.length_append, hlen]
      omega
    rw [← List.append_assoc, scoreAt_scoredWindow_snoc, if_neg (fun h => hlater h.1), ih]

/-! ### Delivery (R221 to R224, R228) -/

/-- The other positions Pick looks at score no more, and are later. -/
theorem pick_firstFrame (c : Cfg) (b : Byte) (post : List Level) :
    pick (scoredWindow c (List.replicate (stopBits c) true ++ frameLevels c b ++ post)) (frameBits c - 1) = some 0 := by
  refine pick_eq_iff.mpr ⟨Nat.succ_pos _, ?_, fun i hi => ?_, fun i hi => absurd hi (Nat.not_lt_zero i)⟩
  · rw [scoreAt_firstFrame]
  · rw [scoreAt_firstFrame]
    exact scoreAt_le_one _ (by have := StateRules.frameBits_pos c; omega)

/-- With 2B+L-1 bits EXTRACT takes the frame at position 0, and too few bits are left for another turn. -/
theorem extract_firstFrame {c : Cfg} {post : List Level} (b : Byte) (hpost : post.length = 2 * frameBits c - 1)
    (hk : k.bw = scoredWindow c (List.replicate (stopBits c) true ++ frameLevels c b ++ post)) :
    (extract c k).rxq = (ringPush k.rxq b).1 := by
  have hB := StateRules.frameBits_pos c
  have hlen : k.bw.length = 2 * frameBits c + scoredBits c - 1 := by
    rw [hk, length_scoredWindow, List.length_append, length_firstFrame, hpost]
    omega
  have hbyte : decodeByte c k.bw 0 = b :=
    Encoding.decodeByte_of_levels (pre := []) (post := post) (by rw [hk, map_lvl_scoredWindow, List.nil_append])
  have hleft : (consume c 0 k).bw.length < 2 * frameBits c + scoredBits c - 1 := by
    rw [consume_bw, List.length_drop, hlen]
    omega
  rw [extract_of_long hlen.ge, extractOne_of_some (by rw [hk, pick_firstFrame]), extract_of_short hleft, consume_eq, hbyte]

/-- Settles O39: all bits but the last fill the window, and the last makes EXTRACT deliver the frame. -/
theorem firstFrameIsDelivered : Obligations.FirstFrameIsDelivered := by
  intro p c b post q tr hcap hpost bits
  have hB := StateRules.frameBits_pos c
  have hBmax := StateRules.frameBits_le c
  have hLmax := StateRules.scoredBits_le c
  have hlen : bits.length = 2 * frameBits c + scoredBits c - 1 := by
    rw [List.length_append, length_firstFrame, hpost]
    omega
  have hfill : ∀ early : List Level, early.length < bits.length →
      pushLevels p c early { bw := [], rxq := q, trace := tr } = { bw := scoredWindow c early, rxq := q, trace := tr } :=
    fun early hearly => pushLevels_scoredWindow q tr (by omega) (by omega)
  refine ⟨?_, fun n hn => ?_⟩
  · obtain ⟨init, l, hbits⟩ := (List.eq_nil_or_concat' bits).resolve_left (List.ne_nil_of_length_pos (by omega))
    have hinit : init.length + 1 = bits.length := by rw [hbits, List.length_append, List.length_singleton]
    rw [hbits, pushLevels_append, hfill init (by omega), pushLevels, pushLevels, pushBit_scoredWindow l (by omega) rfl]
    exact extract_firstFrame b hpost (by rw [← hbits])
  · rw [hfill (bits.take n) (by rwa [List.length_take_of_le hn.le])]

end Sys2Proof.Receiver
end

section
/-! SUPPORT. The receiver's commands (43_uart_rx.md R201 to R204, R230 to R232): what each answers where it is admitted, what ProcessSpan
does to the windows, and that RX_FLUSH leaves nothing for a second one. -/

namespace Sys2Proof.Receiver

open Sys2Proof.Machine Sys2Proof.Claims

variable {p : Params} {s : State}

/-! ### RX_START, RX_EDGE and RX_STOP -/

theorem exec_rxStart (hhost : s.issuer = .host) : exec .rxStart s =
    if !s.cfg.valid then .refused .notConfigured
    else if s.rx.run then .refused .alreadyRunning
    else .next (rxStart Config.params s) := byAgent_self hhost

theorem exec_rxStart_of_not_admitted (hhost : s.issuer = .host) (h : s.cfg.valid = false ∨ s.rx.run = true) :
    ∃ r, exec .rxStart s = .refused r := by
  rw [exec_rxStart hhost]
  split_ifs with hvalid hrun
  · exact ⟨_, rfl⟩
  · exact ⟨_, rfl⟩
  · simp_all

/-- Settles O40: RX_START is one pin read, which succeeds or is logged, beside the receiver's new state. -/
theorem rxStartInitialises : Obligations.RxStartInitialises := by
  refine fun s hhost => ⟨fun hvalid hrun => ?_, exec_rxStart_of_not_admitted hhost⟩
  have hnext : exec .rxStart s = .next (rxStart Config.params s) := by simp [exec_rxStart hhost, hvalid, hrun]
  rw [hnext]
  rcases rxStart_cases Config.params s with ⟨hfail, e⟩ | ⟨hok, e⟩
  · exact ⟨fun hok => absurd hok (Bool.eq_false_iff.mp hfail), fun _ => congrArg _ e⟩
  · exact ⟨fun _ => congrArg _ e, fun hfail => absurd hok (Bool.eq_false_iff.mp hfail)⟩

/-- Settles O41: a pending RX_EDGE is one pin read, which succeeds or is logged. -/
theorem rxEdgeRecordsSpan : Obligations.RxEdgeRecordsSpan := by
  intro s hrxc hrun hpending
  have hready : ready .rxEdge s = true := by
    rw [← Bool.not_eq_false, Scope.ready_rxEdge_eq_false]
    exact not_or.mpr ⟨by simp [hrun], hpending⟩
  have hnext : exec .rxEdge s = .next (rxEdge s) := (byAgent_self hrxc).trans (if_pos hready)
  rw [hnext]
  rcases rxEdge_cases s with ⟨hfail, e⟩ | ⟨hok, e⟩
  · exact ⟨fun hok => absurd hok (Bool.eq_false_iff.mp hfail), fun _ => congrArg _ e⟩
  · rw [ringPush_overflow] at e
    exact ⟨fun _ => congrArg _ e, fun hfail => absurd hok (Bool.eq_false_iff.mp hfail)⟩

/-- Settles O44: the awaits of RX_EDGE and RX_PROCESS ask for the run flag. -/
theorem rxStopClearsRun : Obligations.RxStopClearsRun :=
  ⟨Encoding.decode_encode .rxStop, fun _ hhost => byAgent_self hhost,
    fun _ => ⟨Scope.ready_rxEdge_eq_false.mpr (.inl rfl), Scope.ready_rxProcess_eq_false.mpr (.inl rfl)⟩⟩

/-! ### ProcessSpan (R204 to R214) -/

/-- The span window with a span appended, normalised with the period after BLEND (R205, R206, R208). -/
def trackedWindow (p : Params) (d : Nat) (l : Level) (s : State) : List SpanEntry :=
  s.rx.sw ++ [{ orig := d * pNom p s.cfg / blend s.rx.pmod d, lvl := l }]

theorem processSpan_of_notFull (d : Nat) (l : Level) (h : s.rx.sw.length + 1 ≠ p.spanWin) :
    processSpan p d l s = { s with rx := { s.rx with pmod := blend s.rx.pmod d, sw := trackedWindow p d l s } } :=
  if_neg (by simpa [trackSpan] using h)

/-- Entry 1 of a full window, relaxed, becomes bits; entry 0 leaves (R208, R213, R214). -/
theorem processSpan_of_full (d : Nat) (l : Level) (h : s.rx.sw.length + 1 = p.spanWin) {x : Nat} {v : Level}
    (hx : (relax (pNom p s.cfg) (trackedWindow p d l s))[1]? = some x)
    (hv : (trackedWindow p d l s)[1]?.map (·.lvl) = some v) :
    processSpan p d l s = withBitPath (pushBits p s.cfg v (min (roundDiv x (pNom p s.cfg)) p.bitwinCap) (bitPath s))
      { s with rx := { s.rx with pmod := blend s.rx.pmod d, sw := (trackedWindow p d l s).drop 1 } } := by
  have hfull : (trackSpan p d l s).rx.sw.length = p.spanWin := by simpa [trackSpan] using h
  have hx' : (relax (pNom p s.cfg) (trackSpan p d l s).rx.sw).getD 1 0 = x := by
    rw [List.getD_eq_getElem?_getD]
    exact congrArg (·.getD 0) hx
  have hv' : ((trackSpan p d l s).rx.sw[1]?.map (·.lvl)).getD false = v := congrArg (·.getD false) hv
  rw [processSpan, convertSpan, if_pos hfull]
  dsimp only
  rw [show (trackSpan p d l s).cfg = s.cfg from rfl, hx', hv']
  rfl

/-! ### RX_PROCESS (R204) -/

theorem exists_entryOne (P : Nat) {w : List SpanEntry} (h : 1 < w.length) :
    ∃ x v, (relax P w)[1]? = some x ∧ w[1]?.map (·.lvl) = some v :=
  ⟨_, _, List.getElem?_eq_getElem (by rwa [relax_length]), by rw [List.getElem?_eq_getElem h, Option.map_some]⟩

theorem exec_rxProcess_of_cons (hrxp : s.issuer = .rxp) (hrun : s.rx.run = true) (hok : RingOk s.spq) {v : Span}
    {rest : List Span} (hc : ringContents s.spq = v :: rest) :
    exec .rxProcess s = .next (processSpan Config.params v.dur v.lvl { s with spq := (ringPop s.spq).2 }) := by
  have hready : ready .rxProcess s = true := by
    rw [← Bool.not_eq_false, Scope.ready_rxProcess_eq_false, ← ringContents_nil_iff hok, hc]
    simp [hrun]
  have hnext : exec .rxProcess s = .next (rxProcess Config.params s) := (byAgent_self hrxp).trans (if_pos hready)
  rw [hnext, rxProcess, Rings.ringPop_eq_of_cons hok hc]

/-- Settles O42: the pop, and then ProcessSpan on a window that the span fills or does not. -/
theorem rxProcessHandlesOneSpan : Obligations.RxProcessHandlesOneSpan := by
  intro s v rest hrxp hrun hok hc
  obtain ⟨-, hrest⟩ := ringContents_pop hok hc
  let u : State := { s with spq := (ringPop s.spq).2 }
  let t := processSpan Config.params v.dur v.lvl u
  obtain ⟨k, w, e⟩ := processSpan_shape Config.params v.dur v.lvl u
  have ht : t = { s with spq := (ringPop s.spq).2, rx := t.rx, rxq := t.rxq, trace := t.trace } := by simp only [t, e, u]
  have hrx : t.rx = { s.rx with pmod := blend s.rx.pmod v.dur, sw := w, bw := k.bw } := by simp only [t, e, u]
  refine ⟨(ringPop s.spq).2, t.rx, t.rxq, t.trace, ?_, hrest, RingOk_pop hok, ringPop_cap _,
    by rw [hrx, hrun], by rw [hrx], by rw [hrx], by rw [hrx], ?_⟩
  · rw [exec_rxProcess_of_cons hrxp hrun hok hc, ← ht]
  · refine ⟨fun hopen => ?_, fun hfull => ⟨?_, fun x l hx hl => ?_⟩⟩
    · have htracked : t = _ := processSpan_of_notFull (p := Config.params) (s := u) v.dur v.lvl hopen
      rw [htracked]
      exact ⟨rfl, rfl, rfl, rfl⟩
    · obtain ⟨x, l, hx, hl⟩ := exists_entryOne (pNom Config.params s.cfg) (w := trackedWindow Config.params v.dur v.lvl u)
        (by rw [trackedWindow, List.length_append, List.length_singleton, hfull]; decide)
      have hconverted : t = _ := processSpan_of_full (p := Config.params) (s := u) v.dur v.lvl hfull hx hl
      rw [hconverted]
      rfl
    · exact congrArg bitPath (processSpan_of_full (p := Config.params) (s := u) v.dur v.lvl hfull hx hl)

/-! ### RX_FLUSH (R231) -/

theorem exec_rxFlush_of_stopped (hhost : s.issuer = .host) (hrun : s.rx.run = false) :
    exec .rxFlush s = .refused .receiverStopped :=
  (byAgent_self hhost).trans (if_pos (by simp [hrun]))

theorem exec_rxFlush_of_running (hhost : s.issuer = .host) (hrun : s.rx.run = true) (hempty : ringEmpty s.spq = true) :
    exec .rxFlush s = .next (rxFlush Config.params s) :=
  ((byAgent_self hhost).trans (if_neg (by simp [hrun]))).trans (if_pos hempty)

theorem closeSpan_of_le (h : s.now ≤ s.rx.e) : closeSpan p s = s := if_neg (Nat.not_lt_of_le h)

theorem closeSpan_of_lt (h : s.rx.e < s.now) : closeSpan p s =
    { processSpan p (s.now - s.rx.e) s.rx.lv s with
      rx := { (processSpan p (s.now - s.rx.e) s.rx.lv s).rx with e := s.now } } := if_pos h

/-- The last entry of a list, if it has one, is what stands at its last position. -/
theorem toList_getLast? {α : Type} (l : List α) : l.getLast?.toList = l.drop (l.length - 1) := by
  rcases eq_or_ne l [] with rfl | hne
  · rfl
  · rw [List.drop_length_sub_one hne, List.getLast?_eq_getLast_of_ne_nil hne, Option.toList_some]

/-- A receiver with nothing left for RX_FLUSH to do: no span open, only the donor in the window, too few bits for a frame. -/
structure Drained (s : State) : Prop where
  closed : s.now ≤ s.rx.e
  donor : s.rx.sw.length ≤ 1
  bits : s.rx.bw.length < scoredBits s.cfg

/-- The drained state, with the configuration `c` it is drained under. -/
theorem drainSpans_eq {c : Cfg} (p : Params) (hc : s.cfg = c) : drainSpans p s =
    withBitPath (extractFinal c (spansToBits p c (((relax (pNom p c) s.rx.sw).zip (s.rx.sw.map (·.lvl))).drop 1) (bitPath s)))
      { s with rx := { s.rx with sw := s.rx.sw.drop (s.rx.sw.length - 1) } } := by
  subst hc
  rw [drainSpans, toList_getLast?]

theorem length_bw_rxFlush (p : Params) (s : State) : (rxFlush p s).rx.bw.length < scoredBits s.cfg := by
  rw [rxFlush, drainSpans_eq p (StateRules.closeSpan_cfg p s), withBitPath_rx]
  dsimp only
  exact length_extractFinal s.cfg _

theorem rxFlush_drained (p : Params) (s : State) : Drained (rxFlush p s) := by
  have hbits := length_bw_rxFlush p s
  obtain ⟨k, w, e⟩ := rxFlush_shape p s
  rw [e] at hbits ⊢
  refine ⟨le_max_right _ _, ?_, hbits⟩
  rw [toList_getLast?, List.length_drop]
  omega

theorem Drained.rxFlush_eq (h : Drained s) (p : Params) : rxFlush p s = s := by
  have hspans : ((relax (pNom p s.cfg) s.rx.sw).zip (s.rx.sw.map (·.lvl))).drop 1 = [] :=
    List.drop_eq_nil_of_le (by simpa [relax_length] using h.donor)
  have hdonor : s.rx.sw.getLast?.toList = s.rx.sw := by
    rw [toList_getLast?, Nat.sub_eq_zero_of_le h.donor, List.drop_zero]
  rw [rxFlush, closeSpan_of_le h.closed, drainSpans, hspans, hdonor, spansToBits]
  dsimp only
  rw [extractFinal_of_short h.bits]
  rfl

/-- RX_FLUSH keeps the run flag and SPQ, so it completes again, and then has nothing left to do. -/
theorem exec_rxFlush_twice (hhost : s.issuer = .host) (hrun : s.rx.run = true) (hempty : ringEmpty s.spq = true) :
    exec .rxFlush (rxFlush Config.params s) = .next (rxFlush Config.params s) := by
  have hagain : exec .rxFlush (rxFlush Config.params s) = .next (rxFlush Config.params (rxFlush Config.params s)) := by
    obtain ⟨k, w, e⟩ := rxFlush_shape Config.params s
    rw [e]
    exact exec_rxFlush_of_running hhost hrun hempty
  rw [hagain, (rxFlush_drained Config.params s).rxFlush_eq]

/-- Settles O43: the next state is the model's own, it is drained, and RX_FLUSH of a drained receiver does nothing. -/
theorem rxFlushDrainsReceiver : Obligations.RxFlushDrainsReceiver := by
  refine ⟨?_, fun s => closeSpan_of_le, ?_, fun _ _ _ => rfl, fun _ _ _ _ _ _ => rfl, fun s => exec_rxFlush_of_stopped⟩
  · intro s hhost hrun hempty u spans k t
    have ht : rxFlush Config.params s = t := drainSpans_eq Config.params (StateRules.closeSpan_cfg Config.params s)
    rw [← ht]
    exact ⟨exec_rxFlush_of_running hhost hrun hempty, length_bw_rxFlush Config.params s, exec_rxFlush_twice hhost hrun hempty⟩
  · intro s hlt P pm window
    refine ⟨fun hopen => ?_, fun hfull x l hx hl => ?_⟩
    · rw [closeSpan_of_lt hlt, processSpan_of_notFull _ _ hopen]
      rfl
    · rw [closeSpan_of_lt hlt, processSpan_of_full _ _ hfull hx hl]
      rfl

end Sys2Proof.Receiver
end

section
/-! SUPPORT. The two AKP commands on the table of decoders (44_akp_decoder.md R260, R261; 10_state.md R42, R43). -/

namespace Sys2Proof.AkpRecords

open Sys2Proof.Machine

variable {s : State} {t : Nat} {c : Byte}

theorem exec_akpInit_of_host (t : Nat) (hhost : s.issuer = .host) :
    exec (.akpInit t) s = .next { s with akp := akpPut s.akp t akpFresh } :=
  byAgent_self hhost

theorem exec_akpFeed_of_some {T : TagParse} (c : Byte) (hhost : s.issuer = .host) (hget : akpGet? s.akp t = some T) :
    exec (.akpFeed t c) s = .next (emit (.tag (akpFeed Config.params T c).2)
      { s with akp := akpPut s.akp t (akpFeed Config.params T c).1 }) :=
  (byAgent_self hhost).trans (by rw [hget])

theorem exec_akpFeed_of_none (c : Byte) (hhost : s.issuer = .host) (hget : akpGet? s.akp t = none) :
    exec (.akpFeed t c) s = .refused (.noSuchInstance t) :=
  (byAgent_self hhost).trans (by rw [hget])

/-- Settles O46: the decoder put under the handle is the fresh one, and a put under one handle is not seen under another. -/
theorem akpInitCreatesInstance : Obligations.AkpInitCreatesInstance := by
  intro s t hhost
  refine ⟨akpPut s.akp t akpFresh, akpFresh, exec_akpInit_of_host t hhost, akpGet?_put_self _ _ _,
    fun u hu => akpGet?_put_other _ _ _ _ hu, ?_⟩
  simp [akpFresh]

/-- Settles O47: the fed decoder is put back under its own handle. -/
theorem akpFeedActsOnItsInstance : Obligations.AkpFeedActsOnItsInstance := by
  intro s t c hhost
  refine ⟨fun T hget => ⟨akpPut s.akp t (akpFeed Config.params T c).1, ?_, akpGet?_put_self _ _ _, akpFeed_lb1 _ _ _,
    akpFeed_lb0 _ _ _, fun u hu => akpGet?_put_other _ _ _ _ hu⟩, exec_akpFeed_of_none c hhost⟩
  rw [exec_akpFeed_of_some c hhost hget, emit, hhost]

end Sys2Proof.AkpRecords
end

section
/-! SUPPORT. An ordinary record read from its first letter to its last checksum digit (44_akp_decoder.md R262 to R267, R279). -/

namespace Sys2Proof.AkpRecords

open Sys2Proof.Machine Sys2Proof.Claims Sys2Proof.Encoding Sys2Proof.StateRules

variable {p : Params} {T : TagParse} {c x y h l : Byte} {data : List Byte}

/-! ### A byte in DATA (R264 to R266) -/

theorem akpFeed_data (hstart : tagStarts T c = false) (hm : T.mode = .data) :
    akpFeed p T c = ({ feedData p T c with lb1 := T.lb0, lb0 := c }, none) := by
  simp only [akpFeed_of_mode hstart, feedByMode, hm]

theorem feedData_colon (p : Params) (T : TagParse) : feedData p T colon = { T with colon := true, mode := .cs1 } :=
  if_pos rfl

theorem feedData_of_room (hc : c ≠ colon) (hroom : T.data.length < p.dataCap) :
    feedData p T c = { T with data := T.data ++ [c] } :=
  (if_neg hc).trans (if_pos hroom)

theorem feedData_of_full (hc : c ≠ colon) (hfull : p.dataCap ≤ T.data.length) : feedData p T c = dataOverflow p T :=
  (if_neg hc).trans (if_neg (Nat.not_lt_of_le hfull))

theorem dataOverflow_abort (T : TagParse) (hp : p.dataOverflow = .abort) : dataOverflow p T = akpClear T := by
  rw [dataOverflow, hp]

theorem dataOverflow_truncate (T : TagParse) (hp : p.dataOverflow = .truncate) : dataOverflow p T = T := by
  rw [dataOverflow, hp]

/-- Settles O49: the byte is ':', or finds room, or meets the policy of DATA_OVERFLOW. -/
theorem dataBytesAccumulate : Obligations.DataBytesAccumulate := by
  intro p T c hm hstart
  rw [akpFeed_data hstart hm]
  refine ⟨fun hc => ?_, fun hc hroom => ?_, fun hc hfull hp => ?_, fun hc hfull hp => ?_⟩
  · rw [hc, ← colon, feedData_colon]
  · rw [feedData_of_room hc hroom]
  · rw [feedData_of_full hc hfull, dataOverflow_abort T hp]
  · rw [feedData_of_full hc hfull, dataOverflow_truncate T hp]

/-! ### No tag starts in the data (R279) -/

theorem noTagStartIn_tail {a : Byte} (hno : noTagStartIn (a :: data)) : noTagStartIn data :=
  fun i => hno (i + 1)

/-- A tag start would read the lookback and the byte as two letters and '^'. -/
theorem tagStarts_of_noTagStartIn (hno : noTagStartIn (T.lb1 :: T.lb0 :: c :: data)) : tagStarts T c = false := by
  rw [Bool.eq_false_iff, ne_eq, tagStarts_iff]
  rintro ⟨-, rfl, h1, h0⟩
  exact hno 0 _ _ rfl rfl rfl ⟨h1, h0⟩

/-- The record's own '^' is no letter, so it starts no tag with the data behind it. -/
theorem noTagStartIn_after_caret (y : Byte) (hno : noTagStartIn data) : noTagStartIn (y :: caret :: data) := by
  have hcaret : isUpper caret ≠ true := by decide
  intro i a b ha hb hc
  match i with
  | 0 =>
    obtain rfl : caret = b := by simpa using hb
    exact fun ⟨_, hup⟩ => hcaret hup
  | 1 =>
    obtain rfl : caret = a := by simpa using ha
    exact fun ⟨hup, _⟩ => hcaret hup
  | i + 2 => exact hno i a b ha hb hc

/-! ### The three parts of a record -/

/-- The decoder after the tag and '^' of an ordinary record (R262): no data yet. -/
def recordStart (x y : Byte) : TagParse := { akpFresh with tag := (x, y), mode := .data, lb1 := y, lb0 := caret }

theorem beginTag_of_ordinary (hdd : (T.lb1, T.lb0) ≠ ddTag) :
    beginTag T = { akpClear T with tag := (T.lb1, T.lb0), mode := .data } := by
  rw [beginTag, if_neg hdd]

theorem akpFeedAll_recordStart (p : Params) (hm : T.mode ≠ .ddpay) (hx : isUpper x = true) (hy : isUpper y = true)
    (hdd : (x, y) ≠ ddTag) : akpFeedAll p T [x, y, caret] = (recordStart x y, List.replicate 3 none) := by
  obtain ⟨hfirst, hm1⟩ := akpFeed_upper p T x hm hx
  obtain ⟨hsecond, hm2⟩ := akpFeed_upper p _ y hm1 hy
  have hcaret := akpFeed_caret p _ hm2 hx hy
  rw [beginTag_of_ordinary hdd] at hcaret
  simp only [akpFeedAll, hfirst, hsecond, hcaret]
  rfl

/-- Data that fits is appended byte by byte (R264), whatever the lookback comes to. -/
theorem akpFeedAll_data (hm : T.mode = .data) (hcolon : ∀ c ∈ data, c ≠ colon) (hroom : T.data.length + data.length ≤ p.dataCap)
    (hno : noTagStartIn (T.lb1 :: T.lb0 :: data)) : ∃ a b, akpFeedAll p T data =
      ({ T with lb1 := a, lb0 := b, data := T.data ++ data }, List.replicate data.length none) := by
  induction data generalizing T with
  | nil => exact ⟨T.lb1, T.lb0, by simp [akpFeedAll]⟩
  | cons c r ih =>
    rw [List.length_cons] at hroom
    have hbyte : akpFeed p T c = ({ T with lb1 := T.lb0, lb0 := c, data := T.data ++ [c] }, none) := by
      rw [akpFeed_data (tagStarts_of_noTagStartIn hno) hm, feedData_of_room (hcolon c (by simp)) (by omega)]
    obtain ⟨a, b, e⟩ := ih (T := { T with lb1 := T.lb0, lb0 := c, data := T.data ++ [c] }) hm
      (fun d hd => hcolon d (by simp [hd])) (by simp; omega) (noTagStartIn_tail hno)
    refine ⟨a, b, ?_⟩
    rw [akpFeedAll, hbyte, e]
    simp [List.replicate_succ]

/-- ':' and the two digits of the checksum complete the record, at the second digit (R266, R267). -/
theorem akpFeedAll_checksum {vh vl : BitVec 4} (hm : T.mode = .data) (hh : hexVal? h = some vh) (hl : hexVal? l = some vl)
    (hcrc : 16 * vh.toNat + vl.toNat = (recordCrc p.crc8Step T.tag T.data).toNat) :
    (akpFeedAll p T [colon, h, l]).2 =
      List.replicate 2 none ++ [some { tag := T.tag, data := T.data, len := T.data.length }] := by
  have hne_h : h ≠ caret := hex_facts h (by simp [hh])
  have hne_l : l ≠ caret := hex_facts l (by simp [hl])
  have hne_colon : colon ≠ caret := by decide
  simp only [akpFeedAll]
  rw [akpFeed_data (tagStarts_of_ne_caret hne_colon) hm, feedData_colon, akpFeed_cs1_digit (tagStarts_of_ne_caret hne_h) rfl hh,
    akpFeed_cs2_digit (tagStarts_of_ne_caret hne_l) rfl hl]
  dsimp only
  rw [Nat.mul_comm, if_pos hcrc]
  rfl

/-- Settles O53: the tag begins the record from every mode, its data is all appended, and the checksum completes it. -/
theorem recordResynchronises : Obligations.RecordResynchronises := by
  intro p T x y h l vh vl data hm hx hy hdd hcolon hcap hno hh hl hcrc
  obtain ⟨a, b, e⟩ := akpFeedAll_data (p := p) (T := recordStart x y) rfl hcolon ((Nat.zero_add _).trans_le hcap)
    (noTagStartIn_after_caret y hno)
  rw [akpFeedAll_append, akpFeedAll_append, akpFeedAll_recordStart p hm hx hy hdd]
  dsimp only
  have hcount : 3 + data.length + 2 = data.length + 5 := by omega
  rw [e, akpFeedAll_checksum rfl hh hl hcrc, ← List.append_assoc, List.replicate_append_replicate,
    List.replicate_append_replicate, hcount]
  rfl

end Sys2Proof.AkpRecords
end

section
/-! SUPPORT. The DD sub-frame from DdCheck to the last byte of its payload (44_akp_decoder.md R269 to R271). -/

namespace Sys2Proof.AkpRecords

open Sys2Proof.Machine Sys2Proof.Claims Sys2Proof.Encoding Sys2Proof.StateRules

variable {p : Params} {T : TagParse} {c : Byte} {r : List Byte}

theorem takeDigits_data (T : TagParse) (vs : List Nat) : (takeDigits T vs).data = T.data := by
  induction vs generalizing T with
  | nil => rfl
  | cons v vs ih => exact (ih _).trans (takeDigit_data _ _)

/-- Two equal lengths within DD_CAP: a zero length completes at once, any other begins the payload (R269, R270). -/
theorem ddCheck_accept {n : Nat} (hlen1 : T.len1.toNat = n) (hlen2 : T.len2.toNat = n) (hcap : n ≤ p.ddCap) :
    ddCheck p T = if n = 0 then (akpClear T, some { tag := ddTag, data := [], len := 0 })
      else ({ T with mode := .ddpay, cnt := 0 }, none) := by
  have heq : T.len1 = T.len2 := BitVec.eq_of_toNat_eq (hlen1.trans hlen2.symm)
  have hok : ¬(T.len1 ≠ T.len2 ∨ p.ddCap < T.len1.toNat) := by simp [← heq, hlen1, hcap]
  rw [ddCheck, if_neg hok, hlen1]

/-- In DDPAY no byte starts a tag: each is the payload's (R263, R271). -/
theorem akpFeed_ddpay (hm : T.mode = .ddpay) :
    akpFeed p T c = ({ (feedPayload T c).1 with lb1 := T.lb0, lb0 := c }, (feedPayload T c).2) := by
  have hstart : tagStarts T c = false := by simp [tagStarts, hm]
  simp only [akpFeed_of_mode hstart, feedByMode, hm]

theorem feedPayload_last (hlast : T.cnt + 1 = T.len1.toNat) :
    feedPayload T c = (akpClear T, some { tag := ddTag, data := T.data ++ [c], len := T.cnt + 1 }) :=
  if_pos hlast

theorem feedPayload_notLast (hmore : T.cnt + 1 ≠ T.len1.toNat) :
    feedPayload T c = ({ T with data := T.data ++ [c], cnt := T.cnt + 1 }, none) :=
  if_neg hmore

/-- The bytes still to come of a payload complete it at the last of them, whatever they are (R271). -/
theorem akpFeedAll_payload (hm : T.mode = .ddpay) (hlen : T.len1.toNat = T.cnt + (c :: r).length) :
    (akpFeedAll p T (c :: r)).2 =
      List.replicate r.length none ++ [some { tag := ddTag, data := T.data ++ c :: r, len := T.len1.toNat }] := by
  induction r generalizing T c with
  | nil =>
    have hlast : T.cnt + 1 = T.len1.toNat := hlen.symm
    simp [akpFeedAll, akpFeed_ddpay hm, feedPayload_last hlast, hlast]
  | cons d r ih =>
    rw [List.length_cons, List.length_cons] at hlen
    have hmore : T.cnt + 1 ≠ T.len1.toNat := by omega
    have htail := ih (T := { T with lb1 := T.lb0, lb0 := c, data := T.data ++ [c], cnt := T.cnt + 1 }) (c := d) hm
      (by simp; omega)
    rw [akpFeedAll, akpFeed_ddpay hm, feedPayload_notLast hmore]
    dsimp only
    rw [htail]
    simp [List.replicate_succ]

/-- Settles O51: DdCheck accepts the two lengths; the empty payload is complete there, any other at its last byte. -/
theorem ddPayloadIsVerbatim : Obligations.DdPayloadIsVerbatim := by
  intro p T payload hm hlong hcap
  obtain ⟨hlen1, hlen2⟩ := takeDigits_lengths (T := ddStart) rfl rfl rfl hlong hlong
  obtain ⟨a, b, e⟩ := akpFeedAll_ddLengths p hm payload.length payload.length
  rw [akpFeedAll_append, e, ddCheck_accept hlen1 hlen2 hcap]
  cases payload with
  | nil => rfl
  | cons c r =>
    have hcount : 10 + 1 + r.length = (c :: r).length + 10 := by rw [List.length_cons]; omega
    rw [if_neg (by simp)]
    dsimp only
    rw [akpFeedAll_payload rfl (by simpa using hlen1), hlen1, takeDigits_data, ← List.append_assoc,
      ← List.replicate_succ', List.replicate_append_replicate, hcount]
    rfl

end Sys2Proof.AkpRecords
end

section
/-! SUPPORT. Channel configuration and the environment (45_channel_control.md R301 to R304): which CFG_SETs are admitted, and what a step
leaves of the configuration and of time. -/

namespace Sys2Proof.ChannelControl

open Sys2Proof.Machine

variable {s t : State} {i : Instr} {n : Nat} {p d v : Bool}

/-! ### CFG_SET -/

theorem channelBusy_iff : channelBusy s = true ↔ s.tx.run = true ∨ s.tx.phase ≠ .stopped ∨ s.rx.run = true := by
  simp [channelBusy, or_assoc]

theorem channelBusy_eq_false_iff : channelBusy s = false ↔ s.tx.run = false ∧ s.tx.phase = .stopped ∧ s.rx.run = false := by
  simp [channelBusy, and_assoc]

theorem exec_cfgSet (hhost : s.issuer = .host) : exec (.cfgSet n p d v) s =
    if n ∉ stdBauds then .refused (.nonStandardBaud n)
    else if channelBusy s then .refused .channelRunning
    else .next { s with cfg := { valid := true, baud := n, parity := p, stop2 := d, invert := v } } :=
  byAgent_self hhost

theorem exec_cfgSet_of_admitted (hhost : s.issuer = .host) (hstd : n ∈ stdBauds) (hidle : channelBusy s = false) :
    exec (.cfgSet n p d v) s =
      .next { s with cfg := { valid := true, baud := n, parity := p, stop2 := d, invert := v } } := by
  rw [exec_cfgSet hhost, if_neg (not_not_intro hstd), if_neg (by simp [hidle])]

theorem exec_cfgSet_of_not_admitted (hhost : s.issuer = .host) (h : n ∉ stdBauds ∨ channelBusy s = true) :
    ∃ r, exec (.cfgSet n p d v) s = .refused r := by
  rw [exec_cfgSet hhost]
  by_cases hstd : n ∈ stdBauds
  · have hbusy : channelBusy s = true := h.resolve_left (not_not_intro hstd)
    exact ⟨.channelRunning, by rw [if_neg (not_not_intro hstd), if_pos hbusy]⟩
  · exact ⟨.nonStandardBaud n, if_pos hstd⟩

/-- Settles O55: the conditions of R301 are the two the command tests; the period and the frame length are their definitions. -/
theorem cfgSetWritesConfiguration : Obligations.CfgSetWritesConfiguration := by
  refine ⟨fun n p d v => Encoding.decode_encode (.cfgSet n p d v), fun s n p d v hhost hstd hrun hphase hrx => ?_,
    fun s n p d v hhost h => ?_, by decide, by decide, fun _ => rfl, fun _ => rfl, by decide⟩
  · exact exec_cfgSet_of_admitted hhost hstd (channelBusy_eq_false_iff.mpr ⟨hrun, hphase, hrx⟩)
  · exact exec_cfgSet_of_not_admitted hhost (h.imp_right channelBusy_iff.mpr)

/-! ### The configuration while a channel is busy -/

/-- CFG_SET is the one writer of CFG, and it is refused while a channel is busy (R301). -/
theorem exec_keeps_cfg (hbusy : channelBusy s = true) (h : exec i s = .next t) : t.cfg = s.cfg := by
  rcases StateRules.exec_cfg_cases h with hcfg | ⟨n, p, d, v, rfl⟩
  · exact hcfg
  · obtain ⟨-, -, hidle, -⟩ := execCfgSet_next h
    exact absurd (hbusy.symm.trans hidle) (by decide)

/-- Settles O56: a step passes a turn, or executes one instruction on the same channels and the same CFG. -/
theorem configurationFrozenWhileRunning : Obligations.ConfigurationFrozenWhileRunning := by
  intro s s' h hstep
  have hbusy : channelBusy s = true := channelBusy_iff.mpr h
  rcases step_inversion hstep with rfl | ⟨i, ts, ps, ws, a, d, he, -⟩
  · rfl
  · exact exec_keeps_cfg (s := atIssue s ts ps ws a d) hbusy he

/-! ### The environment -/

theorem exec_envTick (n : Nat) (henv : s.issuer = .env) :
    exec (.envTick n) s = if n = 0 then .refused .zeroTick else .next { s with now := s.now + n } :=
  byAgent_self henv

theorem exec_envRxpin (v : Level) (henv : s.issuer = .env) :
    exec (.envRxpin v) s = .next { s with pin := { s.pin with rx := v } } :=
  byAgent_self henv

/-- No turn and no instruction moves time back (R24). -/
theorem step_now_le (h : step s = .next t) : s.now ≤ t.now :=
  step_keeps (P := fun u => s.now ≤ u.now) (fun _ _ _ _ _ _ hu => hu)
    (fun _ _ _ hu he => hu.trans (StateRules.exec_now_le he)) le_rfl h

/-- Settles O57: ENV's two commands are one write each, and time is an invariant of the step. -/
theorem environmentSteps : Obligations.EnvironmentSteps := by
  refine ⟨fun s n henv hpos => ?_, fun s henv => ?_, fun s v => exec_envRxpin v, fun _ _ => step_now_le⟩
  · rw [exec_envTick n henv, if_neg (Nat.one_le_iff_ne_zero.mp hpos)]
  · rw [exec_envTick 0 henv, if_pos rfl]

end Sys2Proof.ChannelControl
end

section
/-! SUPPORT. Refusals and pin failures (60_exceptions.md R321, R322, R326): what a refused step takes out of the queues, and which steps
count a pin failure. -/

namespace Sys2Proof.Exceptions

open Sys2Proof.Machine Sys2Proof.Claims

variable {i : Instr} {s t : State} {c : Issue} {w : Waiter}

/-! ### What a refused step takes -/

theorem exists_takesNext_of_select (h : select s = .fetch c t) : ∃ ts rest, s.turns = c.agent :: ts ∧ takesNext s c rest := by
  obtain ⟨ts, front, back, hturns, hwait, hpend, hfirst, -⟩ := select_fetch.mp h
  exact ⟨ts, front ++ back, hturns, hwait, front, back, hpend, rfl, hfirst⟩

theorem exists_resumesNext_of_select (h : select s = .resume w t) : ∃ ts rest, s.turns = w.agent :: ts ∧ resumesNext s w rest := by
  obtain ⟨ts, older, newer, hturns, hwait, hfirst, hready, -⟩ := select_resume.mp h
  exact ⟨ts, older ++ newer, hturns, older, newer, hwait, rfl, hready, hfirst⟩

/-- A turn that passes is never refused, so a refused step has taken a waiter or a command (R322). -/
theorem exists_taken_of_step_refused {e : Refusal} (h : step s = .refused e) : ∃ ts,
    (∃ c rest, s.turns = c.agent :: ts ∧ takesNext s c rest) ∨ ∃ w rest, s.turns = w.agent :: ts ∧ resumesNext s w rest := by
  unfold step at h
  split at h
  next => cases h
  next w _ hselect =>
    obtain ⟨ts, rest, hturns, hresumes⟩ := exists_resumesNext_of_select hselect
    exact ⟨ts, .inr ⟨w, rest, hturns, hresumes⟩⟩
  next c _ hselect =>
    obtain ⟨ts, rest, hturns, htakes⟩ := exists_takesNext_of_select hselect
    exact ⟨ts, .inl ⟨c, rest, hturns, htakes⟩⟩

theorem dropSelected_of_takesNext (ts : List Agent) {rest : List Issue} (h : takesNext s c rest) :
    dropSelected { s with turns := c.agent :: ts } = { s with turns := ts, pending := rest } := by
  rw [dropSelected, Scope.select_of_takesNext ts h]

theorem dropSelected_of_resumesNext (ts : List Agent) {rest : List Waiter} (h : resumesNext s w rest) :
    dropSelected { s with turns := w.agent :: ts } = { s with turns := ts, waiting := rest } := by
  rw [dropSelected, Scope.select_of_resumesNext ts h]

theorem runStep_of_refused {r : Run} {e : Refusal} (h : step r.state = .refused e) :
    runStep r = { state := dropSelected r.state, refused := true } := by
  rw [runStep, h]

/-- No outcome of a step clears the refusal mark (R322). -/
theorem runStep_keeps_refused {r : Run} (h : r.refused = true) : (runStep r).refused = true := by
  unfold runStep
  split
  · exact h
  · exact h
  · rfl

/-- Settles O7: a refused step has selected something, and what is dropped is what the turn selects. -/
theorem refusedCommandChangesNoState : Obligations.RefusedCommandChangesNoState :=
  ⟨fun _ _ => runStep_of_refused, fun _ _ => exists_taken_of_step_refused, fun _ ts _ _ => dropSelected_of_takesNext ts,
    fun _ ts _ _ => dropSelected_of_resumesNext ts, fun _ => runStep_keeps_refused⟩

/-! ### Pin failures -/

/-- From `s` to `t` no pin failure is counted, or one is, with its log entry, and the draw of `s` was that failure (R321, R326). -/
def CountsAtMostOneFailure (s t : State) : Prop :=
  t.pinErr = s.pinErr ∨
  (s.draw = false ∧ t.pinErr = s.pinErr + 1 ∧
    (t.trace = s.trace ++ [.logError .pinWriteFail] ∨ t.trace = s.trace ++ [.logError .pinReadFail]))

/-- A state that differs from a pin write in other fields only counts what the write counts (R185, R306). -/
theorem CountsAtMostOneFailure_of_pinWrite {v : Level} (herr : t.pinErr = (pinWrite v s).pinErr)
    (htrace : t.trace = (pinWrite v s).trace) : CountsAtMostOneFailure s t := by
  rcases pinWrite_cases v s with ⟨-, hok⟩ | ⟨hdraw, hfail⟩
  · exact .inl (by rw [herr, hok])
  · exact .inr ⟨hdraw, by rw [herr, hfail], .inl (by rw [htrace, hfail])⟩

theorem CountsAtMostOneFailure_txStep (p : Params) (s : State) : CountsAtMostOneFailure s (txStep p s) := by
  rcases txStep_shape p s with ⟨q, d, f, ph, ix, hquiet⟩ | ⟨-, hbusy⟩
  · exact .inl (by rw [hquiet])
  · rw [hbusy]
    exact CountsAtMostOneFailure_of_pinWrite rfl rfl

theorem CountsAtMostOneFailure_rxStart (p : Params) (s : State) : CountsAtMostOneFailure s (rxStart p s) := by
  rcases rxStart_cases p s with ⟨hdraw, hfail⟩ | ⟨-, hok⟩
  · exact .inr ⟨hdraw, by rw [hfail], .inr (by rw [hfail])⟩
  · exact .inl (by rw [hok])

theorem CountsAtMostOneFailure_rxEdge (s : State) : CountsAtMostOneFailure s (rxEdge s) := by
  rcases rxEdge_cases s with ⟨hdraw, hfail⟩ | ⟨-, hok⟩
  · exact .inr ⟨hdraw, by rw [hfail], .inr (by rw [hfail])⟩
  · exact .inl (by rw [hok])

theorem exec_pinErr_cases (h : exec i s = .next t) :
    t.pinErr = s.pinErr ∨ i = .txStart ∨ i = .txStep ∨ i = .rxStart ∨ i = .rxEdge := by
  obtain ⟨-, -, -, -, -, -, -, -, -, -, -, -, -, -, -, hpinErr, -⟩ := StateRules.fieldsHaveOnlyTheirWriters i s t h
  exact or_iff_not_imp_left.mpr hpinErr

/-- Only the commands that access a pin can count a failure, and each makes one access. -/
theorem exec_countsAtMostOneFailure (h : exec i s = .next t) : CountsAtMostOneFailure s t := by
  rcases exec_pinErr_cases h with hsame | rfl | rfl | rfl | rfl
  · exact .inl hsame
  · obtain ⟨-, -, -, -, rfl⟩ := execTxStart_next h
    exact CountsAtMostOneFailure_of_pinWrite rfl rfl
  · obtain ⟨-, ⟨-, rfl⟩ | ⟨-, rfl⟩⟩ := execTxStep_next h
    · exact CountsAtMostOneFailure_txStep _ s
    · exact .inl rfl
  · obtain ⟨-, -, -, rfl⟩ := execRxStart_next h
    exact CountsAtMostOneFailure_rxStart _ s
  · obtain ⟨-, ⟨-, rfl⟩ | ⟨-, rfl⟩⟩ := execRxEdge_next h
    · exact CountsAtMostOneFailure_rxEdge s
    · exact .inl rfl

/-! ### NO_PIN_FAIL -/

theorem exec_pinErr_of_draw (hdraw : s.draw = true) (h : exec i s = .next t) : t.pinErr = s.pinErr := by
  rcases exec_countsAtMostOneFailure h with hsame | ⟨hfail, -⟩
  · exact hsame
  · exact absurd (hdraw.symm.trans hfail) (by decide)

theorem NoPinFail_of_sublist (hpend : t.pending.Sublist s.pending) (hwait : t.waiting.Sublist s.waiting) (h : NoPinFail s) :
    NoPinFail t := by
  obtain ⟨hissued, hwaiting⟩ := h
  exact ⟨fun c hc => hissued c (hpend.subset hc), fun w hw => hwaiting w (hwait.subset hw)⟩

/-- The one waiter an instruction can add keeps the draw of its command (R12). -/
theorem exec_keeps_NoPinFail (hdraw : s.draw = true) (hs : NoPinFail s) (h : exec i s = .next t) : NoPinFail t := by
  obtain ⟨hpend, hwait⟩ := hs
  obtain ⟨-, hpendEq, hwaitEq⟩ := exec_queues i s t h
  refine ⟨hpendEq ▸ hpend, fun w hw => ?_⟩
  rcases hwaitEq with hsame | ⟨j, hjoined⟩
  · exact hwait w (hsame ▸ hw)
  · rw [hjoined, List.mem_append, List.mem_singleton] at hw
    rcases hw with hw | rfl
    · exact hwait w hw
    · exact hdraw

/-- Settles O32: a failure is counted on a failed draw only, and under NO_PIN_FAIL every step draws what its command brought, which is
no failure. -/
theorem pinFailuresAreCounted : Obligations.PinFailuresAreCounted := by
  refine ⟨fun i s t => exec_countsAtMostOneFailure, fun s s' hs hstep => ?_⟩
  rcases step_inversion hstep with rfl | ⟨i, ts, ps, ws, a, d, he, hps, hws, htaken, -⟩
  · exact ⟨rfl, hs⟩
  · obtain ⟨hissued, hwaiting⟩ := id hs
    have hdraw : d = true := by
      rcases htaken with ⟨w, hw, rfl, -⟩ | ⟨c, hc, rfl, -⟩
      · exact hwaiting w hw
      · exact hissued c hc
    have hissue : NoPinFail (atIssue s ts ps ws a d) := NoPinFail_of_sublist hps hws hs
    exact ⟨exec_pinErr_of_draw (s := atIssue s ts ps ws a d) hdraw he, exec_keeps_NoPinFail hdraw hissue he⟩

end Sys2Proof.Exceptions
end

section
/-! SUPPORT. Block reset (70_reset_and_hazards.md R350): the values the spec gives, and each invariant of a good state at reset. The
capacities are open, so of the rings only that a capacity is positive is used. -/

namespace Sys2Proof.Reset

open Sys2Proof.Machine Sys2Proof.Claims

/-- Settles O58: each value is a field of `State.reset`. -/
theorem resetValues : Obligations.ResetValues :=
  ⟨rfl, rfl, rfl, ⟨rfl, rfl, rfl⟩, ⟨rfl, rfl, rfl⟩, ⟨rfl, rfl, rfl⟩, rfl, rfl, rfl, rfl⟩

/-- R28: a capacity is at least 1, and an empty ring of any such capacity is good. -/
theorem RingsOk_reset : RingsOk State.reset :=
  ⟨RingOk_ofCapacity (Nat.succ_pos _), RingOk_ofCapacity (Nat.succ_pos _), RingOk_ofCapacity (Nat.succ_pos _)⟩

/-- R22: CFG is not valid at reset, so its rate need not be a standard one. -/
theorem CfgOk_reset : CfgOk State.reset := fun hvalid => absurd hvalid Bool.false_ne_true

theorem TxOk_reset : TxOk State.reset := StateRules.TxOk_stopped rfl rfl

/-- R34 to R39: the receiver is stopped, its windows are empty and its period is 1. -/
theorem RxOk_reset : RxOk State.reset :=
  ⟨le_rfl, le_rfl, Nat.zero_lt_one.trans StateRules.one_lt_spanWin, Nat.zero_le _, List.forall_mem_nil _,
    fun hrun => absurd hrun Bool.false_ne_true⟩

theorem AkpOk_reset : AkpOk State.reset := ⟨.nil, List.forall_mem_nil _⟩

theorem WaitOk_reset : WaitOk State.reset := List.nodup_nil

/-- Settles O59, an invariant a lemma. -/
theorem resetIsGood : Obligations.ResetIsGood :=
  ⟨RingsOk_reset, CfgOk_reset, TxOk_reset, RxOk_reset, AkpOk_reset, WaitOk_reset⟩

end Sys2Proof.Reset
end
